-- ==== Sys2Proof/Word.lean ====
section
/-! DEFINITION. The words of the block: the three port widths, the two index widths, the six tags and the
FpuValue record (spec/10_state.md R31, R32; spec/20_memory.md R71 to R75). -/

namespace Sys2Proof

/-- A command word, the unit of execution (30_encoding.md R90). -/
abbrev CmdWord := BitVec 16

/-- A value on the operand port or in the data field of a response (20_memory.md R73, R75). -/
abbrev PortWord := BitVec 84

/-- A logical register index `i` of `ST(i)`, or a physical slot number (20_memory.md R71). -/
abbrev RegIdx := BitVec 3

/-- A constant index `c` as the command word carries it, 12 to 15 included (20_memory.md R71). -/
abbrev ConstIdx := BitVec 4

/-- A set of exception kinds: bit `k` is the kind of code `k` (60_exceptions.md R340). -/
abbrev KindSet := BitVec 8

/-- The six tags, a closed sum type as 10_state.md R32 asks. -/
inductive Tag where
  | valid
  | zero
  | denormal
  | infinity
  | nan
  | empty
  deriving DecidableEq, Repr

/-- One value record (10_state.md R31): `sign` is true for negative, `exp` is a 16-bit two's complement
integer, `sig` the 64-bit significand whose bit 63 is the explicit leading bit. -/
structure FpuValue where
  sign : Bool
  tag : Tag
  exp : BitVec 16
  sig : BitVec 64
  deriving DecidableEq, Repr

end Sys2Proof
end

