-- ==== Sys2Proof/Syntax.lean ====
section
/-! DEFINITION. The commands of the block: one constructor per row of spec/opcode_table.json, in the table's order
(spec/30_encoding.md R96). `StSti` is the form `ST,ST(i)` (D = 0), `StiSt` the form `ST(i),ST` (D = 1), `Imm` the form
whose second operand is on the operand port (M = 1). -/

namespace Sys2Proof

/-- A command. The operand port is no part of it: the command word holds no numeric immediate (R94). -/
inductive Instr where
  | finit
  | fclex
  | stsw
  | stcw
  | ldcw
  | fldReg (i : RegIdx)
  | fldImm
  | fldc (c : ConstIdx)
  | fst (i : RegIdx)
  | fstp (i : RegIdx)
  | fxch (i : RegIdx)
  | ffree (i : RegIdx)
  | ffreep (i : RegIdx)
  | pop
  | rdst (i : RegIdx)
  | faddStSti (i : RegIdx)
  | faddStiSt (i : RegIdx)
  | faddImm
  | faddp (i : RegIdx)
  | fsubStSti (i : RegIdx)
  | fsubStiSt (i : RegIdx)
  | fsubImm
  | fsubrStSti (i : RegIdx)
  | fsubrStiSt (i : RegIdx)
  | fsubrImm
  | fsubp (i : RegIdx)
  | fsubrp (i : RegIdx)
  | fmulStSti (i : RegIdx)
  | fmulStiSt (i : RegIdx)
  | fmulImm
  | fmulp (i : RegIdx)
  | fdivStSti (i : RegIdx)
  | fdivStiSt (i : RegIdx)
  | fdivImm
  | fdivrStSti (i : RegIdx)
  | fdivrStiSt (i : RegIdx)
  | fdivrImm
  | fdivp (i : RegIdx)
  | fdivrp (i : RegIdx)
  | fl2x
  | fl2xp1
  deriving DecidableEq, Repr

end Sys2Proof
end

