-- ==== Sys2Proof/WellFormed.lean ====
section
/-! DEFINITION. Which commands the encoding admits. Every register index of three bits is legal; the one constraint
is on the constant index (spec/20_memory.md R71, spec/47_constants.md R321). -/

namespace Sys2Proof

/-- `c` names an entry of the constant table: 0 to 11, the codes 12 to 15 being reserved (47_constants.md R321). -/
def constIdxLegal (c : ConstIdx) : Bool := decide (c.toNat ≤ 11)

/-- The command is one of the 227 that the encoding admits (30_encoding.md R93, R96). -/
def Instr.wellFormed : Instr → Bool
  | .fldc c => constIdxLegal c
  | .finit | .fclex | .stsw | .stcw | .ldcw => true
  | .fldReg _ | .fldImm | .fst _ | .fstp _ | .fxch _ | .ffree _ | .ffreep _ | .pop | .rdst _ => true
  | .faddStSti _ | .faddStiSt _ | .faddImm | .faddp _ => true
  | .fsubStSti _ | .fsubStiSt _ | .fsubImm | .fsubrStSti _ | .fsubrStiSt _ | .fsubrImm => true
  | .fsubp _ | .fsubrp _ => true
  | .fmulStSti _ | .fmulStiSt _ | .fmulImm | .fmulp _ => true
  | .fdivStSti _ | .fdivStiSt _ | .fdivImm | .fdivrStSti _ | .fdivrStiSt _ | .fdivrImm => true
  | .fdivp _ | .fdivrp _ => true
  | .fl2x | .fl2xp1 => true

/-- `Instr.wellFormed` as a decidable proposition. -/
abbrev Instr.WellFormed (i : Instr) : Prop := i.wellFormed = true

end Sys2Proof
end

