-- ==== Sys2Proof/Decode.lean ====
section
/-! DEFINITION. The decoder, total on every command word and rejecting by name, and the encoder, both from the
format of spec/30_encoding.md (R90 to R96, R108). -/

namespace Sys2Proof

/-- Why a word is no command (30_encoding.md R108). Every one of them answers ILLEGAL; the name says which
clause of the rule holds. -/
inductive DecodeError where
  /-- `Z`, bits 6:4, is not zero. -/
  | reservedBits
  /-- `OPC` is none of the eighteen codes of R92. -/
  | reservedOpc
  /-- A flag of `P`, `R`, `D`, `M` has a value that R93 does not list for this operation. -/
  | flagCombination
  /-- `IDX` is not 0 where it must be, or `IDX[3] = 1` in a register form. -/
  | indexField
  /-- FLDC with a constant index 12 to 15. -/
  | reservedConstant
  deriving DecidableEq, Repr

/-- `OPC`, bits 15:11 (R91). -/
def fieldOpc (w : CmdWord) : BitVec 5 := w.extractLsb' 11 5

/-- `P`, bit 10: pop variant (R91). -/
def fieldP (w : CmdWord) : Bool := w.getLsbD 10

/-- `R`, bit 9: reversed operand order (R91). -/
def fieldR (w : CmdWord) : Bool := w.getLsbD 9

/-- `D`, bit 8: destination select (R91). -/
def fieldD (w : CmdWord) : Bool := w.getLsbD 8

/-- `M`, bit 7: the second operand is on the operand port (R91). -/
def fieldM (w : CmdWord) : Bool := w.getLsbD 7

/-- `Z`, bits 6:4, which must be 0 (R91). -/
def fieldZ (w : CmdWord) : BitVec 3 := w.extractLsb' 4 3

/-- `IDX`, bits 3:0 (R91). -/
def fieldIdx (w : CmdWord) : BitVec 4 := w.extractLsb' 0 4

/-- A form whose `IDX` must be 0 (R93). -/
def noIndex (w : CmdWord) (i : Instr) : Except DecodeError Instr :=
  if fieldIdx w = 0 then .ok i else .error .indexField

/-- A form whose `IDX` is a register index: `IDX[3] = 0`, `i = IDX[2:0]` (R93). -/
def regIndex (w : CmdWord) (f : RegIdx → Instr) : Except DecodeError Instr :=
  if (fieldIdx w).getLsbD 3 then .error .indexField else .ok (f ((fieldIdx w).extractLsb' 0 3))

/-- The FLDC form, whose `IDX` is a constant index 0 to 11 (R93, R321). -/
def constIndex (w : CmdWord) : Except DecodeError Instr :=
  if constIdxLegal (fieldIdx w) then .ok (.fldc (fieldIdx w)) else .error .reservedConstant

/-- A form with no flag and no index: FINIT, FCLEX, STSW, STCW, LDCW, POP, FL2X, FL2XP1 (R93). -/
def plainForm (w : CmdWord) (i : Instr) : Except DecodeError Instr :=
  match fieldP w, fieldR w, fieldD w, fieldM w with
  | false, false, false, false => noIndex w i
  | _, _, _, _ => .error .flagCombination

/-- A form with no flag and a register index: FXCH, RDST (R93). -/
def plainRegForm (w : CmdWord) (f : RegIdx → Instr) : Except DecodeError Instr :=
  match fieldP w, fieldR w, fieldD w, fieldM w with
  | false, false, false, false => regIndex w f
  | _, _, _, _ => .error .flagCombination

/-- A register form whose `P` chooses a second mnemonic: FST / FSTP, FFREE / FFREEP (R93). -/
def popRegForm (w : CmdWord) (f fp : RegIdx → Instr) : Except DecodeError Instr :=
  match fieldP w, fieldR w, fieldD w, fieldM w with
  | false, false, false, false => regIndex w f
  | true, false, false, false => regIndex w fp
  | _, _, _, _ => .error .flagCombination

/-- The arithmetic forms of an operation without a reversed form: FADD, FMUL (R93). -/
def commutativeForms (w : CmdWord) (stSti stiSt : RegIdx → Instr) (imm : Instr) (popForm : RegIdx → Instr) :
    Except DecodeError Instr :=
  match fieldP w, fieldR w, fieldD w, fieldM w with
  | false, false, false, false => regIndex w stSti
  | false, false, true, false => regIndex w stiSt
  | false, false, false, true => noIndex w imm
  | true, false, true, false => regIndex w popForm
  | _, _, _, _ => .error .flagCombination

/-- The arithmetic forms of an operation with a reversed form (`R = 1`): FSUB, FDIV (R93). -/
def reversibleForms (w : CmdWord) (stSti stiSt : RegIdx → Instr) (imm : Instr) (rStSti rStiSt : RegIdx → Instr)
    (rImm : Instr) (popForm rPopForm : RegIdx → Instr) : Except DecodeError Instr :=
  match fieldP w, fieldR w, fieldD w, fieldM w with
  | false, false, false, false => regIndex w stSti
  | false, false, true, false => regIndex w stiSt
  | false, false, false, true => noIndex w imm
  | false, true, false, false => regIndex w rStSti
  | false, true, true, false => regIndex w rStiSt
  | false, true, false, true => noIndex w rImm
  | true, false, true, false => regIndex w popForm
  | true, true, true, false => regIndex w rPopForm
  | _, _, _, _ => .error .flagCombination

/-- FLD: a register form and an immediate form (R93). -/
def fldForms (w : CmdWord) : Except DecodeError Instr :=
  match fieldP w, fieldR w, fieldD w, fieldM w with
  | false, false, false, false => regIndex w .fldReg
  | false, false, false, true => noIndex w .fldImm
  | _, _, _, _ => .error .flagCombination

/-- FLDC: no flag and a constant index (R93). -/
def fldcForm (w : CmdWord) : Except DecodeError Instr :=
  match fieldP w, fieldR w, fieldD w, fieldM w with
  | false, false, false, false => constIndex w
  | _, _, _, _ => .error .flagCombination

/-- The decoder (R92, R93, R108): one of the 227 commands, or the reason why the word is illegal. -/
def decode (w : CmdWord) : Except DecodeError Instr :=
  if fieldZ w ≠ 0 then .error .reservedBits
  else
    match (fieldOpc w).toNat with
    | 0x01 => plainForm w .finit
    | 0x02 => plainForm w .fclex
    | 0x03 => plainForm w .stsw
    | 0x04 => plainForm w .stcw
    | 0x05 => plainForm w .ldcw
    | 0x08 => fldForms w
    | 0x09 => fldcForm w
    | 0x0A => popRegForm w .fst .fstp
    | 0x0B => plainRegForm w .fxch
    | 0x0C => popRegForm w .ffree .ffreep
    | 0x0D => plainForm w .pop
    | 0x0E => plainRegForm w .rdst
    | 0x10 => commutativeForms w .faddStSti .faddStiSt .faddImm .faddp
    | 0x11 => reversibleForms w .fsubStSti .fsubStiSt .fsubImm .fsubrStSti .fsubrStiSt .fsubrImm .fsubp .fsubrp
    | 0x12 => commutativeForms w .fmulStSti .fmulStiSt .fmulImm .fmulp
    | 0x13 => reversibleForms w .fdivStSti .fdivStiSt .fdivImm .fdivrStSti .fdivrStiSt .fdivrImm .fdivp .fdivrp
    | 0x18 => plainForm w .fl2x
    | 0x19 => plainForm w .fl2xp1
    | _ => .error .reservedOpc

/-- The fields put together: `OPC << 11 | P << 10 | R << 9 | D << 8 | M << 7 | IDX` (R91). -/
def packWord (opc : BitVec 5) (p r d m : Bool) (idx : BitVec 4) : CmdWord :=
  opc ++ BitVec.ofBool p ++ BitVec.ofBool r ++ BitVec.ofBool d ++ BitVec.ofBool m ++ (0 : BitVec 3) ++ idx

/-- `IDX` of a register form: `IDX[3] = 0` (R93). -/
def regField (i : RegIdx) : BitVec 4 := i.setWidth 4

/-- The encoder: the word of a command, from R92 and R93. -/
def encode : Instr → CmdWord
  | .finit => packWord 0x01 false false false false 0
  | .fclex => packWord 0x02 false false false false 0
  | .stsw => packWord 0x03 false false false false 0
  | .stcw => packWord 0x04 false false false false 0
  | .ldcw => packWord 0x05 false false false false 0
  | .fldReg i => packWord 0x08 false false false false (regField i)
  | .fldImm => packWord 0x08 false false false true 0
  | .fldc c => packWord 0x09 false false false false c
  | .fst i => packWord 0x0A false false false false (regField i)
  | .fstp i => packWord 0x0A true false false false (regField i)
  | .fxch i => packWord 0x0B false false false false (regField i)
  | .ffree i => packWord 0x0C false false false false (regField i)
  | .ffreep i => packWord 0x0C true false false false (regField i)
  | .pop => packWord 0x0D false false false false 0
  | .rdst i => packWord 0x0E false false false false (regField i)
  | .faddStSti i => packWord 0x10 false false false false (regField i)
  | .faddStiSt i => packWord 0x10 false false true false (regField i)
  | .faddImm => packWord 0x10 false false false true 0
  | .faddp i => packWord 0x10 true false true false (regField i)
  | .fsubStSti i => packWord 0x11 false false false false (regField i)
  | .fsubStiSt i => packWord 0x11 false false true false (regField i)
  | .fsubImm => packWord 0x11 false false false true 0
  | .fsubrStSti i => packWord 0x11 false true false false (regField i)
  | .fsubrStiSt i => packWord 0x11 false true true false (regField i)
  | .fsubrImm => packWord 0x11 false true false true 0
  | .fsubp i => packWord 0x11 true false true false (regField i)
  | .fsubrp i => packWord 0x11 true true true false (regField i)
  | .fmulStSti i => packWord 0x12 false false false false (regField i)
  | .fmulStiSt i => packWord 0x12 false false true false (regField i)
  | .fmulImm => packWord 0x12 false false false true 0
  | .fmulp i => packWord 0x12 true false true false (regField i)
  | .fdivStSti i => packWord 0x13 false false false false (regField i)
  | .fdivStiSt i => packWord 0x13 false false true false (regField i)
  | .fdivImm => packWord 0x13 false false false true 0
  | .fdivrStSti i => packWord 0x13 false true false false (regField i)
  | .fdivrStiSt i => packWord 0x13 false true true false (regField i)
  | .fdivrImm => packWord 0x13 false true false true 0
  | .fdivp i => packWord 0x13 true false true false (regField i)
  | .fdivrp i => packWord 0x13 true true true false (regField i)
  | .fl2x => packWord 0x18 false false false false 0
  | .fl2xp1 => packWord 0x19 false false false false 0

/-- The instruction the decoder reads from an instruction whose `nbits` bits are `w`. A command is one 16-bit word
(R90), so only bits 15:0 are its own. -/
def decodeTableWord (nbits w : Nat) : Option Instr :=
  match decode (BitVec.ofNat 16 (w % 2 ^ nbits)) with
  | .ok i => some i
  | .error _ => none

end Sys2Proof
end

