-- ==== Sys2Proof/Machine/State.lean ====
section
/-! DEFINITION. The state of one instance of the block (spec/10_state.md R30 to R62), its three ports
(spec/20_memory.md R72 to R75) and the state after hardware reset (spec/70_reset_and_hazards.md R380). -/

namespace Sys2Proof.Machine

/-- The four rounding modes (10_state.md R43). -/
inductive RoundMode where
  /-- `RN`, to nearest, ties to even, code 0b00. -/
  | nearest
  /-- `RD`, toward minus infinity, code 0b01. -/
  | down
  /-- `RU`, toward plus infinity, code 0b10. -/
  | up
  /-- `RZ`, toward zero, code 0b11. -/
  | zero
  deriving DecidableEq, Repr

/-- The three working precisions (10_state.md R45). The reserved code 0b01 can never be held, so it is no value. -/
inductive Precision where
  /-- 24 significant bits, code 0b00. -/
  | p24
  /-- 53 significant bits, code 0b10. -/
  | p53
  /-- 64 significant bits, code 0b11. -/
  | p64
  deriving DecidableEq, Repr

/-- The control word `CW` by its fields (10_state.md R42): `mask` is bits 7:0, one mask bit per kind code, 1 meaning
masked (R44); `pc` bits 9:8; `rc` bits 11:10; bits 15:12 are hardwired to 0 (R47) and so hold nothing. -/
structure ControlWord where
  mask : KindSet
  pc : Precision
  rc : RoundMode
  deriving DecidableEq, Repr

/-- The control word after reset, 0x03FF: all kinds masked, p = 64, to nearest (10_state.md R56). -/
def ControlWord.default : ControlWord := { mask := 0xFF, pc := .p64, rc := .nearest }

/-- The `status` field of a response (20_memory.md R75); its 2-bit code is `statusCode` of Machine/Ops.lean. -/
inductive Status where
  /-- The command completed, code 0. -/
  | done
  /-- An unmasked exception was raised, code 1. -/
  | fault
  /-- The word is no command, or LDCW was given the reserved precision code, code 2. -/
  | illegal
  deriving DecidableEq, Repr

/-- A response (20_memory.md R75): `cc` is the signed completion code, `fault` the fault vector. -/
structure Response where
  status : Status
  cc : BitVec 8
  fault : KindSet
  data : PortWord
  deriving DecidableEq, Repr

/-- What the outside world presents to the block: a command word with the operand port's value, one transaction
(20_memory.md R72), or the hardware reset input (70_reset_and_hazards.md R380). -/
inductive PortEvent where
  | command (cmd : CmdWord) (opnd : PortWord)
  | hardReset
  deriving DecidableEq, Repr

/-- The state of one instance. `slots` are the physical slots `x[0]` to `x[7]` (R30), `top` the top pointer (R39),
`cw` the control word (R41), `sticky` the eight sticky bits by kind code (R48, R49), `c0` to `c3` the condition
bits (R51, R52). `SW.ES` and `SW.TOP` are views, not state (R50, R53). The last three fields are the model's own
(log entry 1): `opnd` is what stands on the operand port while a command runs, `pending` the port events not yet
taken, oldest first, `resp` the response port, `none` before the first response. -/
structure State where
  slots : Vector FpuValue 8
  top : RegIdx
  cw : ControlWord
  sticky : KindSet
  c0 : Bool
  c1 : Bool
  c2 : Bool
  c3 : Bool
  opnd : PortWord
  pending : List PortEvent
  resp : Option Response
  deriving DecidableEq, Repr

/-- An Empty slot with an all-zero payload. DESIGN CHOICE, log entry 3: the payload is the open parameter
`P_RESET_SLOT_PAYLOAD` (10_state.md R57), unobservable by R40. -/
def emptySlot : FpuValue := { sign := false, tag := .empty, exp := 0, sig := 0 }

/-- The state right after hardware reset (10_state.md R56, 70_reset_and_hazards.md R380). -/
def State.reset : State where
  slots := Vector.replicate 8 emptySlot
  top := 0
  cw := ControlWord.default
  sticky := 0
  c0 := false
  c1 := false
  c2 := false
  c3 := false
  opnd := 0
  pending := []
  resp := none

/-- The reasons a step can stop the machine: none. An unmasked exception is reported by a FAULT response and an
illegal word by an ILLEGAL response, both of them next states (60_exceptions.md R346 to R348), and "Nothing in this
block is stuck" (93_implementation_defined.md, Part 1). -/
inductive Fault where
  deriving DecidableEq, Repr

/-- The reasons the model gives a command no meaning. -/
inductive Refusal where
  /-- Raised by an arm of `exec` whose command has no meaning yet. Safe: nothing can be proved of the command. No
  arm of this model answers with it. -/
  | notModelled (mnemonic : String)
  /-- Raised by the seven immediate forms (M = 1) when the operand port holds a value that is ill-formed (an Infinity of
  non-canonical significand is not: U8) or is Empty: the spec leaves the command's behaviour unspecified and says that a model refuses it (20_memory.md R74,
  93_implementation_defined.md U1, log entry 4). Safe. -/
  | illFormedImmediate
  deriving DecidableEq, Repr

/-- The outcome of a command or a step of this machine. -/
abbrev Result := Host.Outcome State Fault Refusal

end Sys2Proof.Machine
end

