-- ==== Sys2Proof/Machine/Flags.lean ====
section
/-! DEFINITION. Kinds, the control word as a word, the status word and its derived bits
(spec/60_exceptions.md R340; spec/10_state.md R42 to R54). -/

namespace Sys2Proof.Machine

/-- InvalidOperation, code 0 (R340). -/
def kIE : KindSet := 0x01

/-- DenormalOperand, code 1 (R340). -/
def kDE : KindSet := 0x02

/-- ZeroDivide, code 2 (R340). -/
def kZE : KindSet := 0x04

/-- Overflow, code 3 (R340). -/
def kOE : KindSet := 0x08

/-- Underflow, code 4 (R340). -/
def kUE : KindSet := 0x10

/-- Inexact, code 5 (R340). -/
def kPE : KindSet := 0x20

/-- StackUnderflow, code 6 (R340). -/
def kSU : KindSet := 0x40

/-- StackOverflow, code 7 (R340). -/
def kSO : KindSet := 0x80

/-- The set `K` if the condition holds, else the empty set. -/
def kindsIf (b : Bool) (K : KindSet) : KindSet := if b then K else 0

/-- The unmasked kinds of `K` under the masks of `cw` (60_exceptions.md R345). -/
def unmasked (cw : ControlWord) (K : KindSet) : KindSet := K &&& ~~~cw.mask

/-- The code of a rounding mode (10_state.md R43). -/
def roundCode : RoundMode → BitVec 2
  | .nearest => 0b00
  | .down => 0b01
  | .up => 0b10
  | .zero => 0b11

/-- The rounding mode of a code (10_state.md R43). -/
def roundOfCode (c : BitVec 2) : RoundMode :=
  match c.toNat with
  | 0 => .nearest
  | 1 => .down
  | 2 => .up
  | _ => .zero

/-- The code of a working precision (10_state.md R45). -/
def precCode : Precision → BitVec 2
  | .p24 => 0b00
  | .p53 => 0b10
  | .p64 => 0b11

/-- The working precision of a code; 0b01 is reserved (10_state.md R45). -/
def precOfCode (c : BitVec 2) : Option Precision :=
  match c.toNat with
  | 0 => some .p24
  | 2 => some .p53
  | 3 => some .p64
  | _ => none

/-- The number `p` of significant bits of a working precision (10_state.md R45). -/
def Precision.bits : Precision → Nat
  | .p24 => 24
  | .p53 => 53
  | .p64 => 64

/-- The control word as the 16-bit word STCW returns; bits 15:12 read as 0 (10_state.md R42, R47). -/
def ControlWord.toWord (cw : ControlWord) : BitVec 16 :=
  (0 : BitVec 4) ++ roundCode cw.rc ++ precCode cw.pc ++ cw.mask

/-- The control word that LDCW loads from `w`: bits 15:12 are ignored (R47), the reserved precision code gives
none (10_state.md R45, 46_stack_mgmt_aux.md R303). -/
def ControlWord.ofWord (w : BitVec 16) : Option ControlWord :=
  match precOfCode (w.extractLsb' 8 2) with
  | some pc => some { mask := w.extractLsb' 0 8, pc := pc, rc := roundOfCode (w.extractLsb' 10 2) }
  | none => none

/-- `SW.ES`: some sticky bit is set whose kind is unmasked (10_state.md R50). Derived, not stored. -/
def State.es (s : State) : Bool := decide (unmasked s.cw s.sticky ≠ 0)

/-- The status word, assembled as in 10_state.md R48: bits 6:0 the sticky bits of codes 0 to 6, bit 7 `ES`, 8 to 10
`C0` to `C2`, 13:11 the live `top` (R53), 14 `C3`, 15 the sticky bit of code 7. -/
def State.statusWord (s : State) : BitVec 16 :=
  BitVec.ofBool (s.sticky.getLsbD 7) ++ BitVec.ofBool s.c3 ++ s.top ++ BitVec.ofBool s.c2 ++ BitVec.ofBool s.c1 ++
    BitVec.ofBool s.c0 ++ BitVec.ofBool s.es ++ s.sticky.extractLsb' 0 7

end Sys2Proof.Machine
end

