-- ==== Sys2Proof/Config.lean ====
section
/-! DEFINITION. What an implementation of the block fixes (spec/00_scope.md R8, R9) and the open parameters that
a model takes as free values (00_scope.md R10; 92_eei_decisions.md D27). -/

namespace Sys2Proof.Config

/-- Smallest normal exponent, `EMIN` (00_scope.md R9). -/
def emin : Int := -16382

/-- Largest finite exponent, `EMAX` (00_scope.md R9). -/
def emax : Int := 16383

/-- The exponent that Infinity and NaN carry, `ESPECIAL` (00_scope.md R9). -/
def especial : Int := 16384

/-- Exponent of the unit of the fixed grid of tiny results, `EMIN - 63` (41_arith_common.md R165). -/
def gridExp : Int := emin - 63

/-- The two entry points of the logarithm engine (45_log2.md, header). -/
inductive LogEntry where
  | polyL2
  | polyL2P1
  deriving DecidableEq, Repr

/-- FREE VALUE, the open parameter `L2_COEF[0..8]` (00_scope.md R10, 45_log2.md R259, log entry 2): the spec gives
nine coefficients and none of their values. -/
opaque l2Coef : Fin 9 → Rat

/-- FREE VALUE (log entry 16): the rounding mode, as a code of 10_state.md R43, of the engine's internal division.
45_log2.md R257 gives the division and its precision, not its mode; by L2-FUN (R264) it is not that of the control
word. -/
opaque l2DivisionRc : BitVec 2

/-- FREE VALUE (log entry 2): everything in the engine's unrounded result that 45_log2.md R258 to R260 leave
open (the scaling of the fixed-point product, the truncations, the recomputation path for a zero exponent), as a
function of the entry point and its argument. -/
opaque l2Residual : LogEntry → Rat → Rat

end Sys2Proof.Config
end

