-- ==== Sys2Proof/Machine/Value.lean ====
section
/-! DEFINITION. FpuValue: packing, well-formedness, the special values and the constant table
(spec/10_state.md R31 to R38, spec/47_constants.md R320 to R323). -/

namespace Sys2Proof

/-- The 3-bit code of a tag (R32). -/
def tagCode : Tag → BitVec 3
  | .valid => 0
  | .zero => 1
  | .denormal => 2
  | .infinity => 3
  | .nan => 4
  | .empty => 5

/-- The tag of a 3-bit code; the codes 6 and 7 are reserved (R32). -/
def tagOfCode (c : BitVec 3) : Option Tag :=
  match c.toNat with
  | 0 => some .valid
  | 1 => some .zero
  | 2 => some .denormal
  | 3 => some .infinity
  | 4 => some .nan
  | 5 => some .empty
  | _ => none

/-- The 84-bit layout: `sign` 83, `tag` 82:80, `exp` 79:64, `sig` 63:0 (R31). -/
def packValue (v : FpuValue) : PortWord :=
  BitVec.ofBool v.sign ++ tagCode v.tag ++ v.exp ++ v.sig

/-- The record of an 84-bit value; none where the tag code is 6 or 7 (R31, R32). -/
def unpackValue (w : PortWord) : Option FpuValue :=
  match tagOfCode (w.extractLsb' 80 3) with
  | some t => some { sign := w.getLsbD 83, tag := t, exp := w.extractLsb' 64 16, sig := w.extractLsb' 0 64 }
  | none => none

/-- The quiet bit of a NaN, `sig[62]` (R34). -/
def FpuValue.quiet (v : FpuValue) : Bool := v.sig.getLsbD 62

/-- A signaling NaN: tag NaN and quiet bit 0 (R34). -/
def FpuValue.signaling (v : FpuValue) : Bool := decide (v.tag = .nan) && !v.quiet

/-- `WF(v)`: the fields agree with the tag (the table of R33). -/
def FpuValue.wf (v : FpuValue) : Bool :=
  match v.tag with
  | .valid => v.sig.getLsbD 63 && decide (Config.emin ≤ v.exp.toInt) && decide (v.exp.toInt ≤ Config.emax)
  | .zero => true
  | .denormal => decide (v.exp.toInt = Config.emin) && !v.sig.getLsbD 63 && decide (v.sig ≠ 0)
  | .infinity => decide (v.exp.toInt = Config.especial) && decide (v.sig = 0x8000000000000000)
  | .nan => decide (v.exp.toInt = Config.especial) && v.sig.getLsbD 63 && decide (v.sig.extractLsb' 0 63 ≠ 0)
  | .empty => true

/-- What the block takes as a value: a well-formed one, or an Infinity whose `sig` is not the canonical one, which
93_implementation_defined.md U8 defines ("ignored on input"), tags being authoritative (log entry 15). Its `exp` must
be that of R33: U8 frees the significand only. -/
def FpuValue.usable (v : FpuValue) : Bool :=
  v.wf || (decide (v.tag = .infinity) && decide (v.exp.toInt = Config.especial))

/-- An exponent as the 16-bit two's complement field (R31). -/
def expField (e : Int) : BitVec 16 := BitVec.ofInt 16 e

/-- `INDEF`, the indefinite NaN (R36). -/
def indef : FpuValue := { sign := true, tag := .nan, exp := expField Config.especial, sig := 0xC000000000000000 }

/-- `ZERO(s)`, the canonical zero of sign `s` (R37). -/
def zeroOf (s : Bool) : FpuValue := { sign := s, tag := .zero, exp := expField Config.emin, sig := 0 }

/-- `INF(s)`, the infinity of sign `s` (R38). -/
def infOf (s : Bool) : FpuValue :=
  { sign := s, tag := .infinity, exp := expField Config.especial, sig := 0x8000000000000000 }

/-- A NaN made quiet: sign and payload kept, quiet bit set (41_arith_common.md R152, 45_log2.md R262). -/
def FpuValue.quieted (v : FpuValue) : FpuValue :=
  { sign := v.sign, tag := .nan, exp := expField Config.especial, sig := v.sig ||| 0x4000000000000000 }

/-- A positive Valid value of exponent `e` and significand `sig`. -/
def validOf (e : Int) (sig : BitVec 64) : FpuValue := { sign := false, tag := .valid, exp := expField e, sig := sig }

/-- The constant table, index 0 to 11 (47_constants.md R320); none for the reserved indices 12 to 15 (R321). -/
def constTable (c : ConstIdx) : Option FpuValue :=
  match c.toNat with
  | 0 => some (validOf 0 0x8000000000000000)
  | 1 => some (validOf 1 0xD49A784BCD1B8AFE)
  | 2 => some (validOf 0 0xB8AA3B295C17F0BC)
  | 3 => some (validOf 1 0xC90FDAA22168C235)
  | 4 => some (validOf 0 0xC90FDAA22168C235)
  | 5 => some (validOf (-1) 0xC90FDAA22168C235)
  | 6 => some (validOf (-2) 0x9A209A84FBCFF799)
  | 7 => some (validOf (-1) 0xB17217F7D1CF79AC)
  | 8 => some (zeroOf false)
  | 9 => some (infOf false)
  | 10 => some (infOf true)
  | 11 => some indef
  | _ => none

end Sys2Proof
end

