-- ==== Sys2Proof/Machine/Round.lean ====
section
/-! DEFINITION. Exact magnitudes and the rounding function (spec/41_arith_common.md R160 to R171, spec/45_log2.md
R266). An exact positive rational is held as a fraction of naturals, so that every function here evaluates; the
rational reading of `round` is stated in Sys2Proof/Safety.lean. -/

namespace Sys2Proof.Machine

/-- An exact non-negative rational `num / den`, `den` positive, not reduced. -/
structure Frac where
  num : Nat
  den : Nat
  deriving DecidableEq, Repr

/-- `m / 2^q` for an integer `q`. -/
def Frac.scale (m : Frac) (q : Int) : Frac := { num := m.num * 2 ^ (-q).toNat, den := m.den * 2 ^ q.toNat }

/-- `m < 1`. -/
def Frac.ltOne (m : Frac) : Bool := decide (m.num < m.den)

/-- `ilog2(m)`: the integer `e` with `2^e <= m < 2^(e+1)`, for `m > 0` (00_scope.md R14). -/
def Frac.ilog2 (m : Frac) : Int :=
  let d : Int := (m.num.log2 : Int) - (m.den.log2 : Int)
  if (m.scale d).ltOne then d - 1 else d

/-- The magnitude of a Valid, Denormal or Zero value, `sig * 2^(exp - 63)` (10_state.md R35). -/
def magOf (v : FpuValue) : Frac :=
  match v.tag with
  | .zero => { num := 0, den := 1 }
  | _ => Frac.scale { num := v.sig.toNat, den := 1 } (63 - v.exp.toInt)

/-- `round_up(RC, s, f, rem)` for the remainder `rem = r / d`, `0 < r < d` (R166). -/
def roundUp (rc : RoundMode) (s : Bool) (f r d : Nat) : Bool :=
  match rc with
  | .nearest => decide (d < 2 * r) || (decide (2 * r = d) && decide (f % 2 = 1))
  | .down => s
  | .up => !s
  | .zero => false

/-- What `Round` finds before it decides the kinds: the rounded magnitude `n * 2^q`, and the three facts about it
(R165). -/
structure Grid where
  q : Int
  n : Nat
  inexact : Bool
  up : Bool
  tiny : Bool
  deriving DecidableEq, Repr

/-- The exponent of the unit in the last place, `max(e - p + 1, EMIN - 63)` (R165). -/
def ulpExp (pc : Precision) (m : Frac) : Int := max (m.ilog2 - (pc.bits : Int) + 1) Config.gridExp

/-- The rounding of `m` on the grid `2^q` (R165). -/
def roundGrid (cw : ControlWord) (s : Bool) (m : Frac) : Grid :=
  let q := ulpExp cw.pc m
  let x := m.scale q
  let f := x.num / x.den
  let r := x.num % x.den
  let inexact := decide (r ≠ 0)
  let up := inexact && roundUp cw.rc s f r x.den
  { q := q, n := f + up.toNat, inexact := inexact, up := up, tiny := (m.scale Config.emin).ltOne }

/-- `r >= 2^(EMAX + 1)` for `r = n * 2^q` (R165). -/
def Grid.overflows (g : Grid) : Bool := decide (g.n ≠ 0) && decide (Config.emax + 1 ≤ (g.n.log2 : Int) + g.q)

/-- The mode rounds a magnitude of sign `s` away from zero on overflow (R167). -/
def overflowToInf (rc : RoundMode) (s : Bool) : Bool :=
  match rc with
  | .nearest => true
  | .up => !s
  | .down => s
  | .zero => false

/-- The significand of the largest finite number of precision `p`, `(2^p - 1) << (64 - p)` (R167). -/
def maxSig (pc : Precision) : BitVec 64 := BitVec.ofNat 64 ((2 ^ pc.bits - 1) * 2 ^ (64 - pc.bits))

/-- The value of `overflow_result(s)` (R167); its `roundup` is `overflowToInf`. -/
def overflowValue (cw : ControlWord) (s : Bool) : FpuValue :=
  if overflowToInf cw.rc s then infOf s
  else { sign := s, tag := .valid, exp := expField Config.emax, sig := maxSig cw.pc }

/-- `make(s, r)` for `r = n * 2^q` with `q >= EMIN - 63` (R170). -/
def makeValue (s : Bool) (n : Nat) (q : Int) : FpuValue :=
  if n = 0 then zeroOf s
  else
    let er : Int := (n.log2 : Int) + q
    if er < Config.emin then
      { sign := s, tag := .denormal, exp := expField Config.emin, sig := BitVec.ofNat 64 (n * 2 ^ (q - Config.gridExp).toNat) }
    else { sign := s, tag := .valid, exp := expField er, sig := BitVec.ofNat 64 (n * 2 ^ 63 / 2 ^ n.log2) }

/-- A rounded result: the kinds it signals in one call, the value, and `roundup`. -/
structure Rounded where
  kinds : KindSet
  value : FpuValue
  roundup : Bool
  deriving DecidableEq, Repr

/-- The delivery of a grid result: overflow (R167) or `make` with the given kinds (R165). -/
def deliver (cw : ControlWord) (s : Bool) (g : Grid) (kinds : KindSet) : Rounded :=
  if g.overflows then { kinds := kOE ||| kPE, value := overflowValue cw s, roundup := overflowToInf cw.rc s }
  else { kinds := kinds, value := makeValue s g.n g.q, roundup := g.up }

/-- `Round(s, m)` (R165): UE when tiny and (inexact or UE unmasked) (R168), PE when inexact (R169). -/
def round (cw : ControlWord) (s : Bool) (m : Frac) : Rounded :=
  let g := roundGrid cw s m
  deliver cw s g
    (kindsIf (g.tiny && (g.inexact || decide (unmasked cw kUE ≠ 0))) kUE ||| kindsIf g.inexact kPE)

/-- `RoundT(s, m)` (45_log2.md R266): as `Round`, with the result always treated as inexact. -/
def roundT (cw : ControlWord) (s : Bool) (m : Frac) : Rounded :=
  let g := roundGrid cw s m
  deliver cw s g (kindsIf g.tiny kUE ||| kPE)

end Sys2Proof.Machine
end

