-- ==== Sys2Proof/Machine/Compute.lean ====
section
/-! DEFINITION. What the arithmetic primitives compute from two usable, non-Empty operands and the control word:
the dispatch on tags (spec/41_arith_common.md R151 to R156) with the operation-specific functions of
spec/42_add_sub.md R206 to R209, spec/43_mul.md R222 to R225 and spec/44_div.md R239 to R242. -/

namespace Sys2Proof.Machine

/-- The four primitives (R150). -/
inductive ArithOp where
  | add
  | sub
  | mul
  | div
  deriving DecidableEq, Repr

/-- A computed result: the kinds of a first and of a second `signal` call, in the order of the stages of R151, then
the value to write and `roundup`. An empty set signals nothing (R345). -/
structure Computed where
  first : KindSet
  second : KindSet
  value : FpuValue
  roundup : Bool
  deriving DecidableEq, Repr

/-- Stage 1, `nan_result(A, B)`: the first NaN, quieted; IE when an operand is a signaling NaN (R152). -/
def nanResult (A B : FpuValue) : Computed :=
  { first := kindsIf (A.signaling || B.signaling) kIE
    second := 0
    value := if A.tag = .nan then A.quieted else B.quieted
    roundup := false }

/-- The sign of the right operand as the operation uses it: `bs` of 42_add_sub.md R206 for ADD and SUB. -/
def effectiveSign (op : ArithOp) (B : FpuValue) : Bool :=
  match op with
  | .sub => !B.sign
  | _ => B.sign

/-- The sign of a product or a quotient, `A.sign XOR B.sign` (43_mul.md R223, 44_div.md R240). -/
def xorSign (A B : FpuValue) : Bool := A.sign ^^ B.sign

/-- Stage 2, `invalid_op(A, B)` (R153; 42_add_sub.md R206, 43_mul.md R222, 44_div.md R239). -/
def invalidOp (op : ArithOp) (A B : FpuValue) : Bool :=
  match op with
  | .add | .sub =>
    decide (A.tag = .infinity) && decide (B.tag = .infinity) && (A.sign != effectiveSign op B)
  | .mul =>
    (decide (A.tag = .infinity) && decide (B.tag = .zero)) || (decide (A.tag = .zero) && decide (B.tag = .infinity))
  | .div =>
    (decide (A.tag = .infinity) && decide (B.tag = .infinity)) || (decide (A.tag = .zero) && decide (B.tag = .zero))

/-- The sign of an exact zero from cancellation: negative under round toward minus infinity only
(42_add_sub.md R208). -/
def cancelSign (cw : ControlWord) : Bool := decide (cw.rc = .down)

/-- Stage 4, `special_op(A, B)`: the kinds signalled and the exact result, or none where stage 5 applies
(42_add_sub.md R207, 43_mul.md R224, 44_div.md R241). -/
def specialOp (op : ArithOp) (cw : ControlWord) (A B : FpuValue) : Option (KindSet × FpuValue) :=
  match op with
  | .add | .sub =>
    if A.tag = .infinity then some (0, infOf A.sign)
    else if B.tag = .infinity then some (0, infOf (effectiveSign op B))
    else if A.tag = .zero ∧ B.tag = .zero then
      some (0, if A.sign = effectiveSign op B then zeroOf A.sign else zeroOf (cancelSign cw))
    else none
  | .mul =>
    if A.tag = .infinity ∨ B.tag = .infinity then some (0, infOf (xorSign A B))
    else if A.tag = .zero ∨ B.tag = .zero then some (0, zeroOf (xorSign A B))
    else none
  | .div =>
    if A.tag = .infinity then some (0, infOf (xorSign A B))
    else if B.tag = .infinity then some (0, zeroOf (xorSign A B))
    else if A.tag = .zero then some (0, zeroOf (xorSign A B))
    else if B.tag = .zero then some (kZE, infOf (xorSign A B))
    else none

/-- A numerator with its sign. -/
def signedNum (s : Bool) (n : Nat) : Int := if s then -(n : Int) else n

/-- Stage 5, `exact_op(A, B)`: the exact result as sign and magnitude (R160; 42_add_sub.md R209, 43_mul.md R225,
44_div.md R242). -/
def exactOp (op : ArithOp) (A B : FpuValue) : Bool × Frac :=
  let a := magOf A
  let b := magOf B
  match op with
  | .add | .sub =>
    let t := signedNum A.sign (a.num * b.den) + signedNum (effectiveSign op B) (b.num * a.den)
    (decide (t < 0), { num := t.natAbs, den := a.den * b.den })
  | .mul => (xorSign A B, { num := a.num * b.num, den := a.den * b.den })
  | .div => (xorSign A B, { num := a.num * b.den, den := a.den * b.num })

/-- Stage 3: DE when an operand has tag Denormal (R154). -/
def denormalKinds (A B : FpuValue) : KindSet :=
  kindsIf (decide (A.tag = .denormal) || decide (B.tag = .denormal)) kDE

/-- Stage 5 (R151): the exact result rounded; an exact zero of ADD and SUB is the zero of R208. -/
def computeFinite (op : ArithOp) (cw : ControlWord) (A B : FpuValue) : Computed :=
  let x := exactOp op A B
  if x.2.num = 0 then
    { first := denormalKinds A B, second := 0, value := zeroOf (cancelSign cw), roundup := false }
  else
    let r := round cw x.1 x.2
    { first := denormalKinds A B, second := r.kinds, value := r.value, roundup := r.roundup }

/-- The stages of R151 in their order, from stage 1 to stage 5. -/
def compute (op : ArithOp) (cw : ControlWord) (A B : FpuValue) : Computed :=
  if A.tag = .nan ∨ B.tag = .nan then nanResult A B
  else if invalidOp op A B then { first := kIE, second := 0, value := indef, roundup := false }
  else
    match specialOp op cw A B with
    | some (K, v) => { first := denormalKinds A B, second := K, value := v, roundup := false }
    | none => computeFinite op cw A B

end Sys2Proof.Machine
end

