-- ==== Sys2Proof/Machine/Ops.lean ====
section
/-! DEFINITION. The operations every command is built from: the ports, the register stack's reads and writes, and
raising an exception (spec/20_memory.md R72 to R75; spec/40_register_stack.md R130 to R133; spec/60_exceptions.md
R345 to R350). An operation that can end the command by `raise Fault` takes the rest of the command as its last
argument `k`, so that what follows a fault does not happen. -/

namespace Sys2Proof.Machine

/-! ### The ports -/

/-- What the block finds at its ports: nothing, the reset input, or one command. -/
inductive Fetched where
  | idle
  | hardReset (s : State)
  | command (cmd : CmdWord) (s : State)
  deriving DecidableEq, Repr

/-- A command is accepted: it leaves the queue and its operand stands on the operand port (20_memory.md R72). -/
def State.accept (s : State) (opnd : PortWord) (rest : List PortEvent) : State :=
  { s with opnd := opnd, pending := rest }

/-- Hardware reset: every piece of state of 10_state.md R56 takes its reset value, no response stands on the port,
and the port events still to come are untouched (70_reset_and_hazards.md R380). -/
def State.hardReset (rest : List PortEvent) : State := { State.reset with pending := rest }

/-- Take the oldest port event: commands take effect in the order presented (20_memory.md R79). -/
def fetch (s : State) : Fetched :=
  match s.pending with
  | [] => .idle
  | .hardReset :: rest => .hardReset (State.hardReset rest)
  | .command cmd opnd :: rest => .command cmd (s.accept opnd rest)

/-- The 2-bit code of the `status` field; 3 is never produced (20_memory.md R75). -/
def statusCode : Status → BitVec 2
  | .done => 0
  | .fault => 1
  | .illegal => 2

/-- Put a response on the response port (20_memory.md R75). -/
def respond (r : Response) (s : State) : State := { s with resp := some r }

/-- `done`: the command completes, `status = DONE`, `cc = 0` (00_scope.md R17, 20_memory.md R75). -/
def done (s : State) : State := respond { status := .done, cc := 0, fault := 0, data := 0 } s

/-- `data <- d; done`: the command completes and returns a value (20_memory.md R75). -/
def doneData (d : PortWord) (s : State) : State := respond { status := .done, cc := 0, fault := 0, data := d } s

/-- `raise Illegal`: no state change but the response, `status = ILLEGAL`, `cc = -1` (60_exceptions.md R348). -/
def raiseIllegal (s : State) : State := respond { status := .illegal, cc := 0xFF, fault := 0, data := 0 } s

/-! ### Raising an exception -/

/-- `raise Fault(U)`: taking an exception. The command ends; nothing is saved, no mode changes and control goes
nowhere (R361); the FAULT response carries the unmasked kinds `U` and `cc = -1` (R346, R347). -/
def raiseFault (U : KindSet) (s : State) : State := respond { status := .fault, cc := 0xFF, fault := U, data := 0 } s

/-- Set the sticky bit of every kind of `K` (R345, 10_state.md R49). -/
def setSticky (K : KindSet) (s : State) : State := { s with sticky := s.sticky ||| K }

/-- `signal(K)` (R345): every sticky bit of `K` is set; if some kind of `K` is unmasked the command ends by
`raise Fault` with the unmasked kinds of `K`; otherwise it goes on with `k`. -/
def signal (K : KindSet) (s : State) (k : State → State) : State :=
  if unmasked s.cw K = 0 then k (setSticky K s) else raiseFault (unmasked s.cw K) (setSticky K s)

/-- Write condition bit C1 (10_state.md R52). -/
def setC1 (b : Bool) (s : State) : State := { s with c1 := b }

/-- `stack_underflow()`: `signal({SU, IE}); SW.C1 <- 1` (R349). -/
def stackUnderflow (s : State) (k : State → State) : State := signal (kSU ||| kIE) s fun s => k (setC1 true s)

/-- `stack_overflow()`: `signal({SO, IE}); SW.C1 <- 1` (R350). -/
def stackOverflow (s : State) (k : State → State) : State := signal (kSO ||| kIE) s fun s => k (setC1 true s)

/-! ### The register stack -/

/-- `phys(i) = (top + i) mod 8`, with the value of `top` at this moment (00_scope.md R15, 10_state.md R39). -/
def State.phys (s : State) (i : RegIdx) : RegIdx := s.top + i

/-- The physical slot `x[p]` (00_scope.md R15). -/
def State.slot (s : State) (p : RegIdx) : FpuValue := s.slots[p.toNat]'p.isLt

/-- The logical register `ST[i]` (00_scope.md R15). -/
def State.st (s : State) (i : RegIdx) : FpuValue := s.slot (s.phys i)

/-- `x[p] <- v`: all four fields (00_scope.md R15). -/
def setSlot (p : RegIdx) (v : FpuValue) (s : State) : State := { s with slots := s.slots.set p.toNat v p.isLt }

/-- `x[p].tag <- Empty`: the tag field only (00_scope.md R15). -/
def emptyTag (p : RegIdx) (s : State) : State := setSlot p { s.slot p with tag := .empty } s

/-- Write the top pointer (10_state.md R39). -/
def setTop (t : RegIdx) (s : State) : State := { s with top := t }

/-- `pop()`: the slot at `top` becomes Empty, then `top` goes up by one modulo 8 (40_register_stack.md R131). -/
def popStack (s : State) : State := setTop (s.top + 1) (emptyTag s.top s)

/-- The pop of a pop variant (41_arith_common.md R176). -/
def popIf (p : Bool) (s : State) : State := if p then popStack s else s

/-- The slot a push writes, `(top - 1) mod 8` (40_register_stack.md R130). -/
def State.below (s : State) : RegIdx := s.top - 1

/-- `top <- n; x[n] <- v` with `n = (top - 1) mod 8`: the writing half of a push (40_register_stack.md R130). -/
def pushRaw (v : FpuValue) (s : State) : State := setTop s.below (setSlot s.below v s)

/-- The logical register is Empty: reading it is a stack underflow (10_state.md R40). -/
def State.isEmpty (s : State) (i : RegIdx) : Bool := decide ((s.st i).tag = .empty)

/-- The slot a push would write holds live data: pushing is a stack overflow (40_register_stack.md R130). -/
def State.full (s : State) : Bool := decide ((s.slot s.below).tag ≠ .empty)

/-- `read(i)` (40_register_stack.md R133): the value goes to `k`; an Empty register is a stack underflow whose masked
value is INDEF. -/
def readReg (i : RegIdx) (s : State) (k : FpuValue → State → State) : State :=
  if s.isEmpty i then stackUnderflow s (k indef) else k (s.st i) s

/-- `push(v)` (40_register_stack.md R130) with the rest of the command: on the masked overflow path INDEF is pushed
in the place of `v`, and the rest is `kOver` (47_constants.md R325 needs the two paths apart). -/
def push (v : FpuValue) (s : State) (k kOver : State → State) : State :=
  if s.full then stackOverflow s fun s => kOver (pushRaw indef s) else k (pushRaw v s)

/-- `store(i)` (46_stack_mgmt_aux.md R295): copy `ST(0)` to `ST(i)`, no arithmetic, destination tag not examined. -/
def store (i : RegIdx) (s : State) (k : State → State) : State :=
  readReg 0 s fun v s => k (setSlot (s.phys i) v s)

end Sys2Proof.Machine
end

