-- ==== Sys2Proof/Machine/Operands.lean ====
section
/-! DEFINITION. The operand forms: the immediate operand of the operand port (spec/20_memory.md R73, R74) and the
operand roles of an arithmetic command (spec/30_encoding.md R95). -/

namespace Sys2Proof.Machine

/-- The immediate operand, used as given with its tag (20_memory.md R73); none where R74 with
93_implementation_defined.md U1, U3 and U8 leaves the command's behaviour unspecified: a reserved tag code, fields
that disagree with the tag (the significand of an Infinity apart), or the tag Empty. -/
def State.immediate (s : State) : Option FpuValue :=
  match unpackValue s.opnd with
  | some v => if v.usable && decide (v.tag ≠ .empty) then some v else none
  | none => none

/-- A command whose second operand is the immediate: refused where R74 says that a model refuses it. -/
def withImmediate (s : State) (k : FpuValue → State) : Result :=
  match s.immediate with
  | some v => .next (k v)
  | none => .refused .illFormedImmediate

/-- The second operand `OTH`: a register (M = 0) or the immediate (M = 1) (30_encoding.md R95). -/
inductive Other where
  | reg (i : RegIdx)
  | imm (v : FpuValue)
  deriving DecidableEq, Repr

/-- The operand form of an arithmetic command: the bits `D`, `R`, `P` and the second operand (30_encoding.md R91,
R95). -/
structure Form where
  toSti : Bool
  reversed : Bool
  pops : Bool
  other : Other
  deriving DecidableEq, Repr

/-- The value of `OTH` (30_encoding.md R95). -/
def Form.oth (f : Form) (s : State) : FpuValue :=
  match f.other with
  | .reg i => s.st i
  | .imm v => v

/-- The left and the right operand, the four rows of 30_encoding.md R95. -/
def Form.operands (f : Form) (s : State) : FpuValue × FpuValue :=
  match f.toSti, f.reversed with
  | false, false => (s.st 0, f.oth s)
  | false, true => (f.oth s, s.st 0)
  | true, false => (f.oth s, s.st 0)
  | true, true => (s.st 0, f.oth s)

/-- The logical register of the destination: `ST(i)` when `D = 1`, else `ST(0)` (30_encoding.md R95). The encoding
admits no immediate with `D = 1` (R93). -/
def Form.dest (f : Form) : RegIdx :=
  match f.toSti, f.other with
  | true, .reg i => i
  | _, _ => 0

/-- Some register operand is Empty (41_arith_common.md R150). -/
def Form.anyEmpty (f : Form) (s : State) : Bool :=
  match f.other with
  | .reg i => s.isEmpty 0 || s.isEmpty i
  | .imm _ => s.isEmpty 0

end Sys2Proof.Machine
end

