-- ==== Sys2Proof/Machine/Arith.lean ====
section
/-! DEFINITION. The skeleton of every arithmetic command: operand fetch, signals, write-back, C1, pop, completion
(spec/41_arith_common.md R150, R151, R172 to R177). -/

namespace Sys2Proof.Machine

/-- Write-back and completion: `dest <- v`, the pop of a pop variant, `done` (R172, R176). C1 is written before. -/
def writeBack (d : RegIdx) (v : FpuValue) (pops : Bool) (s : State) : State :=
  done (popIf pops (setSlot (s.phys d) v s))

/-- The signals of a computed result, then `dest <- res; SW.C1 <- roundup`, the pop, `done` (R151). -/
def finishComputed (c : Computed) (d : RegIdx) (pops : Bool) (s : State) : State :=
  signal c.first s fun s => signal c.second s fun s => writeBack d c.value pops (setC1 c.roundup s)

/-- `ARITH(op)` (R150, R151). -/
def arith (op : ArithOp) (f : Form) (s : State) : State :=
  if f.anyEmpty s then stackUnderflow s (writeBack f.dest indef f.pops)
  else finishComputed (compute op s.cw (f.operands s).1 (f.operands s).2) f.dest f.pops s

/-- The form `ST,ST(i)`, reversed or not. -/
def formStSti (reversed : Bool) (i : RegIdx) : Form :=
  { toSti := false, reversed := reversed, pops := false, other := .reg i }

/-- The form `ST(i),ST`, reversed or not. -/
def formStiSt (reversed : Bool) (i : RegIdx) : Form :=
  { toSti := true, reversed := reversed, pops := false, other := .reg i }

/-- The form `#v`, reversed or not. -/
def formImm (reversed : Bool) (v : FpuValue) : Form :=
  { toSti := false, reversed := reversed, pops := false, other := .imm v }

/-- The pop variant `ST(i),ST`, reversed or not. -/
def formPop (reversed : Bool) (i : RegIdx) : Form :=
  { toSti := true, reversed := reversed, pops := true, other := .reg i }

end Sys2Proof.Machine
end

