-- ==== Sys2Proof/Machine/AddSub.lean ====
section
/-! DEFINITION. The add and subtract commands (spec/42_add_sub.md R200 to R205), each the skeleton `arith` with its operand form. -/

namespace Sys2Proof.Machine

/-- `FADD ST,ST(i)`: `ST(0) <- ST(0) + ST(i)` (R200). -/
def execFaddStSti (i : RegIdx) (s : State) : Result := .next (arith .add (formStSti false i) s)

/-- `FADD ST(i),ST`: `ST(i) <- ST(i) + ST(0)` (R200). -/
def execFaddStiSt (i : RegIdx) (s : State) : Result := .next (arith .add (formStiSt false i) s)

/-- `FADD #v`: `ST(0) <- ST(0) + v` (R200). -/
def execFaddImm (s : State) : Result := withImmediate s fun v => arith .add (formImm false v) s

/-- `FADDP ST(i),ST`: `ST(i) <- ST(i) + ST(0)`, then a pop (R201). -/
def execFaddp (i : RegIdx) (s : State) : Result := .next (arith .add (formPop false i) s)

/-- `FSUB ST,ST(i)`: `ST(0) <- ST(0) - ST(i)` (R202). -/
def execFsubStSti (i : RegIdx) (s : State) : Result := .next (arith .sub (formStSti false i) s)

/-- `FSUB ST(i),ST`: `ST(i) <- ST(i) - ST(0)` (R202). -/
def execFsubStiSt (i : RegIdx) (s : State) : Result := .next (arith .sub (formStiSt false i) s)

/-- `FSUB #v`: `ST(0) <- ST(0) - v` (R202). -/
def execFsubImm (s : State) : Result := withImmediate s fun v => arith .sub (formImm false v) s

/-- `FSUBR ST,ST(i)`: `ST(0) <- ST(i) - ST(0)` (R203). -/
def execFsubrStSti (i : RegIdx) (s : State) : Result := .next (arith .sub (formStSti true i) s)

/-- `FSUBR ST(i),ST`: `ST(i) <- ST(0) - ST(i)` (R203). -/
def execFsubrStiSt (i : RegIdx) (s : State) : Result := .next (arith .sub (formStiSt true i) s)

/-- `FSUBR #v`: `ST(0) <- v - ST(0)` (R203). -/
def execFsubrImm (s : State) : Result := withImmediate s fun v => arith .sub (formImm true v) s

/-- `FSUBP ST(i),ST`: `ST(i) <- ST(i) - ST(0)`, then a pop (R204). -/
def execFsubp (i : RegIdx) (s : State) : Result := .next (arith .sub (formPop false i) s)

/-- `FSUBRP ST(i),ST`: `ST(i) <- ST(0) - ST(i)`, then a pop (R205). -/
def execFsubrp (i : RegIdx) (s : State) : Result := .next (arith .sub (formPop true i) s)

end Sys2Proof.Machine
end

