-- ==== Sys2Proof/Machine/Div.lean ====
section
/-! DEFINITION. The divide commands (spec/44_div.md R235 to R238), each the skeleton `arith` with its operand form. -/

namespace Sys2Proof.Machine

/-- `FDIV ST,ST(i)`: `ST(0) <- ST(0) / ST(i)` (R235). -/
def execFdivStSti (i : RegIdx) (s : State) : Result := .next (arith .div (formStSti false i) s)

/-- `FDIV ST(i),ST`: `ST(i) <- ST(i) / ST(0)` (R235). -/
def execFdivStiSt (i : RegIdx) (s : State) : Result := .next (arith .div (formStiSt false i) s)

/-- `FDIV #v`: `ST(0) <- ST(0) / v` (R235). -/
def execFdivImm (s : State) : Result := withImmediate s fun v => arith .div (formImm false v) s

/-- `FDIVR ST,ST(i)`: `ST(0) <- ST(i) / ST(0)` (R236). -/
def execFdivrStSti (i : RegIdx) (s : State) : Result := .next (arith .div (formStSti true i) s)

/-- `FDIVR ST(i),ST`: `ST(i) <- ST(0) / ST(i)` (R236). -/
def execFdivrStiSt (i : RegIdx) (s : State) : Result := .next (arith .div (formStiSt true i) s)

/-- `FDIVR #v`: `ST(0) <- v / ST(0)` (R236). -/
def execFdivrImm (s : State) : Result := withImmediate s fun v => arith .div (formImm true v) s

/-- `FDIVP ST(i),ST`: `ST(i) <- ST(i) / ST(0)`, then a pop (R237). -/
def execFdivp (i : RegIdx) (s : State) : Result := .next (arith .div (formPop false i) s)

/-- `FDIVRP ST(i),ST`: `ST(i) <- ST(0) / ST(i)`, then a pop (R238). -/
def execFdivrp (i : RegIdx) (s : State) : Result := .next (arith .div (formPop true i) s)

end Sys2Proof.Machine
end

