-- ==== Sys2Proof/Machine/Log2Engine.lean ====
section
/-! DEFINITION. The base-2 logarithm engine (spec/45_log2.md R255 to R261) and its result functions `P_L2` and `P_L2P1`
(R264, R270): FREE VALUES within the accuracy the spec states (log entry 2). The steps the spec gives are written
out; the coefficients, the scalings and the truncations it does not give are opaque constants of Sys2Proof/Config.lean;
and a value outside the stated accuracy is replaced by one inside it, so that exactly the functions with the
properties of R264 and R270 are models of the two parameters. -/

namespace Sys2Proof.Machine

open Config (LogEntry)

/-- The exact rational of a fraction. -/
def Frac.toRat (m : Frac) : Rat := (m.num : Rat) / (m.den : Rat)

/-- The magnitude of a rational as a fraction. -/
def ratMag (x : Rat) : Frac := { num := x.num.natAbs, den := x.den }

/-- An argument after step 1: `x = v * 2^k` (R256). -/
structure Reduced where
  k : Int
  v : Rat
  deriving DecidableEq, Repr

/-- Step 1, range reduction (R255, R256): `x = f * 2^k0`, `1 <= f < 2`; if `f` exceeds the square root of 2 then
`v = f / 2`, `k = k0 + 1`, else `v = f`, `k = k0`. The comparison is made exactly, on the squares (log entry 5). -/
def rangeReduce (x : Rat) : Reduced :=
  let k0 := (ratMag x).ilog2
  let f := x / (2 : Rat) ^ k0
  if 2 < f * f then { k := k0 + 1, v := f / 2 } else { k := k0, v := f }

/-- The exact value of a Valid, Denormal or Zero value, `val(X)` (10_state.md R35). -/
def signedRat (X : FpuValue) : Rat := if X.sign then -(magOf X).toRat else (magOf X).toRat

/-- The control word the engine's division runs under: 64 significant bits, a rounding mode the spec leaves open
(R257, log entry 16). The masks are of no account, since the division raises no flag. -/
def engineControl : ControlWord := { mask := 0xFF, pc := .p64, rc := roundOfCode Config.l2DivisionRc }

/-- The engine's "full-precision division" (R257): the divider's exact-quotient-then-round of 44_div.md R242 at 64
significant bits. The quotient is rounded as `m * 2^e` with `1 <= m < 2`, so that a tiny one keeps its 64 bits
("the relative accuracy of a tiny `x` is kept", R271, log entry 16); where Round would not be tiny the two are one. -/
def fullDivide (a b : Rat) : Rat :=
  let x := a / b
  let e := (ratMag x).ilog2
  if x = 0 then 0
  else signedRat (round engineControl (decide (x < 0)) ((ratMag x).scale e)).value * (2 : Rat) ^ e

/-- Step 2, `Xx = (v - 1) / (v + 1)` (R257). -/
def substitution (v : Rat) : Rat := fullDivide (v - 1) (v + 1)

/-- Step 4, the nine-term polynomial in `Xsq` by Horner's scheme (R259), over the open coefficients. -/
def polynomial (xsq : Rat) : Rat := (List.finRange 9).foldr (fun j acc => Config.l2Coef j + xsq * acc) 0

/-- Steps 3 to 5 (R258 to R260) for the argument `x`: `Xx * polynomial(Xx^2) + Xx`, combined with the exponent
contribution `k`; what the spec leaves open of these steps is the residual. -/
def combine (e : LogEntry) (x : Rat) (k : Int) (xx : Rat) : Rat :=
  (k : Rat) + (xx * polynomial (xx * xx) + xx + Config.l2Residual e x)

/-- `|x| < 3 - 2*sqrt 2`, decided exactly: the threshold of the direct branch of `poly_l2p1` (R271). -/
def belowThreshold (x : Rat) : Bool := decide (|x| < 3) && decide (8 < (3 - |x|) * (3 - |x|))

/-- The unrounded result of `poly_l2` by the six steps (R256 to R260). -/
def engineL2 (x : Rat) : Rat :=
  let r := rangeReduce x
  combine .polyL2 x r.k (substitution r.v)

/-- The unrounded result of `poly_l2p1`: the direct branch, with `k = 0` and `Xx = x / (2 + x)`, below the threshold;
else range reduction of `1 + x` (R271). DESIGN CHOICE, log entry 17: the sum `1 + x` is formed exactly; R270 allows it
to be rounded to 64 bits first and R271 does not say. -/
def engineL2P1 (x : Rat) : Rat :=
  if belowThreshold x then combine .polyL2P1 x 0 (fullDivide x (2 + x))
  else
    let r := rangeReduce (1 + x)
    combine .polyL2P1 x r.k (substitution r.v)

/-- `y` approximates `log2 z` with relative error at most `2^-k`, for `z > 0`, `z ≠ 1`, decided over the naturals:
with `a / b > 1` the larger of `z` and `1 / z` and `p / q = |y|`, it says that `y` has the sign of `log2 z` and that
`(2^k - 1) q log2(a/b) <= 2^k p <= (2^k + 1) q log2(a/b)`. Its reading over the reals is
`closeToLog2_iff` (R264 L2-ACC, R270). -/
def closeToLog2 (k : Nat) (z y : Rat) : Bool :=
  let w := if 1 < z then z else z⁻¹
  let a := w.num.natAbs
  let b := w.den
  let p := y.num.natAbs
  let q := y.den
  (decide (1 < z) == decide (0 < y)) &&
    (decide (a ^ ((2 ^ k - 1) * q) ≤ 2 ^ (2 ^ k * p) * b ^ ((2 ^ k - 1) * q)) &&
      decide (2 ^ (2 ^ k * p) * b ^ ((2 ^ k + 1) * q) ≤ a ^ ((2 ^ k + 1) * q)))

/-- The comparison of powers in `closeToLog2`, over the reals. -/
theorem pow_le_iff_logb {a b E F : Nat} (ha : 0 < a) (hb : 0 < b) :
    a ^ E ≤ 2 ^ F * b ^ E ↔ (E : ℝ) * (Real.logb 2 a - Real.logb 2 b) ≤ F := by
  have ha' : (0 : ℝ) < (a : ℝ) ^ E := by positivity
  have hb' : (0 : ℝ) < 2 ^ F * (b : ℝ) ^ E := by positivity
  rw [← Nat.cast_le (α := ℝ)]
  push_cast
  rw [← Real.logb_le_logb (b := 2) (by norm_num) ha' hb', Real.logb_mul (by positivity) (by positivity),
    Real.logb_pow, Real.logb_pow, Real.logb_pow, Real.logb_self_eq_one (by norm_num)]
  constructor <;> intro h <;> linarith

/-- The other comparison of powers in `closeToLog2`, over the reals. -/
theorem le_pow_iff_logb {a b E F : Nat} (ha : 0 < a) (hb : 0 < b) :
    2 ^ F * b ^ E ≤ a ^ E ↔ (F : ℝ) ≤ (E : ℝ) * (Real.logb 2 a - Real.logb 2 b) := by
  have ha' : (0 : ℝ) < (a : ℝ) ^ E := by positivity
  have hb' : (0 : ℝ) < 2 ^ F * (b : ℝ) ^ E := by positivity
  rw [← Nat.cast_le (α := ℝ)]
  push_cast
  rw [← Real.logb_le_logb (b := 2) (by norm_num) hb' ha', Real.logb_mul (by positivity) (by positivity),
    Real.logb_pow, Real.logb_pow, Real.logb_pow, Real.logb_self_eq_one (by norm_num)]
  constructor <;> intro h <;> linarith

/-- The base-2 logarithm of a positive rational by its numerator and denominator. -/
theorem logb_rat (w : Rat) (hw : 0 < w) :
    Real.logb 2 (w : ℝ) = Real.logb 2 (w.num.natAbs : ℝ) - Real.logb 2 (w.den : ℝ) := by
  have hn : 0 < w.num := Rat.num_pos.mpr hw
  have h1 : ((w.num.natAbs : ℕ) : ℝ) = ((w.num : ℤ) : ℝ) := by
    rw [Nat.cast_natAbs, abs_of_pos hn]
  rw [h1, ← Real.logb_div (by exact_mod_cast hn.ne') (by exact_mod_cast w.den_nz)]
  congr 1
  exact_mod_cast (Rat.num_div_den w).symm

/-- What `closeToLog2` says over the reals: relative error at most `2^-k` (R264 L2-ACC). -/
theorem closeToLog2_iff (k : Nat) (hk1 : 1 ≤ k) (z y : Rat) (hz : 0 < z) (h1 : z ≠ 1) :
    closeToLog2 k z y = true ↔
      |(y : ℝ) - Real.logb 2 (z : ℝ)| ≤ 1 / 2 ^ k * |Real.logb 2 (z : ℝ)| := by
  obtain ⟨w, hwdef⟩ : ∃ w, w = if 1 < z then z else z⁻¹ := ⟨_, rfl⟩
  have hw1 : 1 < w := by
    rw [hwdef]
    split
    · assumption
    · rename_i h
      exact (one_lt_inv₀ hz).mpr (lt_of_le_of_ne (not_lt.mp h) h1)
  have hw0 : 0 < w := lt_trans one_pos hw1
  have hW : 0 < Real.logb 2 (w : ℝ) := Real.logb_pos (by norm_num) (by exact_mod_cast hw1)
  have hL : Real.logb 2 (z : ℝ) = if 1 < z then Real.logb 2 (w : ℝ) else -Real.logb 2 (w : ℝ) := by
    rw [hwdef]
    split
    · rfl
    · push_cast
      rw [Real.logb_inv, neg_neg]
  have ha : 0 < w.num.natAbs := Int.natAbs_pos.mpr (Rat.num_pos.mpr hw0).ne'
  have hk : (0 : ℝ) < 2 ^ k := by positivity
  have hq : (0 : ℝ) < (y.den : ℝ) := by exact_mod_cast y.den_pos
  have hpq : |(y : ℝ)| = (y.num.natAbs : ℝ) / (y.den : ℝ) := by
    have : (y : ℝ) = ((y.num : ℤ) : ℝ) / (y.den : ℝ) := by exact_mod_cast (Rat.num_div_den y).symm
    rw [this, abs_div, abs_of_pos hq, Nat.cast_natAbs]
    push_cast
    rfl
  have hp : (y.num.natAbs : ℝ) = |(y : ℝ)| * y.den := by rw [hpq]; field_simp
  have key1 : w.num.natAbs ^ ((2 ^ k - 1) * y.den) ≤ 2 ^ (2 ^ k * y.num.natAbs) * w.den ^ ((2 ^ k - 1) * y.den) ↔
      (1 - 1 / 2 ^ k) * Real.logb 2 (w : ℝ) ≤ |(y : ℝ)| := by
    rw [pow_le_iff_logb ha w.den_pos, ← logb_rat w hw0]
    push_cast [Nat.one_le_two_pow]
    rw [hp]
    have e1 : ((2 : ℝ) ^ k - 1) * y.den * Real.logb 2 (w : ℝ) =
        (2 ^ k * y.den) * ((1 - 1 / 2 ^ k) * Real.logb 2 (w : ℝ)) := by field_simp
    have e2 : (2 : ℝ) ^ k * (|(y : ℝ)| * y.den) = (2 ^ k * y.den) * |(y : ℝ)| := by ring
    rw [e1, e2]
    exact mul_le_mul_iff_right₀ (by positivity)
  have key2 : 2 ^ (2 ^ k * y.num.natAbs) * w.den ^ ((2 ^ k + 1) * y.den) ≤ w.num.natAbs ^ ((2 ^ k + 1) * y.den) ↔
      |(y : ℝ)| ≤ (1 + 1 / 2 ^ k) * Real.logb 2 (w : ℝ) := by
    rw [le_pow_iff_logb ha w.den_pos, ← logb_rat w hw0]
    push_cast
    rw [hp]
    have e1 : ((2 : ℝ) ^ k + 1) * y.den * Real.logb 2 (w : ℝ) =
        (2 ^ k * y.den) * ((1 + 1 / 2 ^ k) * Real.logb 2 (w : ℝ)) := by field_simp
    have e2 : (2 : ℝ) ^ k * (|(y : ℝ)| * y.den) = (2 ^ k * y.den) * |(y : ℝ)| := by ring
    rw [e1, e2]
    exact mul_le_mul_iff_right₀ (by positivity)
  have hsmall : 1 / (2 : ℝ) ^ k < 1 := by
    rw [div_lt_one hk]
    exact one_lt_pow₀ (by norm_num) (by omega)
  have hpos : 0 < 1 / (2 : ℝ) ^ k := by positivity
  simp only [closeToLog2, ← hwdef, Bool.and_eq_true, decide_eq_true_eq, key1, key2, beq_iff_eq, decide_eq_decide]
  rw [hL]
  generalize Real.logb 2 (w : ℝ) = W at hW
  generalize 1 / (2 : ℝ) ^ k = ε at hsmall hpos
  have hcast : (0 : ℝ) < (y : ℝ) ↔ 0 < y := by exact_mod_cast Iff.rfl
  by_cases hz1 : 1 < z
  · simp only [hz1, if_true, true_iff, abs_of_pos hW]
    constructor
    · rintro ⟨hy, ha1, ha2⟩
      rw [abs_of_pos (hcast.mpr hy)] at ha1 ha2
      rw [abs_le]
      constructor <;> nlinarith
    · intro h
      rw [abs_le] at h
      have hy : (0 : ℝ) < (y : ℝ) := by nlinarith
      rw [abs_of_pos hy]
      refine ⟨hcast.mp hy, ?_, ?_⟩ <;> nlinarith
  · simp only [hz1, if_false, false_iff, abs_neg, abs_of_pos hW]
    constructor
    · rintro ⟨hy, ha1, ha2⟩
      rw [abs_of_nonpos (not_lt.mp fun h => hy (hcast.mp h))] at ha1 ha2
      rw [abs_le]
      constructor <;> nlinarith
    · intro h
      rw [abs_le] at h
      have hy : (y : ℝ) < 0 := by nlinarith
      rw [abs_of_neg hy]
      refine ⟨fun h' => absurd (hcast.mpr h') (not_lt.mpr hy.le), ?_, ?_⟩ <;> nlinarith

/-- A value within the accuracy exists, by density of the rationals. -/
theorem exists_closeToLog2 (k : Nat) (hk1 : 1 ≤ k) (z : Rat) (hz : 0 < z) (h1 : z ≠ 1) :
    ∃ y : Rat, closeToLog2 k z y = true := by
  have hL : Real.logb 2 (z : ℝ) ≠ 0 := by
    rcases lt_or_gt_of_ne h1 with h | h
    · exact (Real.logb_neg (by norm_num) (by exact_mod_cast hz) (by exact_mod_cast h)).ne
    · exact (Real.logb_pos (by norm_num) (by exact_mod_cast h)).ne'
  have hp : 0 < 1 / (2 : ℝ) ^ k * |Real.logb 2 (z : ℝ)| := mul_pos (by positivity) (abs_pos.mpr hL)
  obtain ⟨y, h2, h3⟩ := exists_rat_btwn (show Real.logb 2 (z : ℝ) - 1 / (2 : ℝ) ^ k * |Real.logb 2 (z : ℝ)| <
    Real.logb 2 (z : ℝ) + 1 / (2 : ℝ) ^ k * |Real.logb 2 (z : ℝ)| by linarith)
  exact ⟨y, (closeToLog2_iff k hk1 z y hz h1).mpr (abs_le.mpr ⟨by linarith, by linarith⟩)⟩

/-- The candidate where it is within `2^-k` of the logarithm, relative; else some value that is. Outside the domain
`z > 0`, `z ≠ 1` the spec states nothing and the candidate stands. -/
def withinAccuracy (k : Nat) (hk1 : 1 ≤ k) (z cand : Rat) : Rat :=
  if h : 0 < z ∧ z ≠ 1 then
    if closeToLog2 k z cand then cand else Encodable.choose (exists_closeToLog2 k hk1 z h.1 h.2)
  else cand

/-- `P_L2`, the unrounded result of `poly_l2` (R264): relative error at most `2^-63` (L2-ACC). -/
def pL2 (x : Rat) : Rat := withinAccuracy 63 (by decide) x (engineL2 x)

/-- `P_L2P1`, the unrounded result of `poly_l2p1` (R270): relative error at most `2^-63` below the threshold
(L2P1-ACC-SMALL), at most `2^-61` at or above it (L2P1-ACC-LARGE). -/
def pL2P1 (x : Rat) : Rat :=
  if belowThreshold x then withinAccuracy 63 (by decide) (1 + x) (engineL2P1 x)
  else withinAccuracy 61 (by decide) (1 + x) (engineL2P1 x)

end Sys2Proof.Machine
end

