-- ==== Sys2Proof/Machine/Log2.lean ====
section
/-! DEFINITION. The logarithm commands FL2X and FL2XP1: argument screening, the engine's value, the final rounding
(spec/45_log2.md R262, R266, R272). -/

namespace Sys2Proof.Machine

/-- What the screening of a non-Empty argument finds: a settled result with the kinds of its two possible signals in
their order, or an ordinary argument `x` for the engine with the kinds signalled before it. -/
inductive Screened where
  | settled (first second : KindSet) (v : FpuValue)
  | ordinary (first : KindSet) (x : Rat)

/-- `m = 1`. -/
def Frac.isOne (m : Frac) : Bool := decide (m.num = m.den)

/-- `m > 1`. -/
def Frac.aboveOne (m : Frac) : Bool := decide (m.den < m.num)

/-- Test 6: DE for a Denormal argument (R262, R272). -/
def denormalArg (X : FpuValue) : KindSet := kindsIf (decide (X.tag = .denormal)) kDE

/-- FL2X, the tests 2 to 7 of R262 in their order; where test 7 is reached the argument is positive. -/
def screenL2 (X : FpuValue) : Screened :=
  if X.tag = .nan then .settled (kindsIf X.signaling kIE) 0 X.quieted
  else if X.tag = .zero then .settled kZE 0 (infOf true)
  else if X.sign then .settled kIE 0 indef
  else if X.tag = .infinity then .settled 0 0 (infOf false)
  else if (magOf X).isOne then .settled (denormalArg X) 0 (zeroOf false)
  else .ordinary (denormalArg X) (signedRat X)

/-- FL2XP1, the tests 2 to 7 of R272 in their order. -/
def screenL2P1 (X : FpuValue) : Screened :=
  if X.tag = .nan then .settled (kindsIf X.signaling kIE) 0 X.quieted
  else if X.tag = .zero then .settled 0 0 (zeroOf X.sign)
  else if X.tag = .infinity then if X.sign then .settled kIE 0 indef else .settled 0 0 (infOf false)
  else if X.sign && (magOf X).aboveOne then .settled kIE 0 indef
  else if X.sign && (magOf X).isOne then .settled (denormalArg X) kZE (infOf true)
  else .ordinary (denormalArg X) (signedRat X)

/-- Test 8: the engine's unrounded result `y`, `RoundT(sign(y), |y|)` with its signal, then the write-back in place
(R262, R266, R272). -/
def engineResult (y : Rat) (s : State) : State :=
  let r := roundT s.cw (decide (y < 0)) (ratMag y)
  finishComputed { first := 0, second := r.kinds, value := r.value, roundup := r.roundup } 0 false s

/-- A logarithm command from its screening and its engine: test 1, an Empty `ST(0)`, then the screening's signal and
the result in place (R262, R272). -/
def logCommand (screen : FpuValue → Screened) (engine : Rat → Rat) (s : State) : State :=
  if s.isEmpty 0 then stackUnderflow s (writeBack 0 indef false)
  else
    match screen (s.st 0) with
    | .settled K L v => finishComputed { first := K, second := L, value := v, roundup := false } 0 false s
    | .ordinary K x => signal K s fun s => engineResult (engine x) s

/-- `FL2X` (R262). -/
def execFl2x (s : State) : Result := .next (logCommand screenL2 pL2 s)

/-- `FL2XP1` (R272). -/
def execFl2xp1 (s : State) : Result := .next (logCommand screenL2P1 pL2P1 s)

end Sys2Proof.Machine
end

