-- ==== Sys2Proof/Machine/Mul.lean ====
section
/-! DEFINITION. The multiply commands (spec/43_mul.md R220, R221), each the skeleton `arith` with its operand form. -/

namespace Sys2Proof.Machine

/-- `FMUL ST,ST(i)`: `ST(0) <- ST(0) * ST(i)` (R220). -/
def execFmulStSti (i : RegIdx) (s : State) : Result := .next (arith .mul (formStSti false i) s)

/-- `FMUL ST(i),ST`: `ST(i) <- ST(i) * ST(0)` (R220). -/
def execFmulStiSt (i : RegIdx) (s : State) : Result := .next (arith .mul (formStiSt false i) s)

/-- `FMUL #v`: `ST(0) <- ST(0) * v` (R220). -/
def execFmulImm (s : State) : Result := withImmediate s fun v => arith .mul (formImm false v) s

/-- `FMULP ST(i),ST`: `ST(i) <- ST(i) * ST(0)`, then a pop (R221). -/
def execFmulp (i : RegIdx) (s : State) : Result := .next (arith .mul (formPop false i) s)

end Sys2Proof.Machine
end

