-- ==== Sys2Proof/Machine/Stack.lean ====
section
/-! DEFINITION. The register stack's commands FLD, POP, RDST (spec/40_register_stack.md R134 to R136) and the constant
load FLDC (spec/47_constants.md R325). -/

namespace Sys2Proof.Machine

/-- `FLD ST(i)` (R134): overflow is tested first, then underflow; either pushes INDEF. `ST(i)` is read with the old
`top`. -/
def execFldReg (i : RegIdx) (s : State) : Result :=
  .next <|
    if s.full then stackOverflow s fun s => done (pushRaw indef s)
    else if s.isEmpty i then stackUnderflow s fun s => done (pushRaw indef s)
    else done (pushRaw (s.st i) s)

/-- `FLD #v` (R134): the immediate is pushed verbatim; a push onto a full slot overflows. -/
def execFldImm (s : State) : Result := withImmediate s fun v => push v s done done

/-- `FLDC c` (47_constants.md R325): a verbatim copy of the table entry is pushed and C1 cleared; on overflow C1 stays
1. A reserved index is illegal (R321). -/
def execFldc (c : ConstIdx) (s : State) : Result :=
  .next <|
    match constTable c with
    | some v => push v s (fun s => done (setC1 false s)) done
    | none => raiseIllegal s

/-- `POP` (R135): no test, no flag. -/
def execPop (s : State) : Result := .next (done (popStack s))

/-- `RDST ST(i)` (R136): the register goes to the response; an Empty one is a stack underflow whose masked value is
INDEF. No slot changes. -/
def execRdst (i : RegIdx) (s : State) : Result := .next (readReg i s fun v s => doneData (packValue v) s)

end Sys2Proof.Machine
end

