-- ==== Sys2Proof/Machine/StackMgmt.lean ====
section
/-! DEFINITION. Stack management, status and control commands (spec/46_stack_mgmt_aux.md R290 to R297, R301 to
R303). -/

namespace Sys2Proof.Machine

/-- Every slot's tag becomes Empty; `sign`, `exp` and `sig` are not written (R290, 10_state.md R57). -/
def emptyAllTags (s : State) : State := [0, 1, 2, 3, 4, 5, 6, 7].foldl (fun s p => emptyTag p s) s

/-- `FINIT` (R290). -/
def execFinit (s : State) : Result :=
  .next <| done
    { emptyAllTags s with
      top := 0, cw := ControlWord.default, sticky := 0, c0 := false, c1 := false, c2 := false, c3 := false }

/-- `FCLEX` (R291): the eight sticky bits are cleared, nothing else. -/
def execFclex (s : State) : Result := .next (done { s with sticky := 0 })

/-- `STSW` (R301): the status word, zero-extended, goes to the response. -/
def execStsw (s : State) : Result := .next (doneData (s.statusWord.setWidth 84) s)

/-- `STCW` (R302): the control word, zero-extended, goes to the response. -/
def execStcw (s : State) : Result := .next (doneData (s.cw.toWord.setWidth 84) s)

/-- `LDCW` (R303): the control word is loaded from `opnd[15:0]`; the reserved precision code is illegal. -/
def execLdcw (s : State) : Result :=
  .next <|
    match ControlWord.ofWord (s.opnd.extractLsb' 0 16) with
    | some cw => done { s with cw := cw }
    | none => raiseIllegal s

/-- The literal exchange of two slots, all four fields of both (R292). -/
def swapSlots (a b : RegIdx) (s : State) : State := setSlot b (s.slot a) (setSlot a (s.slot b) s)

/-- `FXCH ST(i)` (R292): a literal exchange; one underflow signal if either register is Empty. -/
def execFxch (i : RegIdx) (s : State) : Result :=
  .next <|
    if s.isEmpty 0 || s.isEmpty i then stackUnderflow s fun s => done (swapSlots (s.phys 0) (s.phys i) s)
    else done (swapSlots (s.phys 0) (s.phys i) s)

/-- `FFREE ST(i)` (R293): the tag becomes Empty, `top` does not move. -/
def execFfree (i : RegIdx) (s : State) : Result := .next (done (emptyTag (s.phys i) s))

/-- `FFREEP ST(i)` (R294): the tag becomes Empty, then `pop()`. -/
def execFfreep (i : RegIdx) (s : State) : Result := .next (done (popStack (emptyTag (s.phys i) s)))

/-- `FST ST(i)` (R296): `store(i)`. -/
def execFst (i : RegIdx) (s : State) : Result := .next (store i s done)

/-- `FSTP ST(i)` (R297): `store(i)`, then `pop()`. -/
def execFstp (i : RegIdx) (s : State) : Result := .next (store i s fun s => done (popStack s))

end Sys2Proof.Machine
end

