-- ==== Sys2Proof/Machine/Dispatch.lean ====
section
/-! DEFINITION. The dispatch: one arm per command, one direct call of its meaning. -/

namespace Sys2Proof.Machine

def exec (i : Instr) (s : State) : Host.Outcome State Fault Refusal :=
  match i with
  | .finit => Sys2Proof.Machine.execFinit s
  | .fclex => Sys2Proof.Machine.execFclex s
  | .stsw => Sys2Proof.Machine.execStsw s
  | .stcw => Sys2Proof.Machine.execStcw s
  | .ldcw => Sys2Proof.Machine.execLdcw s
  | .fldReg n => Sys2Proof.Machine.execFldReg n s
  | .fldImm => Sys2Proof.Machine.execFldImm s
  | .fldc c => Sys2Proof.Machine.execFldc c s
  | .fst n => Sys2Proof.Machine.execFst n s
  | .fstp n => Sys2Proof.Machine.execFstp n s
  | .fxch n => Sys2Proof.Machine.execFxch n s
  | .ffree n => Sys2Proof.Machine.execFfree n s
  | .ffreep n => Sys2Proof.Machine.execFfreep n s
  | .pop => Sys2Proof.Machine.execPop s
  | .rdst n => Sys2Proof.Machine.execRdst n s
  | .faddStSti n => Sys2Proof.Machine.execFaddStSti n s
  | .faddStiSt n => Sys2Proof.Machine.execFaddStiSt n s
  | .faddImm => Sys2Proof.Machine.execFaddImm s
  | .faddp n => Sys2Proof.Machine.execFaddp n s
  | .fsubStSti n => Sys2Proof.Machine.execFsubStSti n s
  | .fsubStiSt n => Sys2Proof.Machine.execFsubStiSt n s
  | .fsubImm => Sys2Proof.Machine.execFsubImm s
  | .fsubrStSti n => Sys2Proof.Machine.execFsubrStSti n s
  | .fsubrStiSt n => Sys2Proof.Machine.execFsubrStiSt n s
  | .fsubrImm => Sys2Proof.Machine.execFsubrImm s
  | .fsubp n => Sys2Proof.Machine.execFsubp n s
  | .fsubrp n => Sys2Proof.Machine.execFsubrp n s
  | .fmulStSti n => Sys2Proof.Machine.execFmulStSti n s
  | .fmulStiSt n => Sys2Proof.Machine.execFmulStiSt n s
  | .fmulImm => Sys2Proof.Machine.execFmulImm s
  | .fmulp n => Sys2Proof.Machine.execFmulp n s
  | .fdivStSti n => Sys2Proof.Machine.execFdivStSti n s
  | .fdivStiSt n => Sys2Proof.Machine.execFdivStiSt n s
  | .fdivImm => Sys2Proof.Machine.execFdivImm s
  | .fdivrStSti n => Sys2Proof.Machine.execFdivrStSti n s
  | .fdivrStiSt n => Sys2Proof.Machine.execFdivrStiSt n s
  | .fdivrImm => Sys2Proof.Machine.execFdivrImm s
  | .fdivp n => Sys2Proof.Machine.execFdivp n s
  | .fdivrp n => Sys2Proof.Machine.execFdivrp n s
  | .fl2x => Sys2Proof.Machine.execFl2x s
  | .fl2xp1 => Sys2Proof.Machine.execFl2xp1 s

end Sys2Proof.Machine
end

