-- ==== Sys2Proof/Machine/Step.lean ====
section
/-! DEFINITION. One step: one command, one atomic transition (spec/00_scope.md R20). -/

namespace Sys2Proof.Machine

/-- One step (00_scope.md R20): the oldest port event is taken. A legal command word is executed; every other word
answers ILLEGAL and changes nothing (30_encoding.md R108). The reset input resets (70_reset_and_hazards.md R380). With
nothing at the ports the block holds its state (60_exceptions.md R368, log entry 1). -/
def step (s : State) : Host.Outcome State Fault Refusal :=
  match fetch s with
  | .idle => .next s
  | .hardReset s' => .next s'
  | .command w s' =>
    match decode w with
    | .ok i => exec i s'
    | .error _ => .next (raiseIllegal s')

/-- The value that `withFetchWord` puts on the operand port: the well-formed immediate +1.0 where the word says M = 1,
since such a command has no meaning without one (20_memory.md R74), else 0 (log entry 6). -/
def operandFor (w : CmdWord) : PortWord := if fieldM w then packValue (validOf 0 0x8000000000000000) else 0

/-- The state whose next step runs the command word `w` (log entry 6): the word and an operand stand first in the
queue of port events. Nothing else changes. -/
def State.withFetchWord (s : State) (nbits w : Nat) : State :=
  let cmd : CmdWord := BitVec.ofNat 16 (w % 2 ^ nbits)
  { s with pending := .command cmd (operandFor cmd) :: s.pending }

end Sys2Proof.Machine
end

