-- ==== Sys2Proof/Machine/Assembler.lean ====
section
/-! DEFINITION. The spec's assembler notation: mnemonics, operand text and pseudo-instructions
(spec/30_encoding.md R110, R111). Nothing of the machine depends on this file. -/

namespace Sys2Proof.Machine

/-- The mnemonic of a command (R96). -/
def mnemonic : Instr → String
  | .finit => "FINIT"
  | .fclex => "FCLEX"
  | .stsw => "STSW"
  | .stcw => "STCW"
  | .ldcw => "LDCW"
  | .fldReg _ | .fldImm => "FLD"
  | .fldc _ => "FLDC"
  | .fst _ => "FST"
  | .fstp _ => "FSTP"
  | .fxch _ => "FXCH"
  | .ffree _ => "FFREE"
  | .ffreep _ => "FFREEP"
  | .pop => "POP"
  | .rdst _ => "RDST"
  | .faddStSti _ | .faddStiSt _ | .faddImm => "FADD"
  | .faddp _ => "FADDP"
  | .fsubStSti _ | .fsubStiSt _ | .fsubImm => "FSUB"
  | .fsubrStSti _ | .fsubrStiSt _ | .fsubrImm => "FSUBR"
  | .fsubp _ => "FSUBP"
  | .fsubrp _ => "FSUBRP"
  | .fmulStSti _ | .fmulStiSt _ | .fmulImm => "FMUL"
  | .fmulp _ => "FMULP"
  | .fdivStSti _ | .fdivStiSt _ | .fdivImm => "FDIV"
  | .fdivrStSti _ | .fdivrStiSt _ | .fdivrImm => "FDIVR"
  | .fdivp _ => "FDIVP"
  | .fdivrp _ => "FDIVRP"
  | .fl2x => "FL2X"
  | .fl2xp1 => "FL2XP1"

/-- The text of a logical register, `ST(i)` (R110). -/
def regText (i : RegIdx) : String := "ST(" ++ toString i.toNat ++ ")"

/-- The operands of a command as R110 writes them; `#v` stands for the immediate of the operand port and `w` for
LDCW's control word. -/
def operandText : Instr → String
  | .finit | .fclex | .stsw | .stcw | .pop | .fl2x | .fl2xp1 => ""
  | .ldcw => " w"
  | .fldReg i | .fst i | .fstp i | .fxch i | .ffree i | .ffreep i | .rdst i => " " ++ regText i
  | .fldc c => " " ++ toString c.toNat
  | .fldImm | .faddImm | .fsubImm | .fsubrImm | .fmulImm | .fdivImm | .fdivrImm => " #v"
  | .faddStSti i | .fsubStSti i | .fsubrStSti i | .fmulStSti i | .fdivStSti i | .fdivrStSti i => " ST," ++ regText i
  | .faddStiSt i | .fsubStiSt i | .fsubrStiSt i | .fmulStiSt i | .fdivStiSt i | .fdivrStiSt i => " " ++ regText i ++ ",ST"
  | .faddp i | .fsubp i | .fsubrp i | .fmulp i | .fdivp i | .fdivrp i => " " ++ regText i ++ ",ST"

/-- The pseudo-instructions, each an alias for one command word (R111). -/
inductive Pseudo where
  | fld1
  | fldl2t
  | fldl2e
  | fldpi
  | fldlg2
  | fldln2
  | fldz
  | fxch
  | faddp
  | fsubp
  | fsubrp
  | fmulp
  | fdivp
  | fdivrp
  deriving DecidableEq, Repr

/-- What a pseudo-instruction expands to (R111). -/
def Pseudo.expand : Pseudo → Instr
  | .fld1 => .fldc 0
  | .fldl2t => .fldc 1
  | .fldl2e => .fldc 2
  | .fldpi => .fldc 3
  | .fldlg2 => .fldc 6
  | .fldln2 => .fldc 7
  | .fldz => .fldc 8
  | .fxch => .fxch 1
  | .faddp => .faddp 1
  | .fsubp => .fsubp 1
  | .fsubrp => .fsubrp 1
  | .fmulp => .fmulp 1
  | .fdivp => .fdivp 1
  | .fdivrp => .fdivrp 1

end Sys2Proof.Machine
end

