-- ==== Sys2Proof/Safety.lean ====
section
/-! DEFINITION. The terms claims are stated in: what a good state is, which commands raise nothing or take an
immediate, the opcode table as match and mask, and the spec's numeric rules transcribed over the rationals, against
which the model's integer arithmetic is claimed to agree. -/

namespace Sys2Proof.Machine

/-! ### Good states -/

/-- The forms with `M = 1`, which read an immediate from the operand port (20_memory.md R73). -/
def usesImmediate : Instr → Bool
  | .fldImm | .faddImm | .fsubImm | .fsubrImm | .fmulImm | .fdivImm | .fdivrImm => true
  | _ => false

/-- Every slot that is not Empty is well-formed (10_state.md R62). -/
def State.SlotsWf (s : State) : Prop := ∀ p : RegIdx, (s.slot p).wf = true

/-- Every slot that is not Empty is usable: well-formed, or an Infinity whose significand is not the canonical one,
which an immediate may be (93_implementation_defined.md U8) and FLD copies verbatim (40_register_stack.md R134). -/
def State.SlotsUsable (s : State) : Prop := ∀ p : RegIdx, (s.slot p).usable = true

/-- The proviso of 10_state.md R62 for the event that the next step takes: if it is a command with an immediate, the
immediate is well-formed. -/
def NextImmediateWf (s : State) : Prop :=
  ∀ w o rest i v, s.pending = .command w o :: rest → decode w = .ok i → usesImmediate i = true →
    unpackValue o = some v → v.wf = true

/-- Two states that agree in everything but the `sign`, `exp` and `sig` of Empty slots, which 10_state.md R40 calls
unobservable. -/
def SameButEmptyPayload (s t : State) : Prop :=
  (∀ p : RegIdx, (s.slot p).tag = (t.slot p).tag ∧ ((s.slot p).tag ≠ .empty → s.slot p = t.slot p)) ∧
    { s with slots := t.slots } = t

/-- The same of two outcomes: both next states that agree, or the same stop. -/
def SameOutcomeButEmptyPayload : Result → Result → Prop
  | .next s, .next t => SameButEmptyPayload s t
  | .fault f, .fault g => f = g
  | .refused f, .refused g => f = g
  | _, _ => False

/-! ### The responses and the outcomes of a command -/

/-- The response of a command that completes, with the value `d` it returns (20_memory.md R75). -/
def doneResponse (d : PortWord) : Response := { status := .done, cc := 0, fault := 0, data := d }

/-- The FAULT response with fault vector `U` (60_exceptions.md R347). -/
def faultResponse (U : KindSet) : Response := { status := .fault, cc := -1, fault := U, data := 0 }

/-- The ILLEGAL response (60_exceptions.md R348). -/
def illegalResponse : Response := { status := .illegal, cc := -1, fault := 0, data := 0 }

/-- Every kind of `K` is masked (10_state.md R44). -/
def AllMasked (cw : ControlWord) (K : KindSet) : Prop := K &&& ~~~cw.mask = 0

/-- The state after a `signal(K)` that faults: the sticky bits of `K` and the FAULT response with the unmasked kinds
of `K`, nothing else (60_exceptions.md R345 to R347). -/
def faulted (K : KindSet) (s : State) : State :=
  { s with sticky := s.sticky ||| K, resp := some (faultResponse (K &&& ~~~s.cw.mask)) }

/-- The registers and flags that hardware reset and FINIT leave, the table of 10_state.md R56. -/
def ResetValues (s : State) : Prop :=
  (∀ p : RegIdx, (s.slot p).tag = .empty) ∧ s.top = 0 ∧
    s.cw = { mask := 0xFF, pc := .p64, rc := .nearest } ∧ s.cw.toWord = 0x03FF ∧
    s.sticky = 0 ∧ s.es = false ∧ s.c0 = false ∧ s.c1 = false ∧ s.c2 = false ∧ s.c3 = false ∧ s.statusWord = 0

/-- Commands executed one after the other, as long as each has a next state. -/
def runCommands : List Instr → State → Result
  | [], s => .next s
  | i :: is, s =>
    match exec i s with
    | .next t => runCommands is t
    | r => r

/-! ### Groups of commands -/

/-- The commands that move `top` up when they complete: the pop variants and POP (41_arith_common.md R176,
40_register_stack.md R135, 46_stack_mgmt_aux.md R294, R297). -/
def popsStack : Instr → Bool
  | .pop | .fstp _ | .ffreep _ => true
  | .faddp _ | .fsubp _ | .fsubrp _ | .fmulp _ | .fdivp _ | .fdivrp _ => true
  | _ => false

/-- The commands that push (40_register_stack.md R134, 47_constants.md R325). -/
def pushesStack : Instr → Bool
  | .fldReg _ | .fldImm | .fldc _ => true
  | _ => false

/-- The commands that can raise nothing (60_exceptions.md R341). -/
def raisesNothing : Instr → Bool
  | .finit | .fclex | .stsw | .stcw | .ldcw | .pop | .ffree _ | .ffreep _ => true
  | _ => false

/-- The command finds an Empty register among those it reads (60_exceptions.md R341, row SU). FLD tests the slot it
pushes to first (40_register_stack.md R134). -/
def stackUnderflows (i : Instr) (s : State) : Prop :=
  match i with
  | .fldReg n => (s.slot (s.top - 1)).tag = .empty ∧ (s.st n).tag = .empty
  | .rdst n => (s.st n).tag = .empty
  | .fst _ | .fstp _ | .fl2x | .fl2xp1 => (s.st 0).tag = .empty
  | .faddImm | .fsubImm | .fsubrImm | .fmulImm | .fdivImm | .fdivrImm => (s.st 0).tag = .empty
  | .fxch n | .faddStSti n | .faddStiSt n | .faddp n => (s.st 0).tag = .empty ∨ (s.st n).tag = .empty
  | .fsubStSti n | .fsubStiSt n | .fsubrStSti n | .fsubrStiSt n => (s.st 0).tag = .empty ∨ (s.st n).tag = .empty
  | .fsubp n | .fsubrp n | .fmulStSti n | .fmulStiSt n => (s.st 0).tag = .empty ∨ (s.st n).tag = .empty
  | .fmulp n | .fdivStSti n | .fdivStiSt n | .fdivp n => (s.st 0).tag = .empty ∨ (s.st n).tag = .empty
  | .fdivrStSti n | .fdivrStiSt n | .fdivrp n => (s.st 0).tag = .empty ∨ (s.st n).tag = .empty
  | .finit | .fclex | .stsw | .stcw | .ldcw | .fldImm | .fldc _ | .ffree _ | .ffreep _ | .pop => False

/-- The command pushes onto a slot that is not Empty (60_exceptions.md R341, row SO). -/
def stackOverflows (i : Instr) (s : State) : Prop :=
  i.WellFormed ∧ pushesStack i = true ∧ (s.slot (s.top - 1)).tag ≠ .empty

/-- The kinds a command can raise, the third column of 60_exceptions.md R341 read by command, with 45_log2.md R262
(FL2X raises no UE). -/
def raisable : Instr → KindSet
  | .finit | .fclex | .stsw | .stcw | .ldcw | .pop | .ffree _ | .ffreep _ => 0
  | .fldReg _ => kSO ||| kSU ||| kIE
  | .fldImm | .fldc _ => kSO ||| kIE
  | .fst _ | .fstp _ | .fxch _ | .rdst _ => kSU ||| kIE
  | .faddStSti _ | .faddStiSt _ | .faddImm | .faddp _ => kSU ||| kIE ||| kDE ||| kOE ||| kUE ||| kPE
  | .fsubStSti _ | .fsubStiSt _ | .fsubImm | .fsubp _ => kSU ||| kIE ||| kDE ||| kOE ||| kUE ||| kPE
  | .fsubrStSti _ | .fsubrStiSt _ | .fsubrImm | .fsubrp _ => kSU ||| kIE ||| kDE ||| kOE ||| kUE ||| kPE
  | .fmulStSti _ | .fmulStiSt _ | .fmulImm | .fmulp _ => kSU ||| kIE ||| kDE ||| kOE ||| kUE ||| kPE
  | .fdivStSti _ | .fdivStiSt _ | .fdivImm | .fdivp _ => kSU ||| kIE ||| kDE ||| kZE ||| kOE ||| kUE ||| kPE
  | .fdivrStSti _ | .fdivrStiSt _ | .fdivrImm | .fdivrp _ => kSU ||| kIE ||| kDE ||| kZE ||| kOE ||| kUE ||| kPE
  | .fl2x => kSU ||| kIE ||| kDE ||| kZE ||| kPE
  | .fl2xp1 => kSU ||| kIE ||| kDE ||| kZE ||| kUE ||| kPE

/-! ### The opcode table of 30_encoding.md R96 -/

/-- One row of R96: match, mask, and the command a matching word stands for. -/
structure TableRow where
  pattern : CmdWord
  mask : CmdWord
  instr : CmdWord → Instr

/-- A row with one word. -/
def wordRow (m : CmdWord) (i : Instr) : TableRow := { pattern := m, mask := 0xFFFF, instr := fun _ => i }

/-- A row of eight words, `i` in bits 2:0. -/
def regRow (m : CmdWord) (f : RegIdx → Instr) : TableRow :=
  { pattern := m, mask := 0xFFF8, instr := fun w => f (w.extractLsb' 0 3) }

/-- The 41 rows of R96 in their order. -/
def commandTable : List TableRow :=
  [wordRow 0x0800 .finit, wordRow 0x1000 .fclex, wordRow 0x1800 .stsw, wordRow 0x2000 .stcw, wordRow 0x2800 .ldcw,
    regRow 0x4000 .fldReg, wordRow 0x4080 .fldImm,
    { pattern := 0x4800, mask := 0xFFF0, instr := fun w => .fldc (w.extractLsb' 0 4) },
    regRow 0x5000 .fst, regRow 0x5400 .fstp, regRow 0x5800 .fxch, regRow 0x6000 .ffree, regRow 0x6400 .ffreep,
    wordRow 0x6800 .pop, regRow 0x7000 .rdst] ++
  [regRow 0x8000 .faddStSti, regRow 0x8100 .faddStiSt, wordRow 0x8080 .faddImm, regRow 0x8500 .faddp,
    regRow 0x8800 .fsubStSti, regRow 0x8900 .fsubStiSt, wordRow 0x8880 .fsubImm, regRow 0x8A00 .fsubrStSti,
    regRow 0x8B00 .fsubrStiSt, wordRow 0x8A80 .fsubrImm, regRow 0x8D00 .fsubp, regRow 0x8F00 .fsubrp] ++
  [regRow 0x9000 .fmulStSti, regRow 0x9100 .fmulStiSt, wordRow 0x9080 .fmulImm, regRow 0x9500 .fmulp,
    regRow 0x9800 .fdivStSti, regRow 0x9900 .fdivStiSt, wordRow 0x9880 .fdivImm, regRow 0x9A00 .fdivrStSti,
    regRow 0x9B00 .fdivrStiSt, wordRow 0x9A80 .fdivrImm, regRow 0x9D00 .fdivp, regRow 0x9F00 .fdivrp,
    wordRow 0xC000 .fl2x, wordRow 0xC800 .fl2xp1]

/-- `w` is a word of the row: `cmd & mask = match`, and for FLDC `c <= 11` (R96). -/
def TableRow.has (r : TableRow) (w : CmdWord) : Prop := w &&& r.mask = r.pattern ∧ (r.instr w).WellFormed

/-! ### The numeric rules over the rationals -/

/-- `val(v)` of a Valid, Denormal or Zero value (10_state.md R35). -/
def valOf (v : FpuValue) : ℚ :=
  match v.tag with
  | .zero => 0
  | _ => (if v.sign then -1 else 1) * (v.sig.toNat : ℚ) * 2 ^ (v.exp.toInt - 63)

/-- A finite value: Valid, Denormal or Zero. -/
def FiniteTag (t : Tag) : Prop := t = .valid ∨ t = .denormal ∨ t = .zero

/-- `round_up(RC, s, f, rem)`, the table of 41_arith_common.md R166. -/
def ruleRoundUp (rc : RoundMode) (s : Bool) (f : ℤ) (rem : ℚ) : Bool :=
  match rc with
  | .nearest => decide (1 / 2 < rem) || (decide (rem = 1 / 2) && decide (f % 2 = 1))
  | .down => s
  | .up => !s
  | .zero => false

/-- `make(s, r)` (41_arith_common.md R170). -/
def ruleMake (s : Bool) (r : ℚ) : FpuValue :=
  if r = 0 then zeroOf s
  else if r < 2 ^ (-16382 : ℤ) then
    { sign := s, tag := .denormal, exp := BitVec.ofInt 16 (-16382), sig := BitVec.ofInt 64 ⌊r / 2 ^ (-16445 : ℤ)⌋ }
  else
    { sign := s, tag := .valid, exp := BitVec.ofInt 16 (Int.log 2 r),
      sig := BitVec.ofInt 64 ⌊r / 2 ^ (Int.log 2 r - 63)⌋ }

/-- `overflow_result(s)` (41_arith_common.md R167). -/
def ruleOverflow (cw : ControlWord) (s : Bool) : FpuValue × Bool :=
  if cw.rc = .nearest ∨ (cw.rc = .up ∧ s = false) ∨ (cw.rc = .down ∧ s = true) then (infOf s, true)
  else
    ({ sign := s, tag := .valid, exp := BitVec.ofInt 16 16383,
       sig := match cw.pc with
         | .p24 => 0xFFFFFF0000000000
         | .p53 => 0xFFFFFFFFFFFFF800
         | .p64 => 0xFFFFFFFFFFFFFFFF }, false)

/-- The exponent of the unit in the last place for an exact magnitude (41_arith_common.md R165). -/
def ruleUlp (cw : ControlWord) (m : ℚ) : ℤ := max (Int.log 2 m - cw.pc.bits + 1) (-16445)

/-- The magnitude after rounding, exponent range unbounded above, with `inexact` and `up`
(41_arith_common.md R165). -/
def ruleRounding (cw : ControlWord) (s : Bool) (m : ℚ) : ℚ × Bool × Bool :=
  let q := ruleUlp cw m
  let n := m / 2 ^ q
  let f := ⌊n⌋
  let rem := n - f
  let inexact := decide (rem ≠ 0)
  let up := inexact && ruleRoundUp cw.rc s f rem
  (((f : ℚ) + if up then 1 else 0) * 2 ^ q, inexact, up)

/-- `Round(s, m)` for an exact positive rational `m`, statement by statement from 41_arith_common.md R165. With
`always` it is `RoundT` (45_log2.md R266). -/
def ruleRound (always : Bool) (cw : ControlWord) (s : Bool) (m : ℚ) : Rounded :=
  let x := ruleRounding cw s m
  let tiny := decide (m < 2 ^ (-16382 : ℤ))
  if 2 ^ (16384 : ℤ) ≤ x.1 then
    { kinds := kOE ||| kPE, value := (ruleOverflow cw s).1, roundup := (ruleOverflow cw s).2 }
  else
    { kinds := kindsIf (tiny && (always || x.2.1 || !cw.mask.getLsbD 4)) kUE ||| kindsIf (always || x.2.1) kPE
      value := ruleMake s x.1
      roundup := x.2.2 }

/-- The rounded value of an exact non-zero rational. -/
def ruleRoundSigned (cw : ControlWord) (x : ℚ) : Rounded := ruleRound false cw (decide (x < 0)) |x|

/-- What a computing command delivers: the kinds of its first and of its second signal, the value written to the
destination, and what C1 becomes. -/
structure RuleResult where
  first : KindSet
  second : KindSet
  value : FpuValue
  c1 : Bool

/-- DE for a Denormal operand (41_arith_common.md R154). -/
def ruleDE (A B : FpuValue) : KindSet := if A.tag = .denormal ∨ B.tag = .denormal then kDE else 0

/-- An exact result: a stage-3 DE at most, no other kind, `roundup` 0. -/
def ruleExact (A B v : FpuValue) : RuleResult := { first := ruleDE A B, second := 0, value := v, c1 := false }

/-- An invalid combination: IE alone, INDEF (41_arith_common.md R153). -/
def ruleInvalid : RuleResult := { first := kIE, second := 0, value := indef, c1 := false }

/-- A rounded result after a stage-3 DE. -/
def ruleRounded (cw : ControlWord) (A B : FpuValue) (x : ℚ) : RuleResult :=
  let r := ruleRoundSigned cw x
  { first := ruleDE A B, second := r.kinds, value := r.value, c1 := r.roundup }

/-- NaN operands: the first NaN in the order A, B, quieted; IE if an operand is signaling (41_arith_common.md R152). -/
def ruleNaN (A B : FpuValue) : RuleResult :=
  let N := if A.tag = .nan then A else B
  { first :=
      if (A.tag = .nan ∧ A.sig.getLsbD 62 = false) ∨ (B.tag = .nan ∧ B.sig.getLsbD 62 = false) then kIE else 0
    second := 0
    value := { N with exp := 0x4000, sig := N.sig ||| 0x4000000000000000 }
    c1 := false }

/-- The sum `A + B'` with `B'` the right operand of sign `bs`, the table of 42_add_sub.md R210. -/
def ruleSum (cw : ControlWord) (A B : FpuValue) (bs : Bool) : RuleResult :=
  let x := valOf A + valOf { B with sign := bs }
  match A.tag, B.tag with
  | .infinity, .infinity => if A.sign = bs then ruleExact A B (infOf A.sign) else ruleInvalid
  | .infinity, _ => ruleExact A B (infOf A.sign)
  | _, .infinity => ruleExact A B (infOf bs)
  | .zero, .zero => ruleExact A B (zeroOf (if A.sign = bs then A.sign else decide (cw.rc = .down)))
  | _, _ => if x = 0 then ruleExact A B (zeroOf (decide (cw.rc = .down))) else ruleRounded cw A B x

/-- The product, the table of 43_mul.md R226. -/
def ruleProduct (cw : ControlWord) (A B : FpuValue) : RuleResult :=
  let sg := A.sign ^^ B.sign
  match A.tag, B.tag with
  | .infinity, .zero | .zero, .infinity => ruleInvalid
  | .infinity, _ | _, .infinity => ruleExact A B (infOf sg)
  | .zero, _ | _, .zero => ruleExact A B (zeroOf sg)
  | _, _ => ruleRounded cw A B (valOf A * valOf B)

/-- The quotient, the table of 44_div.md R243. -/
def ruleQuotient (cw : ControlWord) (A B : FpuValue) : RuleResult :=
  let sg := A.sign ^^ B.sign
  match A.tag, B.tag with
  | .infinity, .infinity | .zero, .zero => ruleInvalid
  | .infinity, _ => ruleExact A B (infOf sg)
  | _, .infinity => ruleExact A B (zeroOf sg)
  | .zero, _ => ruleExact A B (zeroOf sg)
  | _, .zero => { first := ruleDE A B, second := kZE, value := infOf sg, c1 := false }
  | _, _ => ruleRounded cw A B (valOf A / valOf B)

/-- What `A op B` delivers for usable non-Empty operands (41_arith_common.md R151 with the three tables). -/
def ruleArith (op : ArithOp) (cw : ControlWord) (A B : FpuValue) : RuleResult :=
  if A.tag = .nan ∨ B.tag = .nan then ruleNaN A B
  else
    match op with
    | .add => ruleSum cw A B B.sign
    | .sub => ruleSum cw A B (!B.sign)
    | .mul => ruleProduct cw A B
    | .div => ruleQuotient cw A B

/-! ### The operand roles of the arithmetic commands -/

/-- A source operand of an arithmetic command. -/
inductive Source where
  | st (i : RegIdx)
  | port
  deriving DecidableEq, Repr

/-- An arithmetic command by its effect, `dest <- left op right`, then the pop (30_encoding.md R95). -/
structure ArithRow where
  op : ArithOp
  dest : RegIdx
  left : Source
  right : Source
  pops : Bool
  deriving DecidableEq, Repr

/-- The effect of each arithmetic command in the words of its own rule (42_add_sub.md R200 to R205, 43_mul.md R220,
R221, 44_div.md R235 to R238). -/
def arithRow : Instr → Option ArithRow
  | .faddStSti i => some ⟨.add, 0, .st 0, .st i, false⟩
  | .faddStiSt i => some ⟨.add, i, .st i, .st 0, false⟩
  | .faddImm => some ⟨.add, 0, .st 0, .port, false⟩
  | .faddp i => some ⟨.add, i, .st i, .st 0, true⟩
  | .fsubStSti i => some ⟨.sub, 0, .st 0, .st i, false⟩
  | .fsubStiSt i => some ⟨.sub, i, .st i, .st 0, false⟩
  | .fsubImm => some ⟨.sub, 0, .st 0, .port, false⟩
  | .fsubrStSti i => some ⟨.sub, 0, .st i, .st 0, false⟩
  | .fsubrStiSt i => some ⟨.sub, i, .st 0, .st i, false⟩
  | .fsubrImm => some ⟨.sub, 0, .port, .st 0, false⟩
  | .fsubp i => some ⟨.sub, i, .st i, .st 0, true⟩
  | .fsubrp i => some ⟨.sub, i, .st 0, .st i, true⟩
  | .fmulStSti i => some ⟨.mul, 0, .st 0, .st i, false⟩
  | .fmulStiSt i => some ⟨.mul, i, .st i, .st 0, false⟩
  | .fmulImm => some ⟨.mul, 0, .st 0, .port, false⟩
  | .fmulp i => some ⟨.mul, i, .st i, .st 0, true⟩
  | .fdivStSti i => some ⟨.div, 0, .st 0, .st i, false⟩
  | .fdivStiSt i => some ⟨.div, i, .st i, .st 0, false⟩
  | .fdivImm => some ⟨.div, 0, .st 0, .port, false⟩
  | .fdivrStSti i => some ⟨.div, 0, .st i, .st 0, false⟩
  | .fdivrStiSt i => some ⟨.div, i, .st 0, .st i, false⟩
  | .fdivrImm => some ⟨.div, 0, .port, .st 0, false⟩
  | .fdivp i => some ⟨.div, i, .st i, .st 0, true⟩
  | .fdivrp i => some ⟨.div, i, .st 0, .st i, true⟩
  | .finit | .fclex | .stsw | .stcw | .ldcw | .fldReg _ | .fldImm | .fldc _ | .fst _ | .fstp _ | .fxch _ => none
  | .ffree _ | .ffreep _ | .pop | .rdst _ | .fl2x | .fl2xp1 => none

/-- The value of a source; none where the immediate is not usable or is Empty (20_memory.md R74). -/
def Source.value (s : State) : Source → Option FpuValue
  | .st i => some (s.st i)
  | .port => s.immediate

/-- Both operands of an arithmetic command are there, usable and not Empty: what 41_arith_common.md R151 calls "from
here on". -/
def ArithOperands (row : ArithRow) (s : State) (A B : FpuValue) : Prop :=
  row.left.value s = some A ∧ row.right.value s = some B ∧
    A.usable = true ∧ B.usable = true ∧ A.tag ≠ .empty ∧ B.tag ≠ .empty

/-- The state in which a computing command completes: the destination slot holds the value and nothing of the other
slots changes, the sticky bits of all kinds signalled are set, C1 is written, the response is DONE; then the pop of
a pop variant, which empties the tag at the old `top` (41_arith_common.md R151, R172 to R176). -/
def finishWith (R : RuleResult) (d : RegIdx) (pops : Bool) (s : State) : State :=
  let t := setSlot (s.top + d) R.value
    { s with sticky := s.sticky ||| R.first ||| R.second, c1 := R.c1, resp := some (doneResponse 0) }
  if pops then { emptyTag s.top t with top := s.top + 1 } else t

/-! ### The logarithm commands -/

/-- `RoundT(sign(y), |y|)` after a stage-6 DE (45_log2.md R262, R266, R272). -/
def ruleEngine (cw : ControlWord) (X : FpuValue) (y : ℚ) : RuleResult :=
  let r := ruleRound true cw (decide (y < 0)) |y|
  { first := ruleDE X X, second := r.kinds, value := r.value, c1 := r.roundup }

/-- FL2X, the numbered tests of 45_log2.md R262. -/
def ruleLog2 (cw : ControlWord) (X : FpuValue) : RuleResult :=
  match X.tag with
  | .empty => { first := kSU ||| kIE, second := 0, value := indef, c1 := true }
  | .nan => ruleNaN X X
  | .zero => { first := kZE, second := 0, value := infOf true, c1 := false }
  | .infinity => if X.sign then ruleInvalid else ruleExact X X (infOf false)
  | _ =>
    if X.sign then ruleInvalid
    else if valOf X = 1 then ruleExact X X (zeroOf false)
    else ruleEngine cw X (pL2 (valOf X))

/-- FL2XP1, the numbered tests of 45_log2.md R272. -/
def ruleLog2p1 (cw : ControlWord) (X : FpuValue) : RuleResult :=
  match X.tag with
  | .empty => { first := kSU ||| kIE, second := 0, value := indef, c1 := true }
  | .nan => ruleNaN X X
  | .zero => ruleExact X X (zeroOf X.sign)
  | .infinity => if X.sign then ruleInvalid else ruleExact X X (infOf false)
  | _ =>
    if valOf X < -1 then ruleInvalid
    else if valOf X = -1 then { first := ruleDE X X, second := kZE, value := infOf true, c1 := false }
    else ruleEngine cw X (pL2P1 (valOf X))

/-- What a logarithm command delivers for its argument; none for the other commands. -/
def ruleLog (i : Instr) (cw : ControlWord) (X : FpuValue) : Option RuleResult :=
  match i with
  | .fl2x => some (ruleLog2 cw X)
  | .fl2xp1 => some (ruleLog2p1 cw X)
  | _ => none

/-! ### Who writes what -/

/-- The slots a command may write, by 20_memory.md R78, 40_register_stack.md R134, R135, 41_arith_common.md R172,
46_stack_mgmt_aux.md R290 to R297 and 45_log2.md R275. -/
def mayWriteSlot (i : Instr) (s : State) (p : RegIdx) : Prop :=
  match i with
  | .finit => True
  | .fldReg _ | .fldImm | .fldc _ => p = s.top - 1
  | .fst n | .ffree n => p = s.top + n
  | .fstp n | .ffreep n | .fxch n => p = s.top + n ∨ p = s.top
  | .pop | .fl2x | .fl2xp1 => p = s.top
  | .fclex | .stsw | .stcw | .ldcw | .rdst _ => False
  | i => ∃ row, arithRow i = some row ∧ (p = s.top + row.dest ∨ (row.pops = true ∧ p = s.top))

/-- What C1 becomes when the command completes, the table of 10_state.md R52. -/
def C1AfterCompletion (i : Instr) (s t : State) : Prop :=
  (i = .finit → t.c1 = false) ∧
    (stackUnderflows i s ∨ stackOverflows i s → t.c1 = true) ∧
    (¬ stackUnderflows i s → ¬ stackOverflows i s →
      ((∃ c, i = .fldc c) → t.c1 = false) ∧
      (∀ row A B, arithRow i = some row → ArithOperands row s A B → t.c1 = (ruleArith row.op s.cw A B).c1) ∧
      (∀ R, ruleLog i s.cw (s.st 0) = some R → t.c1 = R.c1) ∧
      (i ≠ .finit → (¬ ∃ c, i = .fldc c) → arithRow i = none → ruleLog i s.cw (s.st 0) = none → t.c1 = s.c1))

end Sys2Proof.Machine
end

