-- ==== Sys2Proof/Certificates/Slice0/Obligations.lean ====
section
/-! DEFINITION. The statements for the provers, in the order of OBLIGATIONS.json. Each docstring names the rule of
spec/ that the statement formalises. In every statement about a next state the equation gives the whole state, so
what is not named is unchanged. -/

open Sys2Proof Sys2Proof.Machine

/-! ### Encoding -/

/-- 30_encoding.md R91 to R93: every legal command is what the decoder reads from its word. -/
def Obligations.DecodeOfEncode : Prop := ∀ i : Instr, i.WellFormed → decode (encode i) = .ok i

/-- 30_encoding.md R91 to R93, R108: a word that decodes is the word of the command it decodes to, so no two words are
one command, and the command is legal. -/
def Obligations.EncodeOfDecoded : Prop :=
  ∀ (w : CmdWord) (i : Instr), decode w = .ok i → encode i = w ∧ i.WellFormed

/-- 30_encoding.md R96: the 41 rows are the complete list of legal words, 227 of them, and say what each word means. -/
def Obligations.CommandTableIsComplete : Prop :=
  (∀ (w : CmdWord) (i : Instr), decode w = .ok i ↔ ∃ r ∈ commandTable, r.has w ∧ r.instr w = i) ∧
    (commandTable.filter fun r => r.mask = 0xFFFF).length = 15 ∧
    (commandTable.filter fun r => r.mask = 0xFFF0).length = 1 ∧
    (commandTable.filter fun r => r.mask = 0xFFF8).length = 25 ∧
    commandTable.length = 41 ∧
    ((List.range 65536).filter fun n => (decode (BitVec.ofNat 16 n)).isOk).length = 227

/-- 30_encoding.md R96: one word of each family, written out from the table's rows, and three illegal words. -/
def Obligations.SampleWordsDecode : Prop :=
  decode 0x0800 = .ok .finit ∧ decode 0x2800 = .ok .ldcw ∧ decode 0x4007 = .ok (.fldReg 7) ∧
    decode 0x4080 = .ok .fldImm ∧ decode 0x480B = .ok (.fldc 11) ∧ decode 0x5403 = .ok (.fstp 3) ∧
    decode 0x8102 = .ok (.faddStiSt 2) ∧ decode 0x8F01 = .ok (.fsubrp 1) ∧ decode 0x9080 = .ok .fmulImm ∧
    decode 0x9A04 = .ok (.fdivrStSti 4) ∧ decode 0xC800 = .ok .fl2xp1 ∧ decode 0x0000 = .error .reservedOpc ∧
    decode 0x480C = .error .reservedConstant ∧ decode 0x4008 = .error .indexField

/-! ### The step -/

/-- 20_memory.md R72, R79; 60_exceptions.md R368: the oldest port event is taken; a word that decodes runs its command
with its operand on the operand port; with no event the state is held (log entry 1). -/
def Obligations.StepRunsTheDecodedCommand : Prop :=
  (∀ (s : State) (w : CmdWord) (o : PortWord) (rest : List PortEvent) (i : Instr),
      s.pending = .command w o :: rest → decode w = .ok i → step s = exec i { s with opnd := o, pending := rest }) ∧
    ∀ s : State, s.pending = [] → step s = .next s

/-- 60_exceptions.md R348: a word that is no row of the table, and LDCW with the reserved precision code, answer
ILLEGAL and change no state, whatever the masks are. -/
def Obligations.IllegalWordChangesNothing : Prop :=
  ∀ (s : State) (w : CmdWord) (o : PortWord) (rest : List PortEvent), s.pending = .command w o :: rest →
    ((∀ r ∈ commandTable, ¬ r.has w) ∨ (w = 0x2800 ∧ o.extractLsb' 8 2 = 1)) →
    step s = .next { s with opnd := o, pending := rest, resp := some illegalResponse }

/-! ### Reset -/

/-- 10_state.md R56: the values after hardware reset (the state after reset, and the reset input at any state) and
after FINIT at any state. -/
def Obligations.ResetAndFinitValues : Prop :=
  ResetValues State.reset ∧
    (∀ (s : State) (rest : List PortEvent), s.pending = .hardReset :: rest → ∃ t, step s = .next t ∧ ResetValues t) ∧
    ∀ s : State, ∃ t, exec .finit s = .next t ∧ ResetValues t

/-- 46_stack_mgmt_aux.md R290: FINIT, its word, its whole effect, and that it is idempotent. -/
def Obligations.FinitEffect : Prop :=
  encode .finit = 0x0800 ∧
    ∀ s : State, ∃ t,
      exec .finit s = .next t ∧
        (∀ p : RegIdx, t.slot p = { s.slot p with tag := .empty }) ∧
        t = { s with
          slots := t.slots
          top := 0, cw := { mask := 0xFF, pc := .p64, rc := .nearest }, sticky := 0
          c0 := false, c1 := false, c2 := false, c3 := false, resp := some (doneResponse 0) } ∧
        exec .finit t = .next t ∧
        exec .stsw t = .next { t with resp := some (doneResponse 0) } ∧
        exec .stcw t = .next { t with resp := some (doneResponse 0x03FF) }

/-- 70_reset_and_hazards.md R382: from any state with the reset values STCW returns 0x03FF, STSW returns 0, and RDST
of every register answers INDEF and sets SU, IE and C1. -/
def Obligations.AfterResetEveryReadUnderflows : Prop :=
  ∀ s : State, ResetValues s →
    exec .stcw s = .next { s with resp := some (doneResponse 0x03FF) } ∧
    exec .stsw s = .next { s with resp := some (doneResponse 0) } ∧
    ∀ i : RegIdx, exec (.rdst i) s =
      .next { s with sticky := 0x41, c1 := true, resp := some (doneResponse 0xC4000C000000000000000) }

/-! ### The status word and the control word -/

/-- 46_stack_mgmt_aux.md R301 with 10_state.md R50, R53: STSW returns the status word, bit by bit as the table of
10_state.md R48 places them, the upper bits zero; ES is the OR over the unmasked sticky bits; nothing else changes. -/
def Obligations.StswReturnsStatusWord : Prop :=
  encode .stsw = 0x1800 ∧
    ∀ s : State, ∃ d : BitVec 16,
      exec .stsw s = .next { s with resp := some (doneResponse (d.setWidth 84)) } ∧
        (∀ k < 7, d.getLsbD k = s.sticky.getLsbD k) ∧
        (d.getLsbD 7 = true ↔ ∃ k < 8, s.sticky.getLsbD k = true ∧ s.cw.mask.getLsbD k = false) ∧
        d.getLsbD 8 = s.c0 ∧ d.getLsbD 9 = s.c1 ∧ d.getLsbD 10 = s.c2 ∧ d.extractLsb' 11 3 = s.top ∧
        d.getLsbD 14 = s.c3 ∧ d.getLsbD 15 = s.sticky.getLsbD 7

/-- 46_stack_mgmt_aux.md R302 with 10_state.md R42, R43, R45, R47: STCW returns the control word, its fields where
R42 places them, bits 15:12 and everything above zero; nothing else changes. -/
def Obligations.StcwReturnsControlWord : Prop :=
  encode .stcw = 0x2000 ∧
    ∀ s : State, ∃ d : BitVec 16,
      exec .stcw s = .next { s with resp := some (doneResponse (d.setWidth 84)) } ∧
        d.extractLsb' 0 8 = s.cw.mask ∧
        d.extractLsb' 8 2 = (match s.cw.pc with | .p24 => 0 | .p53 => 2 | .p64 => 3) ∧
        d.extractLsb' 10 2 = (match s.cw.rc with | .nearest => 0 | .down => 1 | .up => 2 | .zero => 3) ∧
        d.extractLsb' 12 4 = 0

/-- 46_stack_mgmt_aux.md R303 with 10_state.md R47: LDCW loads `w AND 0x0FFF` and changes nothing else; the reserved
precision code is illegal and changes nothing. -/
def Obligations.LdcwLoadsControlWord : Prop :=
  encode .ldcw = 0x2800 ∧
    ∀ (s : State) (w : BitVec 16), w = s.opnd.extractLsb' 0 16 →
      (w.extractLsb' 8 2 = 1 → exec .ldcw s = .next { s with resp := some illegalResponse }) ∧
        (w.extractLsb' 8 2 ≠ 1 → ∃ cw : ControlWord, cw.toWord = w &&& 0x0FFF ∧
          exec .ldcw s = .next { s with cw := cw, resp := some (doneResponse 0) })

/-- 46_stack_mgmt_aux.md R291: FCLEX clears the eight sticky bits and with them ES, and nothing else, also while
ES is 1. -/
def Obligations.FclexClearsStickyBits : Prop :=
  encode .fclex = 0x1000 ∧
    ∀ s : State, ∃ t, exec .fclex s = .next t ∧ t = { s with sticky := 0, resp := some (doneResponse 0) } ∧
      t.es = false

/-- 10_state.md R49: a sticky bit is cleared only by FCLEX, FINIT and hardware reset. -/
def Obligations.StickyBitsStaySet : Prop :=
  ∀ s t : State, step s = .next t →
    (∀ k, s.sticky.getLsbD k = true → t.sticky.getLsbD k = true) ∨
      ∃ rest, s.pending = .hardReset :: rest ∨ (∃ o, s.pending = .command 0x0800 o :: rest) ∨
        ∃ o, s.pending = .command 0x1000 o :: rest

/-- 10_state.md R51: C0, C2 and C3 are written only by hardware reset and FINIT, to 0; after reset they read 0 for
ever. -/
def Obligations.ConditionBitsC0C2C3 : Prop :=
  (∀ s t : State, step s = .next t →
    (t.c0 = s.c0 ∧ t.c2 = s.c2 ∧ t.c3 = s.c3) ∨
      ((t.c0 = false ∧ t.c2 = false ∧ t.c3 = false) ∧
        ∃ rest, s.pending = .hardReset :: rest ∨ ∃ o, s.pending = .command 0x0800 o :: rest)) ∧
    (State.reset.c0 = false ∧ State.reset.c2 = false ∧ State.reset.c3 = false) ∧
    ∀ s t : State, step s = .next t → s.c0 = false → s.c2 = false → s.c3 = false →
      t.c0 = false ∧ t.c2 = false ∧ t.c3 = false

/-- 10_state.md R52: what C1 becomes, for every command and every way it ends. -/
def Obligations.ConditionBitC1 : Prop :=
  ∀ (i : Instr) (s t : State) (r : Response), s.SlotsUsable → exec i s = .next t → t.resp = some r →
    (r.status ≠ .done → t.c1 = s.c1) ∧ (r.status = .done → C1AfterCompletion i s t)

/-- 10_state.md R39, R46; 41_arith_common.md R176: `top` and the control word are written by the commands those rules
name and by no other; a command that does not complete writes neither. -/
def Obligations.TopAndControlWordWriters : Prop :=
  ∀ (i : Instr) (s t : State) (r : Response), exec i s = .next t → t.resp = some r →
    (i ≠ .finit → i ≠ .ldcw → t.cw = s.cw) ∧
      (r.status ≠ .done → t.top = s.top ∧ t.cw = s.cw) ∧
      (r.status = .done →
        t.top = if i = .finit then 0 else if popsStack i then s.top + 1 else if pushesStack i then s.top - 1 else s.top)

/-! ### The register stack -/

/-- 40_register_stack.md R134: FLD, both forms. Overflow is tested first; a stack fault that is masked pushes INDEF; a
copy is verbatim; FLD ST(7) always meets a stack fault. That FLD #v also runs on an Infinity of non-canonical
significand and copies that significand is the model's reading of 93_implementation_defined.md U8, log entry 15. -/
def Obligations.FldPushes : Prop :=
  encode .fldImm = 0x4080 ∧ (∀ n : RegIdx, encode (.fldReg n) = 0x4000 + n.setWidth 16) ∧
    (∀ (n : RegIdx) (s : State),
      ((s.slot (s.top - 1)).tag ≠ .empty → exec (.fldReg n) s =
        .next (if s.cw.mask.getLsbD 7 && s.cw.mask.getLsbD 0 then
          setSlot (s.top - 1) indef
            { s with top := s.top - 1, sticky := s.sticky ||| 0x81, c1 := true, resp := some (doneResponse 0) }
        else faulted 0x81 s)) ∧
      ((s.slot (s.top - 1)).tag = .empty → (s.slot (s.top + n)).tag = .empty → exec (.fldReg n) s =
        .next (if s.cw.mask.getLsbD 6 && s.cw.mask.getLsbD 0 then
          setSlot (s.top - 1) indef
            { s with top := s.top - 1, sticky := s.sticky ||| 0x41, c1 := true, resp := some (doneResponse 0) }
        else faulted 0x41 s)) ∧
      ((s.slot (s.top - 1)).tag = .empty → (s.slot (s.top + n)).tag ≠ .empty → exec (.fldReg n) s =
        .next (setSlot (s.top - 1) (s.slot (s.top + n))
          { s with top := s.top - 1, resp := some (doneResponse 0) }))) ∧
    (∀ (s : State) (v : FpuValue), unpackValue s.opnd = some v → v.usable = true → v.tag ≠ .empty →
      ((s.slot (s.top - 1)).tag ≠ .empty → exec .fldImm s =
        .next (if s.cw.mask.getLsbD 7 && s.cw.mask.getLsbD 0 then
          setSlot (s.top - 1) indef
            { s with top := s.top - 1, sticky := s.sticky ||| 0x81, c1 := true, resp := some (doneResponse 0) }
        else faulted 0x81 s)) ∧
      ((s.slot (s.top - 1)).tag = .empty → exec .fldImm s =
        .next (setSlot (s.top - 1) v { s with top := s.top - 1, resp := some (doneResponse 0) }))) ∧
    ∀ s : State, stackOverflows (.fldReg 7) s ∨ stackUnderflows (.fldReg 7) s

/-- 47_constants.md R320: the twelve entries, as the table's packed column prints them, and no other entry (R321). -/
def Obligations.ConstantTablePatterns : Prop :=
  (List.range 16).map (fun c => (constTable (BitVec.ofNat 4 c)).map packValue) =
    [some 0x000008000000000000000, some 0x00001D49A784BCD1B8AFE, some 0x00000B8AA3B295C17F0BC,
      some 0x00001C90FDAA22168C235, some 0x00000C90FDAA22168C235, some 0x0FFFFC90FDAA22168C235,
      some 0x0FFFE9A209A84FBCFF799, some 0x0FFFFB17217F7D1CF79AC, some 0x1C0020000000000000000,
      some 0x340008000000000000000, some 0xB40008000000000000000, some 0xC4000C000000000000000,
      none, none, none, none]

/-- 47_constants.md R324: each irrational entry is the true constant to within half a unit in its last place, a
relative error of at most 2^-64; pi/2 and pi/4 share the significand of pi. -/
def Obligations.ConstantTableAccuracy : Prop :=
  (constTable 4).map (·.sig) = (constTable 3).map (·.sig) ∧ (constTable 5).map (·.sig) = (constTable 3).map (·.sig) ∧
  ∀ cr ∈ ([(1, Real.logb 2 10), (2, Real.logb 2 (Real.exp 1)), (3, Real.pi), (4, Real.pi / 2), (5, Real.pi / 4),
      (6, Real.logb 10 2), (7, Real.log 2)] : List (ConstIdx × ℝ)),
    ∃ v, constTable cr.1 = some v ∧ v.tag = .valid ∧
      |(valOf v : ℝ) - cr.2| ≤ 2 ^ (v.exp.toInt - 64) ∧ |(valOf v : ℝ) - cr.2| ≤ 1 / 2 ^ 64 * cr.2

/-- 47_constants.md R325: FLDC. The entry is pushed verbatim whatever the control word, and C1 is cleared; on a masked
overflow C1 stays 1. A reserved index is illegal. -/
def Obligations.FldcPushesConstant : Prop :=
  (∀ c : ConstIdx, encode (.fldc c) = 0x4800 + c.setWidth 16) ∧
    ∀ (c : ConstIdx) (s : State),
      (11 < c.toNat → exec (.fldc c) s = .next { s with resp := some illegalResponse }) ∧
        (c.toNat ≤ 11 → (s.slot (s.top - 1)).tag ≠ .empty → exec (.fldc c) s =
          .next (if s.cw.mask.getLsbD 7 && s.cw.mask.getLsbD 0 then
            setSlot (s.top - 1) indef
              { s with top := s.top - 1, sticky := s.sticky ||| 0x81, c1 := true, resp := some (doneResponse 0) }
          else faulted 0x81 s)) ∧
        (c.toNat ≤ 11 → (s.slot (s.top - 1)).tag = .empty → ∃ v, constTable c = some v ∧ exec (.fldc c) s =
          .next (setSlot (s.top - 1) v { s with top := s.top - 1, c1 := false, resp := some (doneResponse 0) }))

/-- 40_register_stack.md R131, R135: POP empties the tag at `top`, moves `top` up, and writes nothing else, Empty or
not; eight POPs return `top` to where it was and leave every slot Empty. -/
def Obligations.PopEffect : Prop :=
  encode .pop = 0x6800 ∧
    (∀ s : State, exec .pop s =
      .next (setSlot s.top { s.slot s.top with tag := .empty }
        { s with top := s.top + 1, resp := some (doneResponse 0) })) ∧
    ∀ s : State, ∃ t, runCommands (List.replicate 8 .pop) s = .next t ∧ t.top = s.top ∧
      ∀ p : RegIdx, t.slot p = { s.slot p with tag := .empty }

/-- 40_register_stack.md R133, R136: RDST returns the register packed; an Empty one is a stack underflow whose masked
value is INDEF. No slot and not `top` changes. -/
def Obligations.RdstReadsRegister : Prop :=
  (∀ n : RegIdx, encode (.rdst n) = 0x7000 + n.setWidth 16) ∧
    ∀ (n : RegIdx) (s : State),
      ((s.slot (s.top + n)).tag ≠ .empty →
        exec (.rdst n) s = .next { s with resp := some (doneResponse (packValue (s.slot (s.top + n)))) }) ∧
      ((s.slot (s.top + n)).tag = .empty → exec (.rdst n) s =
        .next (if s.cw.mask.getLsbD 6 && s.cw.mask.getLsbD 0 then
          { s with sticky := s.sticky ||| 0x41, c1 := true, resp := some (doneResponse 0xC4000C000000000000000) }
        else faulted 0x41 s))

/-- 40_register_stack.md R137: a push that completes and then a POP restore `top` and leave the pushed slot Empty; no
other slot changes; and after reset every read is a stack underflow. -/
def Obligations.PushThenPop : Prop :=
  (∀ (i : Instr) (s t : State), pushesStack i = true → exec i s = .next t →
    (∀ r, t.resp = some r → r.status = .done) →
    ∃ u, runCommands [i, .pop] s = .next u ∧ u.top = s.top ∧ (u.slot (s.top - 1)).tag = .empty ∧
      ∀ p, p ≠ s.top - 1 → u.slot p = s.slot p) ∧
    ∀ (s : State) (n : RegIdx), ResetValues s → ∃ t, exec (.rdst n) s = .next t ∧ t.sticky = kSU ||| kIE

/-! ### Stack management -/

/-- 46_stack_mgmt_aux.md R295 to R297: FST and FSTP copy ST(0) verbatim over whatever ST(i) held; an Empty ST(0) is a
stack underflow that stores INDEF when masked; FSTP then pops. -/
def Obligations.FstAndFstpStore : Prop :=
  (∀ n : RegIdx, encode (.fst n) = 0x5000 + n.setWidth 16 ∧ encode (.fstp n) = 0x5400 + n.setWidth 16) ∧
    ∀ (n : RegIdx) (s : State),
      ((s.slot s.top).tag ≠ .empty →
        exec (.fst n) s = .next (setSlot (s.top + n) (s.slot s.top) { s with resp := some (doneResponse 0) }) ∧
        exec (.fstp n) s =
          .next { emptyTag s.top (setSlot (s.top + n) (s.slot s.top) s) with
            top := s.top + 1, resp := some (doneResponse 0) }) ∧
      ((s.slot s.top).tag = .empty → s.cw.mask.getLsbD 6 = true → s.cw.mask.getLsbD 0 = true →
        exec (.fst n) s =
          .next (setSlot (s.top + n) indef
            { s with sticky := s.sticky ||| 0x41, c1 := true, resp := some (doneResponse 0) }) ∧
        exec (.fstp n) s =
          .next { emptyTag s.top (setSlot (s.top + n) indef s) with
            top := s.top + 1, sticky := s.sticky ||| 0x41, c1 := true, resp := some (doneResponse 0) }) ∧
      ((s.slot s.top).tag = .empty → (s.cw.mask.getLsbD 6 = false ∨ s.cw.mask.getLsbD 0 = false) →
        exec (.fst n) s = .next (faulted 0x41 s) ∧ exec (.fstp n) s = .next (faulted 0x41 s))

/-- 46_stack_mgmt_aux.md R292: FXCH exchanges all four fields of the two registers; an Empty one among them is one
stack underflow, and when that is masked the exchange is done all the same. -/
def Obligations.FxchExchanges : Prop :=
  (∀ n : RegIdx, encode (.fxch n) = 0x5800 + n.setWidth 16) ∧
    (∀ (n : RegIdx) (s : State),
      ((s.slot s.top).tag ≠ .empty → (s.slot (s.top + n)).tag ≠ .empty → exec (.fxch n) s =
        .next (setSlot (s.top + n) (s.slot s.top)
          (setSlot s.top (s.slot (s.top + n)) { s with resp := some (doneResponse 0) }))) ∧
      (((s.slot s.top).tag = .empty ∨ (s.slot (s.top + n)).tag = .empty) → exec (.fxch n) s =
        .next (if s.cw.mask.getLsbD 6 && s.cw.mask.getLsbD 0 then
          setSlot (s.top + n) (s.slot s.top) (setSlot s.top (s.slot (s.top + n))
            { s with sticky := s.sticky ||| 0x41, c1 := true, resp := some (doneResponse 0) })
        else faulted 0x41 s))) ∧
    ∀ (n : RegIdx) (s : State), (s.slot s.top).tag ≠ .empty → (s.slot (s.top + n)).tag ≠ .empty →
      runCommands [.fxch n, .fxch n] s = .next { s with resp := some (doneResponse 0) }

/-- 46_stack_mgmt_aux.md R293, R294: FFREE empties the tag of ST(i) and nothing else; FFREEP then pops, and FFREEP
ST(0) has the effect of POP. -/
def Obligations.FfreeAndFfreepEffect : Prop :=
  (∀ n : RegIdx, encode (.ffree n) = 0x6000 + n.setWidth 16 ∧ encode (.ffreep n) = 0x6400 + n.setWidth 16) ∧
    (∀ (n : RegIdx) (s : State),
      exec (.ffree n) s = .next (setSlot (s.top + n) { s.slot (s.top + n) with tag := .empty }
        { s with resp := some (doneResponse 0) }) ∧
      ∃ t, exec (.ffreep n) s = .next t ∧
        t = { s with slots := t.slots, top := s.top + 1, resp := some (doneResponse 0) } ∧
        ∀ p : RegIdx, t.slot p =
          if p = s.top + n ∨ p = s.top then { s.slot p with tag := .empty } else s.slot p) ∧
    ∀ s : State, exec (.ffreep 0) s = exec .pop s

/-! ### Arithmetic -/

/-- 42_add_sub.md R210 (with R200 to R205, R208, R209): every add and subtract command, on operands that are there and
with the kinds it raises masked, completes with the result, flags and C1 of the table over exact rationals. -/
def Obligations.AddAndSubtractComplete : Prop :=
  ∀ (i : Instr) (row : ArithRow) (s : State) (A B : FpuValue),
    arithRow i = some row → (row.op = .add ∨ row.op = .sub) → ArithOperands row s A B →
    AllMasked s.cw ((ruleArith row.op s.cw A B).first ||| (ruleArith row.op s.cw A B).second) →
    exec i s = .next (finishWith (ruleArith row.op s.cw A B) row.dest row.pops s)

/-- 43_mul.md R226 (with R220, R221, R225): the same of every multiply command. -/
def Obligations.MultiplyCompletes : Prop :=
  ∀ (i : Instr) (row : ArithRow) (s : State) (A B : FpuValue),
    arithRow i = some row → row.op = .mul → ArithOperands row s A B →
    AllMasked s.cw ((ruleArith row.op s.cw A B).first ||| (ruleArith row.op s.cw A B).second) →
    exec i s = .next (finishWith (ruleArith row.op s.cw A B) row.dest row.pops s)

/-- 44_div.md R243 (with R235 to R238, R242): the same of every divide command. -/
def Obligations.DivideCompletes : Prop :=
  ∀ (i : Instr) (row : ArithRow) (s : State) (A B : FpuValue),
    arithRow i = some row → row.op = .div → ArithOperands row s A B →
    AllMasked s.cw ((ruleArith row.op s.cw A B).first ||| (ruleArith row.op s.cw A B).second) →
    exec i s = .next (finishWith (ruleArith row.op s.cw A B) row.dest row.pops s)

/-- 41_arith_common.md R177 with R151: the first signal with an unmasked kind ends an arithmetic command; the sticky
bits of an earlier masked signal stay set and nothing else changes. -/
def Obligations.ArithmeticFaults : Prop :=
  ∀ (i : Instr) (row : ArithRow) (s : State) (A B : FpuValue),
    arithRow i = some row → ArithOperands row s A B →
    (¬ AllMasked s.cw (ruleArith row.op s.cw A B).first →
      exec i s = .next (faulted (ruleArith row.op s.cw A B).first s)) ∧
    (AllMasked s.cw (ruleArith row.op s.cw A B).first → ¬ AllMasked s.cw (ruleArith row.op s.cw A B).second →
      exec i s = .next (faulted (ruleArith row.op s.cw A B).second
        { s with sticky := s.sticky ||| (ruleArith row.op s.cw A B).first }))

/-- 41_arith_common.md R150: an Empty register operand is one stack underflow; masked, the destination receives INDEF,
C1 is 1 and a pop variant pops. -/
def Obligations.ArithmeticStackUnderflow : Prop :=
  ∀ (i : Instr) (row : ArithRow) (s : State), arithRow i = some row →
    (usesImmediate i = true → ∃ v, s.immediate = some v) → stackUnderflows i s →
    (AllMasked s.cw 0x41 → exec i s =
      .next (finishWith { first := 0x41, second := 0, value := indef, c1 := true } row.dest row.pops s)) ∧
    (¬ AllMasked s.cw 0x41 → exec i s = .next (faulted 0x41 s))

/-- 41_arith_common.md R178 (1) to (6): the order of the exceptions of a primitive: a first signal of IE alone or of DE,
then ZE alone or one of the sets of Round, and none after IE. -/
def Obligations.ExceptionOrder : Prop :=
  ∀ (op : ArithOp) (cw : ControlWord) (A B : FpuValue),
    (compute op cw A B).first ∈ [0, kIE, kDE] ∧
      (compute op cw A B).second ∈ [0, kZE, kOE ||| kPE, kUE ||| kPE, kUE, kPE] ∧
      ((compute op cw A B).first = kIE → (compute op cw A B).second = 0) ∧
      ((compute op cw A B).second = kZE → op = .div)

/-- 42_add_sub.md R211: without NaN operands SUB is ADD with the sign of B flipped and ADD is commutative; a finite
value less itself is the exact zero of R208; FSUBR is FSUB with the roles exchanged. -/
def Obligations.AddSubtractLaws : Prop :=
  (∀ (cw : ControlWord) (A B : FpuValue), A.tag ≠ .nan → B.tag ≠ .nan →
      compute .sub cw A B = compute .add cw A { B with sign := !B.sign } ∧
      compute .add cw A B = compute .add cw B A) ∧
    (∀ (cw : ControlWord) (A : FpuValue), A.tag = .valid ∨ A.tag = .denormal →
      (compute .add cw A { A with sign := !A.sign }).value = zeroOf (decide (cw.rc = .down)) ∧
      (compute .sub cw A A).value = zeroOf (decide (cw.rc = .down)) ∧
      (compute .sub cw A A).second = 0 ∧ (compute .sub cw A A).roundup = false) ∧
    ∀ (n : RegIdx) (s : State), (s.st 0).tag ≠ .empty → (s.st n).tag ≠ .empty →
      exec (.fsubrStSti n) s =
        .next (finishComputed (compute .sub s.cw (s.st n) (s.st 0)) 0 false s) ∧
      exec (.fsubStSti n) s =
        .next (finishComputed (compute .sub s.cw (s.st 0) (s.st n)) 0 false s)

/-- 43_mul.md R223, 44_div.md R240: every product and quotient that is not a NaN has the exclusive or of the signs,
zeros and infinities included. -/
def Obligations.ProductAndQuotientSign : Prop :=
  ∀ (op : ArithOp) (cw : ControlWord) (A B : FpuValue), op = .mul ∨ op = .div →
    A.usable = true → B.usable = true → A.tag ≠ .empty → B.tag ≠ .empty →
    (compute op cw A B).value.tag ≠ .nan → (compute op cw A B).value.sign = (A.sign ^^ B.sign)

/-- 43_mul.md R227: MUL is commutative without NaN operands; a product of two Valid operands overflows only if the
exponents add up to 16382 or more, and is tiny only if they add up to -16383 or less. -/
def Obligations.MultiplyLaws : Prop :=
  (∀ (cw : ControlWord) (A B : FpuValue), A.tag ≠ .nan → B.tag ≠ .nan →
      compute .mul cw A B = compute .mul cw B A) ∧
    ∀ (cw : ControlWord) (A B : FpuValue), A.wf = true → B.wf = true → A.tag = .valid → B.tag = .valid →
      ((compute .mul cw A B).value.sign = (A.sign ^^ B.sign)) ∧
      ((compute .mul cw A B).second.getLsbD 3 = true → 16382 ≤ A.exp.toInt + B.exp.toInt) ∧
      (|valOf A * valOf B| < 2 ^ (-16382 : ℤ) → A.exp.toInt + B.exp.toInt ≤ -16383)

/-- 44_div.md R244: two Valid operands of equal significand divide to the exact power of two, if in range; division
by 1.0 is Round of the dividend; ZE and a rounding exception never occur together; FDIVR is FDIV with the roles
exchanged. -/
def Obligations.DivideLaws : Prop :=
  (∀ (cw : ControlWord) (A B : FpuValue), A.wf = true → B.wf = true → A.tag = .valid → B.tag = .valid →
      A.sig = B.sig → -16382 ≤ A.exp.toInt - B.exp.toInt → A.exp.toInt - B.exp.toInt ≤ 16383 →
      compute .div cw A B =
        { first := 0, second := 0, roundup := false
          value := { sign := A.sign ^^ B.sign, tag := .valid, exp := A.exp - B.exp, sig := 0x8000000000000000 } }) ∧
    (∀ (cw : ControlWord) (A : FpuValue), A.wf = true → A.tag = .valid →
      (compute .div cw A (validOf 0 0x8000000000000000)).value = (ruleRoundSigned cw (valOf A)).value ∧
      (compute .div cw A (validOf 0 0x8000000000000000)).second = (ruleRoundSigned cw (valOf A)).kinds) ∧
    (∀ (cw : ControlWord) (A B : FpuValue), (compute .div cw A B).second.getLsbD 2 = true →
      (compute .div cw A B).second = kZE) ∧
    ∀ (n : RegIdx) (s : State), (s.st 0).tag ≠ .empty → (s.st n).tag ≠ .empty →
      exec (.fdivrStSti n) s =
        .next (finishComputed (compute .div s.cw (s.st n) (s.st 0)) 0 false s) ∧
      exec (.fdivStSti n) s =
        .next (finishComputed (compute .div s.cw (s.st 0) (s.st n)) 0 false s)

/-! ### Rounding -/

/-- 41_arith_common.md R165 to R167, R170; 45_log2.md R266: the integer arithmetic of the rounding function is the
rational one of the rules, for every magnitude, control word and sign. -/
def Obligations.RoundRefinesTheRule : Prop :=
  ∀ (cw : ControlWord) (s : Bool) (m : Frac), 0 < m.num → 0 < m.den →
    round cw s m = ruleRound false cw s m.toRat ∧ roundT cw s m = ruleRound true cw s m.toRat

/-- 41_arith_common.md R171: the result of Round is well-formed and has the sign given; a representable magnitude is
delivered exactly with no flag but UE when that is unmasked and the value tiny; roundup implies PE. -/
def Obligations.RoundResultWellFormed : Prop :=
  ∀ (cw : ControlWord) (s : Bool) (m : Frac), 0 < m.num → 0 < m.den →
    (round cw s m).value.wf = true ∧ (round cw s m).value.sign = s ∧
      ((round cw s m).roundup = true → (round cw s m).kinds.getLsbD 5 = true) ∧
      ((∃ n : ℤ, m.toRat = n * 2 ^ ruleUlp cw m.toRat) → m.toRat < 2 ^ (16384 : ℤ) →
        |valOf (round cw s m).value| = m.toRat ∧ (round cw s m).roundup = false ∧
          (round cw s m).kinds = if m.toRat < 2 ^ (-16382 : ℤ) ∧ cw.mask.getLsbD 4 = false then kUE else 0)

/-- 41_arith_common.md R165, R166, R171: where the result is finite, round to nearest errs by at most half a unit of
the grid and the other modes by less than one unit, each to its own side. -/
def Obligations.RoundDirection : Prop :=
  ∀ (cw : ControlWord) (s : Bool) (m : Frac), 0 < m.num → 0 < m.den → (round cw s m).kinds.getLsbD 3 = false →
    let v := valOf (round cw s m).value
    let x := if s then -m.toRat else m.toRat
    let ulp : ℚ := 2 ^ ruleUlp cw m.toRat
    match cw.rc with
    | .nearest => |v - x| ≤ ulp / 2
    | .down => v ≤ x ∧ x < v + ulp
    | .up => x ≤ v ∧ v < x + ulp
    | .zero => |v| ≤ m.toRat ∧ m.toRat < |v| + ulp

/-! ### Values -/

/-- 10_state.md R31, R32: the 84-bit layout holds every value, each tag by its code, and a word with tag code 6 or 7, and no other, is no
value. -/
def Obligations.PackedValueRoundTrip : Prop :=
  (∀ v : FpuValue, unpackValue (packValue v) = some v ∧
      (packValue v).getLsbD 83 = v.sign ∧ (packValue v).extractLsb' 64 16 = v.exp ∧
      (packValue v).extractLsb' 0 64 = v.sig ∧
      (packValue v).extractLsb' 80 3 = (match v.tag with
        | .valid => 0 | .zero => 1 | .denormal => 2 | .infinity => 3 | .nan => 4 | .empty => 5)) ∧
    (∀ (w : PortWord) (v : FpuValue), unpackValue w = some v → packValue v = w) ∧
    ∀ w : PortWord, unpackValue w = none ↔ w.extractLsb' 80 3 = 6 ∨ w.extractLsb' 80 3 = 7

/-- 10_state.md R35: the range of a Valid value and the grid of the Denormal ones. -/
def Obligations.ValueRanges : Prop :=
  (∀ v : FpuValue, v.wf = true → v.tag = .valid →
      (2 : ℚ) ^ v.exp.toInt ≤ |valOf v| ∧ |valOf v| < 2 ^ (v.exp.toInt + 1) ∧
      2 ^ (-16382 : ℤ) ≤ |valOf v| ∧ |valOf v| ≤ (2 - 2 ^ (-63 : ℤ)) * 2 ^ (16383 : ℤ)) ∧
    (∀ v : FpuValue, v.tag = .zero → valOf v = 0) ∧
    ∀ v : FpuValue, v.wf = true → v.tag = .denormal →
      ∃ k : ℕ, 1 ≤ k ∧ k < 2 ^ 63 ∧ |valOf v| = k * 2 ^ (-16445 : ℤ)

/-! ### The logarithm engine -/

/-- 45_log2.md R264: L2-SIGN and L2-ACC of `P_L2`, over the reals (log entry 2: the function's values are free; the
statement holds of every value of the open parameters). -/
def Obligations.PolyL2Accuracy : Prop :=
  ∀ x : ℚ, 0 < x → x ≠ 1 →
    (1 < x → 0 < pL2 x) ∧ (x < 1 → pL2 x < 0) ∧
      |(pL2 x : ℝ) - Real.logb 2 x| ≤ 2 ^ (-63 : ℤ) * |Real.logb 2 x|

/-- 45_log2.md R270: L2P1-SIGN, L2P1-ACC-SMALL and L2P1-ACC-LARGE of `P_L2P1` (log entry 2). -/
def Obligations.PolyL2P1Accuracy : Prop :=
  ∀ x : ℚ, -1 < x → x ≠ 0 →
    (0 < x → 0 < pL2P1 x) ∧ (x < 0 → pL2P1 x < 0) ∧
      (|(x : ℝ)| < 3 - 2 * Real.sqrt 2 →
        |(pL2P1 x : ℝ) - Real.logb 2 (1 + x)| ≤ 2 ^ (-63 : ℤ) * |Real.logb 2 (1 + x)|) ∧
      (3 - 2 * Real.sqrt 2 ≤ |(x : ℝ)| →
        |(pL2P1 x : ℝ) - Real.logb 2 (1 + x)| ≤ 2 ^ (-61 : ℤ) * |Real.logb 2 (1 + x)|)

/-- 45_log2.md R256, R257, R260: range reduction writes `x` as `v * 2^k` with `|log2 v| <= 1/2`; the exact quotient
`(v - 1)/(v + 1)` is small and invertible; `Xx` is that quotient on the grid of 64 significant bits, wrong by less than
a unit and of its sign; and for `k` not 0 the result has the sign of `k`. The comparison with the square root of 2 is
made exactly, the model's choice (log entry 5); in which direction the division rounds is open (log entry 16). -/
def Obligations.RangeReduction : Prop :=
  ∀ x : ℚ, 0 < x →
    let r := rangeReduce x
    let q := (r.v - 1) / (r.v + 1)
    let xx := substitution r.v
    x = r.v * 2 ^ r.k ∧ |Real.logb 2 r.v| ≤ 1 / 2 ∧
      ((r.k = Int.log 2 x ∧ 1 ≤ r.v ∧ (r.v : ℝ) ≤ Real.sqrt 2) ∨
        (r.k = Int.log 2 x + 1 ∧ Real.sqrt 2 / 2 < r.v ∧ r.v < 1)) ∧
      Real.logb 2 x = r.k + Real.logb 2 r.v ∧
      |(q : ℝ)| ≤ 3 - 2 * Real.sqrt 2 ∧ (1 + q) / (1 - q) = r.v ∧
      (q = 0 → xx = 0) ∧
      (q ≠ 0 → (0 < xx ↔ 0 < q) ∧ (∃ n : ℤ, xx = n * 2 ^ (Int.log 2 |q| - 63)) ∧
        |xx - q| < 2 ^ (Int.log 2 |q| - 63)) ∧
      (0 < r.k → 0 < pL2 x) ∧ (r.k < 0 → pL2 x < 0)

/-- 45_log2.md R262, R272: FL2X and FL2XP1 on any usable or Empty argument, with the kinds they raise masked,
complete with the result, flags and C1 of the numbered tests. -/
def Obligations.LogarithmCompletes : Prop :=
  encode .fl2x = 0xC000 ∧ encode .fl2xp1 = 0xC800 ∧
    ∀ (i : Instr) (s : State) (R : RuleResult), ruleLog i s.cw (s.st 0) = some R → (s.st 0).usable = true →
      AllMasked s.cw (R.first ||| R.second) → exec i s = .next (finishWith R 0 false s)

/-- 45_log2.md R262, R272: an unmasked kind ends FL2X and FL2XP1, ST(0) and C1 unchanged. -/
def Obligations.LogarithmFaults : Prop :=
  ∀ (i : Instr) (s : State) (R : RuleResult), ruleLog i s.cw (s.st 0) = some R → (s.st 0).usable = true →
    (¬ AllMasked s.cw R.first → exec i s = .next (faulted R.first s)) ∧
    (AllMasked s.cw R.first → ¬ AllMasked s.cw R.second →
      exec i s = .next (faulted R.second { s with sticky := s.sticky ||| R.first }))

/-- 45_log2.md R275: what can be said of FL2X and FL2XP1 without knowing the engine's values. -/
def Obligations.LogarithmProperties : Prop :=
  (∀ (i : Instr) (s t : State) (r : Response), i = .fl2x ∨ i = .fl2xp1 → exec i s = .next t → t.resp = some r →
      t.top = s.top ∧ (∀ p, p ≠ s.top → t.slot p = s.slot p) ∧ t.cw = s.cw ∧ t.c0 = s.c0 ∧ t.c2 = s.c2 ∧
      t.c3 = s.c3 ∧ (r.status ≠ .done → t = { s with sticky := t.sticky, resp := t.resp })) ∧
    (∀ s t : State, (s.st 0).wf = true → FiniteTag (s.st 0).tag → 0 < valOf (s.st 0) → valOf (s.st 0) ≠ 1 →
      exec .fl2x s = .next t → t.sticky.getLsbD 5 = true ∨ (s.st 0).tag = .denormal ∧ s.cw.mask.getLsbD 1 = false) ∧
    (∀ s t : State, (s.st 0).wf = true → FiniteTag (s.st 0).tag → 0 < valOf (s.st 0) → valOf (s.st 0) ≠ 1 →
      exec .fl2x s = .next t → t.resp = some (doneResponse 0) →
        (t.st 0).tag = .valid ∧ (t.st 0).wf = true ∧ ((t.st 0).sign = true ↔ valOf (s.st 0) < 1) ∧
        |valOf (t.st 0)| < 16446) ∧
    (∀ s : State, s.st 0 = validOf 0 0x8000000000000000 →
      exec .fl2x s = .next (setSlot s.top (zeroOf false) { s with c1 := false, resp := some (doneResponse 0) })) ∧
    ∀ s : State, (s.st 0).tag = .zero →
      exec .fl2xp1 s =
        .next (setSlot s.top (zeroOf (s.st 0).sign) { s with c1 := false, resp := some (doneResponse 0) })

/-! ### Exceptions -/

/-- 60_exceptions.md R349, R350: a stack fault sets its two sticky bits in every command that can meet one; masked,
the command completes with C1 = 1; unmasked, nothing but the sticky bits changes. -/
def Obligations.StackFaultPaths : Prop :=
  ∀ (i : Instr) (s : State), (usesImmediate i = true → ∃ v, s.immediate = some v) →
    ∀ K, (stackOverflows i s ∧ K = (0x81 : KindSet)) ∨ (stackUnderflows i s ∧ K = (0x41 : KindSet)) →
      (¬ AllMasked s.cw K → exec i s = .next (faulted K s)) ∧
      (AllMasked s.cw K → ∃ t d, exec i s = .next t ∧ t.resp = some (doneResponse d) ∧
        t.sticky = s.sticky ||| K ∧ t.c1 = true)

/-- 60_exceptions.md R346, R347; 41_arith_common.md R177: after a FAULT nothing but sticky bits has changed; the fault
vector is not empty and holds only unmasked kinds whose sticky bits are set; ES is 1. -/
def Obligations.FaultChangesOnlyStickyBits : Prop :=
  ∀ (i : Instr) (s t : State) (r : Response), exec i s = .next t → t.resp = some r → r.status = .fault →
    t = { s with sticky := t.sticky, resp := t.resp } ∧ s.sticky &&& ~~~t.sticky = 0 ∧ t.es = true ∧
      r = faultResponse r.fault ∧ r.fault ≠ 0 ∧ r.fault &&& s.cw.mask = 0 ∧ r.fault &&& ~~~t.sticky = 0

/-- 20_memory.md R75; 41_arith_common.md R175: every command answers with one response; its status code is 0, 1 or 2;
the completion code is 0 exactly when the command completed and -1 otherwise; the fault vector is 0 in every response
but FAULT; only RDST, STSW and STCW return data, and what they return. -/
def Obligations.ResponseFields : Prop :=
  ∀ (i : Instr) (s t : State), exec i s = .next t → ∃ r, t.resp = some r ∧ statusCode r.status ≠ 3 ∧
    (statusCode r.status = 0 → r.cc = 0) ∧ (statusCode r.status ≠ 0 → r.cc = -1 ∧ r.data = 0) ∧
    (r.fault ≠ 0 ↔ statusCode r.status = 1) ∧
    (r.data ≠ 0 → i = .stsw ∨ i = .stcw ∨ ∃ n, i = .rdst n) ∧
    (i = .stsw → r.data = s.statusWord.setWidth 84) ∧ (i = .stcw → r.data = s.cw.toWord.setWidth 84) ∧
    (∀ n, i = .rdst n → statusCode r.status = 0 →
      r.data = packValue (if (s.st n).tag = .empty then indef else s.st n)) ∧
    (statusCode r.status = 2 → i = .ldcw ∨ ¬ i.WellFormed)

/-- 60_exceptions.md R341: the kinds a command can raise; and the commands that raise nothing never fault. -/
def Obligations.RaisedKindsByCommand : Prop :=
  (∀ (i : Instr) (s t : State), s.SlotsUsable → exec i s = .next t →
      t.sticky &&& ~~~(s.sticky ||| raisable i) = 0) ∧
    ∀ (i : Instr) (s : State), raisesNothing i = true → ∃ t r, exec i s = .next t ∧ t.resp = some r ∧ r.status ≠ .fault

/-- 10_state.md R44, 60_exceptions.md R351, R363: with every kind masked each legal command but LDCW completes; so a
command that faulted completes when it is issued again with the masks set. -/
def Obligations.MaskedCommandsComplete : Prop :=
  (∀ (i : Instr) (s : State), i.WellFormed → i ≠ .ldcw → s.cw.mask = 0xFF →
      (usesImmediate i = true → ∃ v, s.immediate = some v) →
      ∃ t d, exec i s = .next t ∧ t.resp = some (doneResponse d)) ∧
    ∀ (i : Instr) (s t : State) (r : Response), exec i s = .next t → t.resp = some r → r.status = .fault →
      ∃ u d, exec i { t with cw := { t.cw with mask := 0xFF } } = .next u ∧ u.resp = some (doneResponse d)

/-- 60_exceptions.md R362: the sticky bits, and with them ES, do not change what a command does. -/
def Obligations.EsDoesNotGateExecution : Prop :=
  ∀ (i : Instr) (s t : State) (K : KindSet), i ≠ .stsw → exec i s = .next t →
    ∃ N : KindSet, (t.sticky = s.sticky ||| N ∧ exec i { s with sticky := K } = .next { t with sticky := K ||| N }) ∨
      ((i = .fclex ∨ i = .finit) ∧ exec i { s with sticky := K } = .next t)

/-! ### Immediates and totality -/

/-- 00_scope.md R20, 20_memory.md R74, 93_implementation_defined.md U1, U3, U8: every command has a next state, but for
an immediate form whose operand has a reserved tag code, is ill-formed (the significand of an Infinity apart) or is
Empty, which the model refuses (log entries 4, 15); none stops the machine with a fault. -/
def Obligations.EveryCommandHasANextState : Prop :=
  ∀ (i : Instr) (s : State),
    (¬ (usesImmediate i = true ∧ s.immediate = none) → ∃ t, exec i s = .next t) ∧
    (usesImmediate i = true → s.immediate = none → exec i s = .refused .illFormedImmediate) ∧
    (s.immediate = none ↔
      (s.opnd.extractLsb' 80 3 = 6 ∨ s.opnd.extractLsb' 80 3 = 7 ∨
        ∃ v, unpackValue s.opnd = some v ∧
          (v.tag = .empty ∨ (v.wf = false ∧ ¬ (v.tag = .infinity ∧ v.exp = 0x4000)))))

/-- 20_memory.md R73: only the immediate forms and LDCW read the operand port, LDCW its bits 15:0 alone. -/
def Obligations.OperandPortReaders : Prop :=
  ∀ (i : Instr) (s t : State) (o : PortWord), exec i s = .next t →
    ((usesImmediate i = false ∧ i ≠ .ldcw) ∨ (i = .ldcw ∧ o.extractLsb' 0 16 = s.opnd.extractLsb' 0 16)) →
    exec i { s with opnd := o } = .next { t with opnd := o }

/-! ### The machine -/

/-- 41_arith_common.md R172, 20_memory.md R78: no command writes a slot it does not address, and those that write the
tag alone keep the rest of the slot. -/
def Obligations.SlotFrame : Prop :=
  ∀ (i : Instr) (s t : State), exec i s = .next t →
    (∀ p, ¬ mayWriteSlot i s p → t.slot p = s.slot p) ∧
    (i = .finit ∨ i = .pop ∨ (∃ n, i = .ffree n ∨ i = .ffreep n) →
      ∀ p, { t.slot p with tag := (s.slot p).tag } = s.slot p)

/-- 10_state.md R62: after reset every slot that is not Empty is well-formed, so usable. Reset has it. -/
def Obligations.ResetSlotsWellFormed : Prop :=
  (State.reset.SlotsWf ∧ ∀ rest, (State.hardReset rest).SlotsWf) ∧
    State.reset.SlotsUsable ∧ ∀ rest, (State.hardReset rest).SlotsUsable

/-- 10_state.md R62: every step keeps every slot that is not Empty well-formed, provided the immediate the step takes, if
it takes one, is well-formed; and without that proviso every step keeps every such slot usable, that is well-formed or
an Infinity of exponent 16384 (93_implementation_defined.md U8, log entry 15). -/
def Obligations.SlotsStayWellFormed : Prop :=
  (∀ s t : State, s.SlotsWf → NextImmediateWf s → step s = .next t → t.SlotsWf) ∧
    ∀ s t : State, s.SlotsUsable → step s = .next t → t.SlotsUsable

/-- 10_state.md R40: two states that differ only in the payload of Empty slots answer every step alike and stay so: the
payload of an Empty slot cannot be observed. -/
def Obligations.EmptyPayloadUnobservable : Prop :=
  ∀ s t : State, SameButEmptyPayload s t → SameOutcomeButEmptyPayload (step s) (step t)
end

