-- ==== Sys2Proof/Laws/State.lean ====
section
/-! SUPPORT. One lemma per field of State for each record update of the model, true by rfl, and what a read of a slot
gives after a write. -/

namespace Sys2Proof.Machine

variable (s : State)

/-! ### accept -/

@[simp] theorem accept_slots (o : PortWord) (rest : List PortEvent) : (s.accept o rest).slots = s.slots := rfl
@[simp] theorem accept_top (o : PortWord) (rest : List PortEvent) : (s.accept o rest).top = s.top := rfl
@[simp] theorem accept_cw (o : PortWord) (rest : List PortEvent) : (s.accept o rest).cw = s.cw := rfl
@[simp] theorem accept_sticky (o : PortWord) (rest : List PortEvent) : (s.accept o rest).sticky = s.sticky := rfl
@[simp] theorem accept_c0 (o : PortWord) (rest : List PortEvent) : (s.accept o rest).c0 = s.c0 := rfl
@[simp] theorem accept_c1 (o : PortWord) (rest : List PortEvent) : (s.accept o rest).c1 = s.c1 := rfl
@[simp] theorem accept_c2 (o : PortWord) (rest : List PortEvent) : (s.accept o rest).c2 = s.c2 := rfl
@[simp] theorem accept_c3 (o : PortWord) (rest : List PortEvent) : (s.accept o rest).c3 = s.c3 := rfl
@[simp] theorem accept_opnd (o : PortWord) (rest : List PortEvent) : (s.accept o rest).opnd = o := rfl
@[simp] theorem accept_pending (o : PortWord) (rest : List PortEvent) : (s.accept o rest).pending = rest := rfl
@[simp] theorem accept_resp (o : PortWord) (rest : List PortEvent) : (s.accept o rest).resp = s.resp := rfl

/-! ### respond -/

@[simp] theorem respond_slots (r : Response) : (respond r s).slots = s.slots := rfl
@[simp] theorem respond_top (r : Response) : (respond r s).top = s.top := rfl
@[simp] theorem respond_cw (r : Response) : (respond r s).cw = s.cw := rfl
@[simp] theorem respond_sticky (r : Response) : (respond r s).sticky = s.sticky := rfl
@[simp] theorem respond_c0 (r : Response) : (respond r s).c0 = s.c0 := rfl
@[simp] theorem respond_c1 (r : Response) : (respond r s).c1 = s.c1 := rfl
@[simp] theorem respond_c2 (r : Response) : (respond r s).c2 = s.c2 := rfl
@[simp] theorem respond_c3 (r : Response) : (respond r s).c3 = s.c3 := rfl
@[simp] theorem respond_opnd (r : Response) : (respond r s).opnd = s.opnd := rfl
@[simp] theorem respond_pending (r : Response) : (respond r s).pending = s.pending := rfl
@[simp] theorem respond_resp (r : Response) : (respond r s).resp = some r := rfl

/-! ### setSticky -/

@[simp] theorem setSticky_slots (K : KindSet) : (setSticky K s).slots = s.slots := rfl
@[simp] theorem setSticky_top (K : KindSet) : (setSticky K s).top = s.top := rfl
@[simp] theorem setSticky_cw (K : KindSet) : (setSticky K s).cw = s.cw := rfl
@[simp] theorem setSticky_sticky (K : KindSet) : (setSticky K s).sticky = s.sticky ||| K := rfl
@[simp] theorem setSticky_c0 (K : KindSet) : (setSticky K s).c0 = s.c0 := rfl
@[simp] theorem setSticky_c1 (K : KindSet) : (setSticky K s).c1 = s.c1 := rfl
@[simp] theorem setSticky_c2 (K : KindSet) : (setSticky K s).c2 = s.c2 := rfl
@[simp] theorem setSticky_c3 (K : KindSet) : (setSticky K s).c3 = s.c3 := rfl
@[simp] theorem setSticky_opnd (K : KindSet) : (setSticky K s).opnd = s.opnd := rfl
@[simp] theorem setSticky_pending (K : KindSet) : (setSticky K s).pending = s.pending := rfl
@[simp] theorem setSticky_resp (K : KindSet) : (setSticky K s).resp = s.resp := rfl

/-! ### setC1 -/

@[simp] theorem setC1_slots (b : Bool) : (setC1 b s).slots = s.slots := rfl
@[simp] theorem setC1_top (b : Bool) : (setC1 b s).top = s.top := rfl
@[simp] theorem setC1_cw (b : Bool) : (setC1 b s).cw = s.cw := rfl
@[simp] theorem setC1_sticky (b : Bool) : (setC1 b s).sticky = s.sticky := rfl
@[simp] theorem setC1_c0 (b : Bool) : (setC1 b s).c0 = s.c0 := rfl
@[simp] theorem setC1_c1 (b : Bool) : (setC1 b s).c1 = b := rfl
@[simp] theorem setC1_c2 (b : Bool) : (setC1 b s).c2 = s.c2 := rfl
@[simp] theorem setC1_c3 (b : Bool) : (setC1 b s).c3 = s.c3 := rfl
@[simp] theorem setC1_opnd (b : Bool) : (setC1 b s).opnd = s.opnd := rfl
@[simp] theorem setC1_pending (b : Bool) : (setC1 b s).pending = s.pending := rfl
@[simp] theorem setC1_resp (b : Bool) : (setC1 b s).resp = s.resp := rfl

/-! ### setTop -/

@[simp] theorem setTop_slots (t : RegIdx) : (setTop t s).slots = s.slots := rfl
@[simp] theorem setTop_top (t : RegIdx) : (setTop t s).top = t := rfl
@[simp] theorem setTop_cw (t : RegIdx) : (setTop t s).cw = s.cw := rfl
@[simp] theorem setTop_sticky (t : RegIdx) : (setTop t s).sticky = s.sticky := rfl
@[simp] theorem setTop_c0 (t : RegIdx) : (setTop t s).c0 = s.c0 := rfl
@[simp] theorem setTop_c1 (t : RegIdx) : (setTop t s).c1 = s.c1 := rfl
@[simp] theorem setTop_c2 (t : RegIdx) : (setTop t s).c2 = s.c2 := rfl
@[simp] theorem setTop_c3 (t : RegIdx) : (setTop t s).c3 = s.c3 := rfl
@[simp] theorem setTop_opnd (t : RegIdx) : (setTop t s).opnd = s.opnd := rfl
@[simp] theorem setTop_pending (t : RegIdx) : (setTop t s).pending = s.pending := rfl
@[simp] theorem setTop_resp (t : RegIdx) : (setTop t s).resp = s.resp := rfl

/-! ### setSlot -/

@[simp] theorem setSlot_slots (p : RegIdx) (v : FpuValue) : (setSlot p v s).slots = s.slots.set p.toNat v p.isLt := rfl
@[simp] theorem setSlot_top (p : RegIdx) (v : FpuValue) : (setSlot p v s).top = s.top := rfl
@[simp] theorem setSlot_cw (p : RegIdx) (v : FpuValue) : (setSlot p v s).cw = s.cw := rfl
@[simp] theorem setSlot_sticky (p : RegIdx) (v : FpuValue) : (setSlot p v s).sticky = s.sticky := rfl
@[simp] theorem setSlot_c0 (p : RegIdx) (v : FpuValue) : (setSlot p v s).c0 = s.c0 := rfl
@[simp] theorem setSlot_c1 (p : RegIdx) (v : FpuValue) : (setSlot p v s).c1 = s.c1 := rfl
@[simp] theorem setSlot_c2 (p : RegIdx) (v : FpuValue) : (setSlot p v s).c2 = s.c2 := rfl
@[simp] theorem setSlot_c3 (p : RegIdx) (v : FpuValue) : (setSlot p v s).c3 = s.c3 := rfl
@[simp] theorem setSlot_opnd (p : RegIdx) (v : FpuValue) : (setSlot p v s).opnd = s.opnd := rfl
@[simp] theorem setSlot_pending (p : RegIdx) (v : FpuValue) : (setSlot p v s).pending = s.pending := rfl
@[simp] theorem setSlot_resp (p : RegIdx) (v : FpuValue) : (setSlot p v s).resp = s.resp := rfl

/-! ### swapSlots -/

@[simp] theorem swapSlots_top (a b : RegIdx) : (swapSlots a b s).top = s.top := rfl
@[simp] theorem swapSlots_cw (a b : RegIdx) : (swapSlots a b s).cw = s.cw := rfl
@[simp] theorem swapSlots_sticky (a b : RegIdx) : (swapSlots a b s).sticky = s.sticky := rfl
@[simp] theorem swapSlots_c0 (a b : RegIdx) : (swapSlots a b s).c0 = s.c0 := rfl
@[simp] theorem swapSlots_c1 (a b : RegIdx) : (swapSlots a b s).c1 = s.c1 := rfl
@[simp] theorem swapSlots_c2 (a b : RegIdx) : (swapSlots a b s).c2 = s.c2 := rfl
@[simp] theorem swapSlots_c3 (a b : RegIdx) : (swapSlots a b s).c3 = s.c3 := rfl
@[simp] theorem swapSlots_opnd (a b : RegIdx) : (swapSlots a b s).opnd = s.opnd := rfl
@[simp] theorem swapSlots_pending (a b : RegIdx) : (swapSlots a b s).pending = s.pending := rfl
@[simp] theorem swapSlots_resp (a b : RegIdx) : (swapSlots a b s).resp = s.resp := rfl

/-! ### emptyTag -/

@[simp] theorem emptyTag_top (p : RegIdx) : (emptyTag p s).top = s.top := rfl
@[simp] theorem emptyTag_cw (p : RegIdx) : (emptyTag p s).cw = s.cw := rfl
@[simp] theorem emptyTag_sticky (p : RegIdx) : (emptyTag p s).sticky = s.sticky := rfl
@[simp] theorem emptyTag_c0 (p : RegIdx) : (emptyTag p s).c0 = s.c0 := rfl
@[simp] theorem emptyTag_c1 (p : RegIdx) : (emptyTag p s).c1 = s.c1 := rfl
@[simp] theorem emptyTag_c2 (p : RegIdx) : (emptyTag p s).c2 = s.c2 := rfl
@[simp] theorem emptyTag_c3 (p : RegIdx) : (emptyTag p s).c3 = s.c3 := rfl
@[simp] theorem emptyTag_opnd (p : RegIdx) : (emptyTag p s).opnd = s.opnd := rfl
@[simp] theorem emptyTag_pending (p : RegIdx) : (emptyTag p s).pending = s.pending := rfl
@[simp] theorem emptyTag_resp (p : RegIdx) : (emptyTag p s).resp = s.resp := rfl

/-! ### emptyAllTags -/

@[simp] theorem emptyAllTags_top : (emptyAllTags s).top = s.top := rfl
@[simp] theorem emptyAllTags_cw : (emptyAllTags s).cw = s.cw := rfl
@[simp] theorem emptyAllTags_sticky : (emptyAllTags s).sticky = s.sticky := rfl
@[simp] theorem emptyAllTags_c0 : (emptyAllTags s).c0 = s.c0 := rfl
@[simp] theorem emptyAllTags_c1 : (emptyAllTags s).c1 = s.c1 := rfl
@[simp] theorem emptyAllTags_c2 : (emptyAllTags s).c2 = s.c2 := rfl
@[simp] theorem emptyAllTags_c3 : (emptyAllTags s).c3 = s.c3 := rfl
@[simp] theorem emptyAllTags_opnd : (emptyAllTags s).opnd = s.opnd := rfl
@[simp] theorem emptyAllTags_pending : (emptyAllTags s).pending = s.pending := rfl
@[simp] theorem emptyAllTags_resp : (emptyAllTags s).resp = s.resp := rfl

/-! ### pushRaw -/

@[simp] theorem pushRaw_top (v : FpuValue) : (pushRaw v s).top = s.top - 1 := rfl
@[simp] theorem pushRaw_cw (v : FpuValue) : (pushRaw v s).cw = s.cw := rfl
@[simp] theorem pushRaw_sticky (v : FpuValue) : (pushRaw v s).sticky = s.sticky := rfl
@[simp] theorem pushRaw_c0 (v : FpuValue) : (pushRaw v s).c0 = s.c0 := rfl
@[simp] theorem pushRaw_c1 (v : FpuValue) : (pushRaw v s).c1 = s.c1 := rfl
@[simp] theorem pushRaw_c2 (v : FpuValue) : (pushRaw v s).c2 = s.c2 := rfl
@[simp] theorem pushRaw_c3 (v : FpuValue) : (pushRaw v s).c3 = s.c3 := rfl
@[simp] theorem pushRaw_opnd (v : FpuValue) : (pushRaw v s).opnd = s.opnd := rfl
@[simp] theorem pushRaw_pending (v : FpuValue) : (pushRaw v s).pending = s.pending := rfl
@[simp] theorem pushRaw_resp (v : FpuValue) : (pushRaw v s).resp = s.resp := rfl

/-! ### popStack -/

@[simp] theorem popStack_top : (popStack s).top = s.top + 1 := rfl
@[simp] theorem popStack_cw : (popStack s).cw = s.cw := rfl
@[simp] theorem popStack_sticky : (popStack s).sticky = s.sticky := rfl
@[simp] theorem popStack_c0 : (popStack s).c0 = s.c0 := rfl
@[simp] theorem popStack_c1 : (popStack s).c1 = s.c1 := rfl
@[simp] theorem popStack_c2 : (popStack s).c2 = s.c2 := rfl
@[simp] theorem popStack_c3 : (popStack s).c3 = s.c3 := rfl
@[simp] theorem popStack_opnd : (popStack s).opnd = s.opnd := rfl
@[simp] theorem popStack_pending : (popStack s).pending = s.pending := rfl
@[simp] theorem popStack_resp : (popStack s).resp = s.resp := rfl

/-! ### Reading a slot after an update -/

@[simp] theorem slot_setSlot_self (p : RegIdx) (v : FpuValue) : (setSlot p v s).slot p = v := by
  simp [State.slot, setSlot]

theorem slot_setSlot_ne {p q : RegIdx} (v : FpuValue) (h : q ≠ p) : (setSlot p v s).slot q = s.slot q := by
  have h' : p.toNat ≠ q.toNat := fun e => h (BitVec.eq_of_toNat_eq e.symm)
  simp [State.slot, setSlot, h']

theorem slot_setSlot (p q : RegIdx) (v : FpuValue) :
    (setSlot p v s).slot q = if q = p then v else s.slot q := by
  split
  · subst_vars; simp
  · exact slot_setSlot_ne s v ‹_›

/-- Two states with the same slots read the same. -/
theorem slot_congr {s t : State} (h : s.slots = t.slots) (p : RegIdx) : s.slot p = t.slot p := by
  simp only [State.slot, h]

/-- States whose slots read the same have the same slots. -/
theorem slots_ext {s t : State} (h : ∀ p, s.slot p = t.slot p) : s.slots = t.slots := by
  ext1 i hi
  have key := h (BitVec.ofNat 3 i)
  simpa [State.slot, Nat.mod_eq_of_lt hi] using key

@[simp] theorem slot_accept (o : PortWord) (rest : List PortEvent) (p : RegIdx) : (s.accept o rest).slot p = s.slot p := rfl
@[simp] theorem slot_respond (r : Response) (p : RegIdx) : (respond r s).slot p = s.slot p := rfl
@[simp] theorem slot_setSticky (K : KindSet) (p : RegIdx) : (setSticky K s).slot p = s.slot p := rfl
@[simp] theorem slot_setC1 (b : Bool) (p : RegIdx) : (setC1 b s).slot p = s.slot p := rfl
@[simp] theorem slot_setTop (t p : RegIdx) : (setTop t s).slot p = s.slot p := rfl

theorem slot_emptyTag (p q : RegIdx) :
    (emptyTag p s).slot q = if q = p then { s.slot p with tag := .empty } else s.slot q := slot_setSlot s p q _

theorem slot_popStack (q : RegIdx) :
    (popStack s).slot q = if q = s.top then { s.slot s.top with tag := .empty } else s.slot q := slot_emptyTag s s.top q

theorem slot_pushRaw (v : FpuValue) (q : RegIdx) :
    (pushRaw v s).slot q = if q = s.top - 1 then v else s.slot q := slot_setSlot s (s.top - 1) q v

theorem slot_emptyAllTags (q : RegIdx) : (emptyAllTags s).slot q = { s.slot q with tag := .empty } := by
  have hq : ∀ q : RegIdx, q = 0 ∨ q = 1 ∨ q = 2 ∨ q = 3 ∨ q = 4 ∨ q = 5 ∨ q = 6 ∨ q = 7 := by decide
  rcases hq q with rfl | rfl | rfl | rfl | rfl | rfl | rfl | rfl <;>
    simp [emptyAllTags, List.foldl, slot_emptyTag]

theorem slot_swapSlots (a b q : RegIdx) :
    (swapSlots a b s).slot q = if q = b then s.slot a else if q = a then s.slot b else s.slot q := by
  simp only [swapSlots, slot_setSlot]

@[simp] theorem slot_reset (p : RegIdx) : State.reset.slot p = emptySlot := by
  simp [State.slot, State.reset]

@[simp] theorem slot_hardReset (rest : List PortEvent) (p : RegIdx) : (State.hardReset rest).slot p = emptySlot :=
  slot_reset p

end Sys2Proof.Machine
end

