-- ==== Sys2Proof/Laws/Ops.lean ====
section
/-! SUPPORT. For each shared operation of the machine, what it can do, said once: later proofs cite these lemmas and
do not unfold the operation. -/

namespace Sys2Proof.Machine

variable (s : State)

/-! ### Masks -/

@[simp] theorem unmasked_zero (cw : ControlWord) : unmasked cw 0 = 0 := by simp [unmasked]

/-- No kind of `K` is unmasked exactly when the mask covers `K`. -/
theorem unmasked_eq_zero_iff (cw : ControlWord) (K : KindSet) :
    unmasked cw K = 0 ↔ ∀ k < 8, K.getLsbD k = true → cw.mask.getLsbD k = true := by
  unfold unmasked
  constructor
  · intro h k hk hK
    have := congrArg (fun v => v.getLsbD k) h
    simpa [hK, hk] using this
  · intro h
    ext k hk
    have := h k hk
    simp only [BitVec.getLsbD_eq_getElem hk] at this
    simp only [BitVec.getElem_and, BitVec.getElem_not]
    cases hK : K[k] <;> simp_all

theorem unmasked_or_eq_zero_iff (cw : ControlWord) (K L : KindSet) :
    unmasked cw (K ||| L) = 0 ↔ unmasked cw K = 0 ∧ unmasked cw L = 0 := by
  simp only [unmasked_eq_zero_iff, BitVec.getLsbD_or, Bool.or_eq_true]
  exact ⟨fun h => ⟨fun k hk hK => h k hk (.inl hK), fun k hk hL => h k hk (.inr hL)⟩,
    fun h k hk hKL => hKL.elim (h.1 k hk) (h.2 k hk)⟩

/-- What is unmasked of `K` is part of `K`. -/
theorem unmasked_le (cw : ControlWord) (K : KindSet) : unmasked cw K &&& ~~~K = 0 := by
  ext k hk
  simp only [unmasked, BitVec.getElem_and, BitVec.getElem_not]
  cases K[k] <;> simp

/-- What is unmasked is not masked. -/
theorem unmasked_and_mask (cw : ControlWord) (K : KindSet) : unmasked cw K &&& cw.mask = 0 := by
  ext k hk
  simp [unmasked]

/-- With every kind masked nothing is unmasked. -/
theorem unmasked_of_mask_all {cw : ControlWord} (h : cw.mask = 0xFF) (K : KindSet) : unmasked cw K = 0 := by
  simp [unmasked, h]

/-- A stack overflow is masked when SO and IE both are. -/
theorem unmasked_stackOverflow_iff (cw : ControlWord) :
    unmasked cw (kSO ||| kIE) = 0 ↔ (cw.mask.getLsbD 7 && cw.mask.getLsbD 0) = true := by
  have key : ∀ m : KindSet, (kSO ||| kIE) &&& ~~~m = 0 ↔ (m.getLsbD 7 && m.getLsbD 0) = true := by decide
  exact key cw.mask

/-- A stack underflow is masked when SU and IE both are. -/
theorem unmasked_stackUnderflow_iff (cw : ControlWord) :
    unmasked cw (kSU ||| kIE) = 0 ↔ (cw.mask.getLsbD 6 && cw.mask.getLsbD 0) = true := by
  have key : ∀ m : KindSet, (kSU ||| kIE) &&& ~~~m = 0 ↔ (m.getLsbD 6 && m.getLsbD 0) = true := by decide
  exact key cw.mask

/-! ### Ports -/

theorem fetch_nil (h : s.pending = []) : fetch s = .idle := by simp [fetch, h]

theorem fetch_hardReset {rest : List PortEvent} (h : s.pending = .hardReset :: rest) :
    fetch s = .hardReset (State.hardReset rest) := by simp [fetch, h]

theorem fetch_command {w : CmdWord} {o : PortWord} {rest : List PortEvent} (h : s.pending = .command w o :: rest) :
    fetch s = .command w (s.accept o rest) := by simp [fetch, h]

/-- All that fetching can do. -/
theorem fetch_cases :
    (s.pending = [] ∧ fetch s = .idle) ∨
      (∃ rest, s.pending = .hardReset :: rest ∧ fetch s = .hardReset (State.hardReset rest)) ∨
      ∃ w o rest, s.pending = .command w o :: rest ∧ fetch s = .command w (s.accept o rest) := by
  rcases h : s.pending with _ | ⟨_ | _, rest⟩
  · exact .inl ⟨rfl, fetch_nil s h⟩
  · exact .inr (.inr ⟨_, _, _, rfl, fetch_command s h⟩)
  · exact .inr (.inl ⟨_, rfl, fetch_hardReset s h⟩)

/-- A command that takes an immediate runs on it, or is refused where there is none. -/
theorem withImmediate_some {v : FpuValue} (h : s.immediate = some v) (k : FpuValue → State) :
    withImmediate s k = .next (k v) := by simp [withImmediate, h]

theorem withImmediate_none (h : s.immediate = none) (k : FpuValue → State) :
    withImmediate s k = .refused .illFormedImmediate := by simp [withImmediate, h]

/-- An immediate that is used is the operand port's value, usable and not Empty. -/
theorem immediate_eq_some_iff (v : FpuValue) :
    s.immediate = some v ↔ unpackValue s.opnd = some v ∧ v.usable = true ∧ v.tag ≠ .empty := by
  unfold State.immediate
  cases h : unpackValue s.opnd with
  | none => simp
  | some u =>
    by_cases hu : u.usable = true ∧ u.tag ≠ .empty
    · simp only [hu.1, hu.2, ne_eq, not_false_eq_true, decide_true, Bool.and_true, if_true, Option.some.injEq]
      exact ⟨fun e => ⟨e, e ▸ hu⟩, fun e => e.1⟩
    · have : ¬ (u.usable && decide (u.tag ≠ .empty)) = true := by simpa using hu
      simp only [this, Option.some.injEq]
      exact ⟨fun e => by simp at e, fun e => absurd (e.1 ▸ e.2) hu⟩

/-! ### Signals -/

@[simp] theorem setSticky_zero : setSticky 0 s = s := by simp [setSticky]

theorem signal_of_masked {K : KindSet} (h : unmasked s.cw K = 0) (k : State → State) :
    signal K s k = k (setSticky K s) := if_pos h

theorem signal_of_unmasked {K : KindSet} (h : unmasked s.cw K ≠ 0) (k : State → State) :
    signal K s k = raiseFault (unmasked s.cw K) (setSticky K s) := if_neg h

/-- Signalling the empty set does nothing. -/
@[simp] theorem signal_zero (k : State → State) : signal 0 s k = k s :=
  (signal_of_masked s (unmasked_zero s.cw) k).trans (congrArg k (setSticky_zero s))

/-- All that `signal` can do. -/
theorem signal_cases (K : KindSet) (k : State → State) :
    (unmasked s.cw K = 0 ∧ signal K s k = k (setSticky K s)) ∨
      (unmasked s.cw K ≠ 0 ∧ signal K s k = raiseFault (unmasked s.cw K) (setSticky K s)) := by
  by_cases h : unmasked s.cw K = 0
  · exact .inl ⟨h, signal_of_masked s h k⟩
  · exact .inr ⟨h, signal_of_unmasked s h k⟩

/-- All that a stack underflow can do. -/
theorem stackUnderflow_cases (k : State → State) :
    (unmasked s.cw (kSU ||| kIE) = 0 ∧ stackUnderflow s k = k (setC1 true (setSticky (kSU ||| kIE) s))) ∨
      (unmasked s.cw (kSU ||| kIE) ≠ 0 ∧
        stackUnderflow s k = raiseFault (unmasked s.cw (kSU ||| kIE)) (setSticky (kSU ||| kIE) s)) :=
  signal_cases s (kSU ||| kIE) fun s => k (setC1 true s)

/-- All that a stack overflow can do. -/
theorem stackOverflow_cases (k : State → State) :
    (unmasked s.cw (kSO ||| kIE) = 0 ∧ stackOverflow s k = k (setC1 true (setSticky (kSO ||| kIE) s))) ∨
      (unmasked s.cw (kSO ||| kIE) ≠ 0 ∧
        stackOverflow s k = raiseFault (unmasked s.cw (kSO ||| kIE)) (setSticky (kSO ||| kIE) s)) :=
  signal_cases s (kSO ||| kIE) fun s => k (setC1 true s)

/-- After a fault nothing has changed but the sticky bits and the response. -/
theorem raiseFault_frame (U K : KindSet) :
    raiseFault U (setSticky K s) =
      { s with sticky := s.sticky ||| K
               resp := some { status := .fault, cc := 0xFF, fault := U, data := 0 } } := rfl

/-! ### The register stack -/

theorem isEmpty_iff (i : RegIdx) : s.isEmpty i = true ↔ (s.st i).tag = .empty := by simp [State.isEmpty]

theorem full_iff : s.full = true ↔ (s.slot (s.top - 1)).tag ≠ .empty := decide_eq_true_iff

theorem st_eq (i : RegIdx) : s.st i = s.slot (s.top + i) := rfl

/-- All that reading a register can do. -/
theorem readReg_cases (i : RegIdx) (k : FpuValue → State → State) :
    ((s.st i).tag ≠ .empty ∧ readReg i s k = k (s.st i) s) ∨
      ((s.st i).tag = .empty ∧ readReg i s k = stackUnderflow s (k indef)) := by
  unfold readReg
  by_cases h : (s.st i).tag = .empty
  · exact .inr ⟨h, by simp [(isEmpty_iff s i).mpr h]⟩
  · exact .inl ⟨h, by simp [mt (isEmpty_iff s i).mp h]⟩

/-- All that a push can do. -/
theorem push_cases (v : FpuValue) (k kOver : State → State) :
    ((s.slot (s.top - 1)).tag = .empty ∧ push v s k kOver = k (pushRaw v s)) ∨
      ((s.slot (s.top - 1)).tag ≠ .empty ∧
        push v s k kOver = stackOverflow s fun s => kOver (pushRaw indef s)) := by
  unfold push
  by_cases h : (s.slot (s.top - 1)).tag = .empty
  · exact .inl ⟨h, by simp [mt (full_iff s).mp (not_not.mpr h)]⟩
  · exact .inr ⟨h, by simp [(full_iff s).mpr h]⟩

/-- All that a store can do. -/
theorem store_cases (i : RegIdx) (k : State → State) :
    ((s.st 0).tag ≠ .empty ∧ store i s k = k (setSlot (s.phys i) (s.st 0) s)) ∨
      ((s.st 0).tag = .empty ∧ store i s k = stackUnderflow s fun s => k (setSlot (s.phys i) indef s)) :=
  readReg_cases s 0 fun v s => k (setSlot (s.phys i) v s)

/-- The pop of a pop variant, and none. -/
@[simp] theorem popIf_true : popIf true s = popStack s := rfl
@[simp] theorem popIf_false : popIf false s = s := rfl

/-! ### Computing commands -/

/-- All that the two signals and the write-back of a computed result can do. -/
theorem finishComputed_cases (c : Computed) (d : RegIdx) (pops : Bool) :
    (unmasked s.cw c.first = 0 ∧ unmasked s.cw c.second = 0 ∧
        finishComputed c d pops s =
          writeBack d c.value pops (setC1 c.roundup (setSticky c.second (setSticky c.first s)))) ∨
      (unmasked s.cw c.first ≠ 0 ∧
        finishComputed c d pops s = raiseFault (unmasked s.cw c.first) (setSticky c.first s)) ∨
      (unmasked s.cw c.first = 0 ∧ unmasked s.cw c.second ≠ 0 ∧
        finishComputed c d pops s =
          raiseFault (unmasked s.cw c.second) (setSticky c.second (setSticky c.first s))) := by
  unfold finishComputed
  rcases signal_cases s c.first
    (fun s => signal c.second s fun s => writeBack d c.value pops (setC1 c.roundup s)) with ⟨h1, e1⟩ | ⟨h1, e1⟩
  · rcases signal_cases (setSticky c.first s) c.second (fun s => writeBack d c.value pops (setC1 c.roundup s)) with
      ⟨h2, e2⟩ | ⟨h2, e2⟩
    · exact .inl ⟨h1, h2, e1.trans e2⟩
    · exact .inr (.inr ⟨h1, h2, e1.trans e2⟩)
  · exact .inr (.inl ⟨h1, e1⟩)

/-- All that an arithmetic command can do. -/
theorem arith_cases (op : ArithOp) (f : Form) :
    (f.anyEmpty s = true ∧ arith op f s = stackUnderflow s (writeBack f.dest indef f.pops)) ∨
      (f.anyEmpty s = false ∧
        arith op f s = finishComputed (compute op s.cw (f.operands s).1 (f.operands s).2) f.dest f.pops s) := by
  unfold arith
  cases h : f.anyEmpty s
  · exact .inr ⟨rfl, by simp⟩
  · exact .inl ⟨rfl, by simp⟩

/-- All that a logarithm command can do. -/
theorem logCommand_cases (screen : FpuValue → Screened) (engine : Rat → Rat) :
    ((s.st 0).tag = .empty ∧ logCommand screen engine s = stackUnderflow s (writeBack 0 indef false)) ∨
      (∃ K L v, (s.st 0).tag ≠ .empty ∧ screen (s.st 0) = .settled K L v ∧
        logCommand screen engine s =
          finishComputed { first := K, second := L, value := v, roundup := false } 0 false s) ∨
      ∃ K x, (s.st 0).tag ≠ .empty ∧ screen (s.st 0) = .ordinary K x ∧
        logCommand screen engine s = signal K s fun s => engineResult (engine x) s := by
  unfold logCommand
  by_cases h : (s.st 0).tag = .empty
  · exact .inl ⟨h, if_pos ((isEmpty_iff s 0).mpr h)⟩
  · rw [if_neg (mt (isEmpty_iff s 0).mp h)]
    rcases screen (s.st 0) with ⟨K, L, v⟩ | ⟨K, x⟩
    · exact .inr (.inl ⟨K, L, v, h, rfl, rfl⟩)
    · exact .inr (.inr ⟨K, x, h, rfl, rfl⟩)

/-! ### The control word -/

/-- LDCW's operand is refused exactly for the reserved precision code. -/
theorem ofWord_eq_none_iff (w : BitVec 16) : ControlWord.ofWord w = none ↔ w.extractLsb' 8 2 = 1 := by
  have key : ∀ c : BitVec 2, precOfCode c = none ↔ c = 1 := by decide
  rw [← key, ControlWord.ofWord]
  cases precOfCode (w.extractLsb' 8 2) <;> simp

end Sys2Proof.Machine
end

