-- ==== Sys2Proof/Laws/PerInstr.lean ====
section
/-! SUPPORT. A statement about every command as syntax, with one lemma per constructor: the fields of its word. -/

namespace Sys2Proof.Laws.EncodingFields

/-- The eighteen operation codes of 30_encoding.md R92. -/
def listedOpc : List (BitVec 5) :=
  [0x01, 0x02, 0x03, 0x04, 0x05, 0x08, 0x09, 0x0A, 0x0B, 0x0C, 0x0D, 0x0E, 0x10, 0x11, 0x12, 0x13, 0x18, 0x19]

/-- The word of the command has a listed operation code, zero in the reserved bits, `M` set exactly for the immediate
forms, and obeys the constraints that 30_encoding.md R93 states in words. -/
def Statement (i : Instr) : Prop :=
  fieldOpc (encode i) ∈ listedOpc ∧ fieldZ (encode i) = 0 ∧ fieldM (encode i) = Machine.usesImmediate i ∧
    (fieldM (encode i) = true → fieldD (encode i) = false ∧ fieldIdx (encode i) = 0) ∧
    (fieldR (encode i) = true → fieldOpc (encode i) = 0x11 ∨ fieldOpc (encode i) = 0x13)

theorem finit : Statement .finit := by unfold Statement; decide

theorem fclex : Statement .fclex := by unfold Statement; decide

theorem stsw : Statement .stsw := by unfold Statement; decide

theorem stcw : Statement .stcw := by unfold Statement; decide

theorem ldcw : Statement .ldcw := by unfold Statement; decide

theorem fldReg : ∀ i : RegIdx, Statement (.fldReg i) := by unfold Statement; decide

theorem fldImm : Statement .fldImm := by unfold Statement; decide

theorem fldc : ∀ c : ConstIdx, Statement (.fldc c) := by unfold Statement; decide

theorem fst : ∀ i : RegIdx, Statement (.fst i) := by unfold Statement; decide

theorem fstp : ∀ i : RegIdx, Statement (.fstp i) := by unfold Statement; decide

theorem fxch : ∀ i : RegIdx, Statement (.fxch i) := by unfold Statement; decide

theorem ffree : ∀ i : RegIdx, Statement (.ffree i) := by unfold Statement; decide

theorem ffreep : ∀ i : RegIdx, Statement (.ffreep i) := by unfold Statement; decide

theorem pop : Statement .pop := by unfold Statement; decide

theorem rdst : ∀ i : RegIdx, Statement (.rdst i) := by unfold Statement; decide

theorem faddStSti : ∀ i : RegIdx, Statement (.faddStSti i) := by unfold Statement; decide

theorem faddStiSt : ∀ i : RegIdx, Statement (.faddStiSt i) := by unfold Statement; decide

theorem faddImm : Statement .faddImm := by unfold Statement; decide

theorem faddp : ∀ i : RegIdx, Statement (.faddp i) := by unfold Statement; decide

theorem fsubStSti : ∀ i : RegIdx, Statement (.fsubStSti i) := by unfold Statement; decide

theorem fsubStiSt : ∀ i : RegIdx, Statement (.fsubStiSt i) := by unfold Statement; decide

theorem fsubImm : Statement .fsubImm := by unfold Statement; decide

theorem fsubrStSti : ∀ i : RegIdx, Statement (.fsubrStSti i) := by unfold Statement; decide

theorem fsubrStiSt : ∀ i : RegIdx, Statement (.fsubrStiSt i) := by unfold Statement; decide

theorem fsubrImm : Statement .fsubrImm := by unfold Statement; decide

theorem fsubp : ∀ i : RegIdx, Statement (.fsubp i) := by unfold Statement; decide

theorem fsubrp : ∀ i : RegIdx, Statement (.fsubrp i) := by unfold Statement; decide

theorem fmulStSti : ∀ i : RegIdx, Statement (.fmulStSti i) := by unfold Statement; decide

theorem fmulStiSt : ∀ i : RegIdx, Statement (.fmulStiSt i) := by unfold Statement; decide

theorem fmulImm : Statement .fmulImm := by unfold Statement; decide

theorem fmulp : ∀ i : RegIdx, Statement (.fmulp i) := by unfold Statement; decide

theorem fdivStSti : ∀ i : RegIdx, Statement (.fdivStSti i) := by unfold Statement; decide

theorem fdivStiSt : ∀ i : RegIdx, Statement (.fdivStiSt i) := by unfold Statement; decide

theorem fdivImm : Statement .fdivImm := by unfold Statement; decide

theorem fdivrStSti : ∀ i : RegIdx, Statement (.fdivrStSti i) := by unfold Statement; decide

theorem fdivrStiSt : ∀ i : RegIdx, Statement (.fdivrStiSt i) := by unfold Statement; decide

theorem fdivrImm : Statement .fdivrImm := by unfold Statement; decide

theorem fdivp : ∀ i : RegIdx, Statement (.fdivp i) := by unfold Statement; decide

theorem fdivrp : ∀ i : RegIdx, Statement (.fdivrp i) := by unfold Statement; decide

theorem fl2x : Statement .fl2x := by unfold Statement; decide

theorem fl2xp1 : Statement .fl2xp1 := by unfold Statement; decide

end Sys2Proof.Laws.EncodingFields
end

