-- ==== Sys2Proof/Laws/Value.lean ====
section
/-! SUPPORT. The special values are well-formed, and the exact magnitudes read as rationals. -/

namespace Sys2Proof

@[simp] theorem indef_wf : indef.wf = true := by decide

@[simp] theorem zeroOf_wf (s : Bool) : (zeroOf s).wf = true := rfl

@[simp] theorem infOf_wf (s : Bool) : (infOf s).wf = true := by cases s <;> decide

@[simp] theorem emptySlot_wf : Machine.emptySlot.wf = true := rfl

/-- Emptying a tag makes any value well-formed. -/
@[simp] theorem wf_of_empty (v : FpuValue) : ({ v with tag := .empty } : FpuValue).wf = true := rfl

/-- A well-formed value is usable. -/
theorem FpuValue.usable_of_wf {v : FpuValue} (h : v.wf = true) : v.usable = true := by simp [FpuValue.usable, h]

/-- But for an Infinity, usable is well-formed. -/
theorem FpuValue.usable_eq_wf {v : FpuValue} (h : v.tag ≠ .infinity) : v.usable = v.wf := by
  simp [FpuValue.usable, h]

/-- An Infinity is usable whatever its significand (93_implementation_defined.md U8). -/
theorem FpuValue.usable_of_infinity {v : FpuValue} (h : v.tag = .infinity) :
    v.usable = decide (v.exp.toInt = Config.especial) := by
  cases hd : decide (v.exp.toInt = Config.especial) <;> simp [FpuValue.usable, FpuValue.wf, h, hd]

/-- Every entry of the constant table is well-formed and none is Empty. -/
theorem constTable_wf {c : ConstIdx} {v : FpuValue} (h : constTable c = some v) : v.wf = true ∧ v.tag ≠ .empty := by
  have : ∀ c : ConstIdx, ∀ v ∈ constTable c, v.wf = true ∧ v.tag ≠ .empty := by decide
  exact this c v h

/-- A NaN made quiet is well-formed. -/
theorem quieted_wf {v : FpuValue} (h : v.wf = true) (ht : v.tag = .nan) : v.quieted.wf = true := by
  simp only [FpuValue.wf, ht, Bool.and_eq_true, decide_eq_true_eq] at h
  simp only [FpuValue.quieted, FpuValue.wf, Bool.and_eq_true, BitVec.getLsbD_or, h.1.2, Bool.true_or, and_true]
  refine ⟨(by decide : (decide ((expField Config.especial).toInt = Config.especial)) = true), ?_⟩
  refine decide_eq_true fun hz => ?_
  have := congrArg (fun x => x.getLsbD 62) hz
  simp at this

namespace Machine

/-- A fraction divided by a power of two. -/
theorem Frac.scale_toRat (m : Frac) (q : Int) : (m.scale q).toRat = m.toRat / 2 ^ q := by
  unfold Frac.scale Frac.toRat
  rcases Int.le_total 0 q with h | h
  · have h0 : (-q).toNat = 0 := by omega
    have hq : ((q.toNat : ℕ) : ℤ) = q := Int.toNat_of_nonneg h
    rw [h0]
    push_cast
    rw [mul_one, ← zpow_natCast, hq, div_div]
  · have h0 : q.toNat = 0 := by omega
    have hq : (((-q).toNat : ℕ) : ℤ) = -q := Int.toNat_of_nonneg (by omega)
    rw [h0]
    push_cast
    rw [mul_one, ← zpow_natCast, hq, zpow_neg]
    ring

theorem Frac.scale_den_pos {m : Frac} (h : 0 < m.den) (q : Int) : 0 < (m.scale q).den :=
  Nat.mul_pos h (Nat.two_pow_pos _)

theorem Frac.scale_num_pos {m : Frac} (h : 0 < m.num) (q : Int) : 0 < (m.scale q).num :=
  Nat.mul_pos h (Nat.two_pow_pos _)

/-- The comparison with 1. -/
theorem Frac.ltOne_iff {m : Frac} (h : 0 < m.den) : m.ltOne = true ↔ m.toRat < 1 := by
  have : (0 : ℚ) < m.den := by exact_mod_cast h
  simp only [Frac.ltOne, decide_eq_true_eq, Frac.toRat, div_lt_one this, Nat.cast_lt]

theorem Frac.toRat_pos {m : Frac} (hn : 0 < m.num) (hd : 0 < m.den) : 0 < m.toRat := by
  have h1 : (0 : ℚ) < m.num := by exact_mod_cast hn
  have h2 : (0 : ℚ) < m.den := by exact_mod_cast hd
  exact div_pos h1 h2

/-- `ilog2` is the integer base-2 logarithm (00_scope.md R14). -/
theorem Frac.ilog2_eq {m : Frac} (hn : 0 < m.num) (hd : 0 < m.den) : m.ilog2 = Int.log 2 m.toRat := by
  have hm : 0 < m.toRat := Frac.toRat_pos hn hd
  obtain ⟨d, hdd⟩ : ∃ d : Int, d = (m.num.log2 : Int) - (m.den.log2 : Int) := ⟨_, rfl⟩
  have pd : (0 : ℚ) < m.den := by exact_mod_cast hd
  have n1 : (2 : ℚ) ^ m.num.log2 ≤ m.num := by exact_mod_cast Nat.log2_self_le hn.ne'
  have n2 : (m.num : ℚ) < 2 ^ (m.num.log2 + 1) := by exact_mod_cast Nat.lt_log2_self
  have d1 : (2 : ℚ) ^ m.den.log2 ≤ m.den := by exact_mod_cast Nat.log2_self_le hd.ne'
  have d2 : (m.den : ℚ) < 2 ^ (m.den.log2 + 1) := by exact_mod_cast Nat.lt_log2_self
  have lo : (2 : ℚ) ^ (d - 1) < m.toRat := by
    rw [Frac.toRat, lt_div_iff₀ pd]
    calc (2 : ℚ) ^ (d - 1) * m.den < 2 ^ (d - 1) * 2 ^ (m.den.log2 + 1) := by
          exact mul_lt_mul_of_pos_left d2 (by positivity)
      _ = 2 ^ m.num.log2 := by
          rw [← zpow_natCast, ← zpow_natCast, ← zpow_add₀ (by norm_num)]
          congr 1
          push_cast
          omega
      _ ≤ m.num := n1
  have hi : m.toRat < (2 : ℚ) ^ (d + 1) := by
    rw [Frac.toRat, div_lt_iff₀ pd]
    calc (m.num : ℚ) < 2 ^ (m.num.log2 + 1) := n2
      _ = 2 ^ (d + 1) * 2 ^ m.den.log2 := by
          rw [← zpow_natCast, ← zpow_natCast, ← zpow_add₀ (by norm_num)]
          congr 1
          push_cast
          omega
      _ ≤ 2 ^ (d + 1) * m.den := by exact mul_le_mul_of_nonneg_left d1 (by positivity)
  have hs : (m.scale d).ltOne = true ↔ m.toRat < 2 ^ d := by
    rw [Frac.ltOne_iff (Frac.scale_den_pos hd d), Frac.scale_toRat, div_lt_one (by positivity)]
  have key : ∀ e : Int, (2 : ℚ) ^ e ≤ m.toRat → m.toRat < 2 ^ (e + 1) → Int.log 2 m.toRat = e := by
    intro e h1 h2
    have a : e ≤ Int.log 2 m.toRat := (Int.zpow_le_iff_le_log (b := 2) (by norm_num) hm).mp (by exact_mod_cast h1)
    have b : Int.log 2 m.toRat < e + 1 := (Int.lt_zpow_iff_log_lt (b := 2) (by norm_num) hm).mp (by exact_mod_cast h2)
    omega
  unfold Frac.ilog2
  rw [← hdd]
  simp only [hs]
  split
  · exact (key (d - 1) lo.le (by rw [sub_add_cancel]; assumption)).symm
  · exact (key d (by linarith) hi).symm

/-- The magnitude of a rational as a fraction. -/
theorem ratMag_toRat (x : Rat) : (ratMag x).toRat = |x| := by
  unfold ratMag Frac.toRat
  rw [Nat.cast_natAbs, Int.cast_abs]
  conv_rhs => rw [← Rat.num_div_den x]
  rw [abs_div, Nat.abs_cast]

/-- The magnitude of a finite value: `sig * 2^(exp - 63)`, 0 for a Zero (10_state.md R35). -/
theorem magOf_toRat (v : FpuValue) :
    (magOf v).toRat = if v.tag = .zero then 0 else (v.sig.toNat : ℚ) * 2 ^ (v.exp.toInt - 63) := by
  unfold magOf
  split
  · rename_i h
    simp [h, Frac.toRat]
  · rename_i h
    have h' : v.tag ≠ .zero := fun e => h e
    rw [Frac.scale_toRat]
    simp only [h', if_false, Frac.toRat]
    rw [div_eq_mul_inv, ← zpow_neg, neg_sub]
    simp

/-- The signed value of a finite one, as a rational (10_state.md R35). -/
theorem signedRat_eq (v : FpuValue) :
    signedRat v =
      if v.tag = .zero then 0 else (if v.sign then -1 else 1) * (v.sig.toNat : ℚ) * 2 ^ (v.exp.toInt - 63) := by
  unfold signedRat
  rw [magOf_toRat]
  split <;> split <;> simp

/-- The engine's division of an exact zero. -/
@[simp] theorem fullDivide_zero (b : Rat) : fullDivide 0 b = 0 := by simp [fullDivide]

/-- The engine's division is the divider's rounding of the quotient's significand. -/
theorem fullDivide_of_ne_zero {a b : Rat} (h : a / b ≠ 0) :
    fullDivide a b =
      signedRat (round engineControl (decide (a / b < 0)) ((ratMag (a / b)).scale (ratMag (a / b)).ilog2)).value *
        2 ^ (ratMag (a / b)).ilog2 := by
  simp [fullDivide, h]

theorem magOf_den_pos (v : FpuValue) : 0 < (magOf v).den := by
  unfold magOf
  split
  · exact Nat.one_pos
  · exact Frac.scale_den_pos (m := { num := v.sig.toNat, den := 1 }) Nat.one_pos _

end Machine

end Sys2Proof
end

