-- ==== Sys2Proof/Tests/Slice0.lean ====
section
/-! SUPPORT. Tests of the model. Expected results are taken from spec/, as each comment says: the words from
30_encoding.md R96, the results from the examples of the command rules and of 95_test_vectors.md. -/

namespace Sys2Proof.Tests

open Sys2Proof.Machine

/-! ### WellFormed: what it refuses -/

/-- R321: the constant indices 12 to 15 are refused and 11 is not. -/
theorem test_fldc_wellFormed :
    ¬ (Instr.fldc 12).WellFormed ∧ ¬ (Instr.fldc 13).WellFormed ∧ ¬ (Instr.fldc 14).WellFormed ∧
      ¬ (Instr.fldc 15).WellFormed ∧ (Instr.fldc 11).WellFormed := by decide

/-! ### Words of R96 -/

/-- Control and status commands. -/
theorem test_decode_control :
    decode 0x0800 = .ok .finit ∧ decode 0x1000 = .ok .fclex ∧ decode 0x1800 = .ok .stsw ∧
      decode 0x2000 = .ok .stcw ∧ decode 0x2800 = .ok .ldcw := by decide

/-- Register stack and stack management. -/
theorem test_decode_stack :
    decode 0x4003 = .ok (.fldReg 3) ∧ decode 0x4080 = .ok .fldImm ∧ decode 0x4803 = .ok (.fldc 3) ∧
      decode 0x5005 = .ok (.fst 5) ∧ decode 0x5402 = .ok (.fstp 2) ∧ decode 0x5802 = .ok (.fxch 2) ∧
      decode 0x6007 = .ok (.ffree 7) ∧ decode 0x6400 = .ok (.ffreep 0) ∧ decode 0x6800 = .ok .pop ∧
      decode 0x7003 = .ok (.rdst 3) := by decide

/-- Add and subtract. -/
theorem test_decode_add_sub :
    decode 0x8002 = .ok (.faddStSti 2) ∧ decode 0x8105 = .ok (.faddStiSt 5) ∧ decode 0x8080 = .ok .faddImm ∧
      decode 0x8501 = .ok (.faddp 1) ∧ decode 0x8804 = .ok (.fsubStSti 4) ∧ decode 0x8901 = .ok (.fsubStiSt 1) ∧
      decode 0x8880 = .ok .fsubImm ∧ decode 0x8A06 = .ok (.fsubrStSti 6) ∧ decode 0x8B03 = .ok (.fsubrStiSt 3) ∧
      decode 0x8A80 = .ok .fsubrImm ∧ decode 0x8D01 = .ok (.fsubp 1) ∧ decode 0x8F01 = .ok (.fsubrp 1) := by decide

/-- Multiply and divide. -/
theorem test_decode_mul_div :
    decode 0x9002 = .ok (.fmulStSti 2) ∧ decode 0x9107 = .ok (.fmulStiSt 7) ∧ decode 0x9080 = .ok .fmulImm ∧
      decode 0x9501 = .ok (.fmulp 1) ∧ decode 0x9804 = .ok (.fdivStSti 4) ∧ decode 0x9901 = .ok (.fdivStiSt 1) ∧
      decode 0x9880 = .ok .fdivImm ∧ decode 0x9A06 = .ok (.fdivrStSti 6) ∧ decode 0x9B03 = .ok (.fdivrStiSt 3) ∧
      decode 0x9A80 = .ok .fdivrImm ∧ decode 0x9D01 = .ok (.fdivp 1) ∧ decode 0x9F01 = .ok (.fdivrp 1) := by decide

/-- Logarithms. -/
theorem test_decode_log : decode 0xC000 = .ok .fl2x ∧ decode 0xC800 = .ok .fl2xp1 := by decide

/-- R108: one word for each clause, refused by name. -/
theorem test_decode_illegal :
    decode 0x0000 = .error .reservedOpc ∧ decode 0x8010 = .error .reservedBits ∧
      decode 0x8200 = .error .flagCombination ∧ decode 0x8008 = .error .indexField ∧
      decode 0x0801 = .error .indexField ∧ decode 0x480C = .error .reservedConstant := by decide

/-- R111: every pseudo-instruction stands for the word the table gives. -/
theorem test_pseudo_words :
    [Pseudo.fld1, .fldl2t, .fldl2e, .fldpi, .fldlg2, .fldln2, .fldz, .fxch, .faddp, .fsubp, .fsubrp, .fmulp, .fdivp,
        .fdivrp].map (fun p => encode p.expand) =
      [0x4800, 0x4801, 0x4802, 0x4803, 0x4806, 0x4807, 0x4808, 0x5801, 0x8501, 0x8D01, 0x8F01, 0x9501, 0x9D01,
        0x9F01] := by decide

/-! ### Small states -/

/-- A state with the given control word and `top`, `ST(0)`, `ST(1)`, … as listed, the other slots Empty. -/
def regs (cw : ControlWord) (top : RegIdx) (xs : List FpuValue) : State :=
  xs.zipIdx.foldl (fun s p => setSlot (top + BitVec.ofNat 3 p.2) p.1 s) { State.reset with cw := cw, top := top }

/-- The value stands on the operand port. -/
def offered (v : FpuValue) (s : State) : State := { s with opnd := packValue v }

/-- What a test looks at: status, fault vector, status word, and one slot. -/
def seen (p : RegIdx) (r : Result) : Option (Status × KindSet × BitVec 16 × FpuValue) :=
  match r with
  | .next t => t.resp.map fun q => (q.status, q.fault, t.statusWord, t.slot p)
  | _ => none

/-- The control word with the given masks, p = 64, to nearest. -/
def masks (m : KindSet) : ControlWord := { mask := m, pc := .p64, rc := .nearest }

/-- All masked, p = 64, the given rounding mode. -/
def mode (rc : RoundMode) : ControlWord := { mask := 0xFF, pc := .p64, rc := rc }

def one : FpuValue := validOf 0 0x8000000000000000
def two : FpuValue := validOf 1 0x8000000000000000
def three : FpuValue := validOf 1 0xC000000000000000
def four : FpuValue := validOf 2 0x8000000000000000
def five : FpuValue := validOf 2 0xA000000000000000
def piVal : FpuValue := validOf 1 0xC90FDAA22168C235
def minusOne : FpuValue := { one with sign := true }
def maxVal : FpuValue := validOf 16383 0xFFFFFFFFFFFFFFFF
def minDenormal : FpuValue := { sign := false, tag := .denormal, exp := expField (-16382), sig := 1 }
def signalingNaN : FpuValue := { sign := false, tag := .nan, exp := 0x4000, sig := 0x8000000000000001 }
/-- An Infinity as an immediate may present it, its significand not the canonical one (U8). -/
def looseInf (s : Bool) : FpuValue := { sign := s, tag := .infinity, exp := 0x4000, sig := 0x0000000000000007 }
def quietNaN : FpuValue := { sign := false, tag := .nan, exp := 0x4000, sig := 0xC000000000001234 }

/-- The common case: `top = 7`, everything masked. -/
def at7 (xs : List FpuValue) : State := regs (masks 0xFF) 7 xs

/-! ### One step, by command -/

/-- R290: FINIT clears the status word, keeps a slot's payload. -/
theorem test_finit :
    seen 7 (exec .finit { at7 [piVal] with sticky := 0x41, c1 := true, c3 := true }) =
      some (.done, 0, 0x0000, { piVal with tag := .empty }) := by decide

/-- R291, example: 0x3A41 becomes 0x3A00. -/
theorem test_fclex :
    seen 7 (exec .fclex { at7 [one] with sticky := 0x41, c1 := true }) = some (.done, 0, 0x3A00, one) := by decide

/-- R301, R48: SO is bit 15, C3 bit 14, TOP bits 13:11, ES bit 7. -/
theorem test_stsw :
    (match exec .stsw { regs (masks 0x7F) 6 [] with sticky := 0x80, c0 := true, c3 := true } with
      | .next t => t.resp.map (·.data)
      | _ => none) = some 0xF180 := by decide

/-- R302: the fields of R42. -/
theorem test_stcw :
    (match exec .stcw (regs { mask := 0xBE, pc := .p53, rc := .up } 0 []) with
      | .next t => t.resp.map (·.data)
      | _ => none) = some 0x0ABE := by decide

/-- R303, examples: bits 15:12 are ignored, precision code 01 is illegal. -/
theorem test_ldcw :
    exec .ldcw { State.reset with opnd := 0xF7FF } =
        .next { State.reset with opnd := 0xF7FF, cw := mode .down, resp := some (doneResponse 0) } ∧
      exec .ldcw { State.reset with opnd := 0x01FF } =
        .next { State.reset with opnd := 0x01FF, resp := some illegalResponse } := by
  constructor <;> rfl

/-- R134: a copy, and the source's scenario of a masked underflow. -/
theorem test_fld_register :
    seen 6 (exec (.fldReg 0) (at7 [signalingNaN])) = some (.done, 0, 0x3000, signalingNaN) ∧
      seen 7 (exec (.fldReg 3) State.reset) = some (.done, 0, 0x3A41, indef) := by decide

/-- R134, example: after FINIT, FLD #1.0; and an Empty immediate is refused (R74). -/
theorem test_fld_immediate :
    seen 7 (exec .fldImm (offered one State.reset)) = some (.done, 0, 0x3800, one) ∧
      seen 7 (exec .fldImm (offered emptySlot State.reset)) = none := by decide

/-- R325, examples: FLDPI after FINIT, and the ninth push of a full stack. -/
theorem test_fldc :
    seen 7 (exec (.fldc 3) { State.reset with c1 := true }) = some (.done, 0, 0x3800, piVal) ∧
      seen 7 (exec (.fldc 3) (regs (masks 0xFF) 0 (List.replicate 8 one))) = some (.done, 0, 0xBA01, indef) := by
  decide

/-- R372, example: the same with IE unmasked. -/
theorem test_fldc_fault :
    seen 7 (exec (.fldc 3) (regs (masks 0xFE) 0 (List.replicate 8 one))) = some (.fault, 0x01, 0x8081, one) := by
  decide

/-- R296, example. -/
theorem test_fst : seen 4 (exec (.fst 5) (at7 [piVal])) = some (.done, 0, 0x3800, piVal) := by decide

/-- R297, example: a masked underflow stores INDEF and pops. -/
theorem test_fstp : seen 2 (exec (.fstp 2) State.reset) = some (.done, 0, 0x0A41, indef) := by decide

/-- R292, example: one Empty register, exchanged all the same. -/
theorem test_fxch : seen 0 (exec (.fxch 2) (regs (masks 0xFF) 6 [two, one])) = some (.done, 0, 0x3241, two) := by
  decide

/-- R293, example. -/
theorem test_ffree : seen 7 (exec (.ffree 0) (at7 [one])) = some (.done, 0, 0x3800, { one with tag := .empty }) := by
  decide

/-- R294, example. -/
theorem test_ffreep : seen 7 (exec (.ffreep 0) (at7 [one])) = some (.done, 0, 0x0000, { one with tag := .empty }) := by
  decide

/-- R135, example. -/
theorem test_pop : seen 7 (exec .pop (at7 [one])) = some (.done, 0, 0x0000, { one with tag := .empty }) := by decide

/-- R136 and R372: masked, and with IE and SU unmasked. -/
theorem test_rdst :
    exec (.rdst 3) State.reset = .next { State.reset with
        sticky := 0x41, c1 := true, resp := some (doneResponse 0xC4000C000000000000000) } ∧
      seen 3 (exec (.rdst 3) (regs (masks 0xBE) 0 [])) = some (.fault, 0x41, 0x00C1, emptySlot) := by
  constructor
  · rfl
  · decide

/-- R200, examples: 1.0 + 2.0, and MAX + MAX (R212). -/
theorem test_fadd_immediate :
    seen 7 (exec .faddImm (offered two (at7 [one]))) = some (.done, 0, 0x3800, three) ∧
      seen 7 (exec .faddImm (offered maxVal (at7 [maxVal]))) = some (.done, 0, 0x3A28, infOf false) := by
  decide +kernel

/-- R208: 1.0 + (-1.0) under RD is -0. -/
theorem test_fadd_register :
    seen 7 (exec (.faddStSti 1) (regs (mode .down) 7 [one, minusOne])) = some (.done, 0, 0x3800, zeroOf true) := by
  decide +kernel

/-- R206: infinities of opposite sign with IE unmasked (R212). -/
theorem test_fadd_to_register :
    seen 0 (exec (.faddStiSt 1) (regs (masks 0xFE) 7 [infOf false, infOf true])) =
      some (.fault, 0x01, 0x3881, infOf true) := by decide +kernel

/-- R201, example. -/
theorem test_faddp :
    seen 7 (exec (.faddp 1) (regs (masks 0xFF) 6 [three, five])) =
      some (.done, 0, 0x3800, validOf 3 0x8000000000000000) := by decide +kernel

/-- R202: ST(0) - ST(1) into ST(0). -/
theorem test_fsub_register : seen 7 (exec (.fsubStSti 1) (at7 [one, two])) = some (.done, 0, 0x3800, minusOne) := by
  decide +kernel

/-- R202: ST(1) - ST(0) into ST(1). -/
theorem test_fsub_to_register : seen 0 (exec (.fsubStiSt 1) (at7 [one, two])) = some (.done, 0, 0x3800, one) := by
  decide +kernel

/-- R202, example. -/
theorem test_fsub_immediate :
    seen 7 (exec .fsubImm (offered two (at7 [one]))) = some (.done, 0, 0x3800, minusOne) := by decide +kernel

/-- R203: ST(1) - ST(0) into ST(0). -/
theorem test_fsubr_register : seen 7 (exec (.fsubrStSti 1) (at7 [one, two])) = some (.done, 0, 0x3800, one) := by
  decide +kernel

/-- R203: ST(0) - ST(1) into ST(1). -/
theorem test_fsubr_to_register :
    seen 0 (exec (.fsubrStiSt 1) (at7 [one, two])) = some (.done, 0, 0x3800, minusOne) := by decide +kernel

/-- R203, example; and the immediate's NaN wins (R152). -/
theorem test_fsubr_immediate :
    seen 7 (exec .fsubrImm (offered two (at7 [one]))) = some (.done, 0, 0x3800, one) ∧
      seen 7 (exec .fsubrImm (offered quietNaN (at7 [signalingNaN]))) = some (.done, 0, 0x3801, quietNaN) := by
  decide +kernel

/-- R204, example. -/
theorem test_fsubp : seen 7 (exec (.fsubp 1) (regs (masks 0xFF) 6 [three, five])) = some (.done, 0, 0x3800, two) := by
  decide +kernel

/-- R205, example. -/
theorem test_fsubrp :
    seen 7 (exec (.fsubrp 1) (regs (masks 0xFF) 6 [three, five])) =
      some (.done, 0, 0x3800, { two with sign := true }) := by decide +kernel

/-- R222: infinity times zero. -/
theorem test_fmul_register :
    seen 7 (exec (.fmulStSti 1) (at7 [infOf false, zeroOf false])) = some (.done, 0, 0x3801, indef) := by
  decide +kernel

/-- R223: (+0) * (-1.0) is -0. -/
theorem test_fmul_to_register :
    seen 0 (exec (.fmulStiSt 1) (at7 [zeroOf false, minusOne])) = some (.done, 0, 0x3800, zeroOf true) := by
  decide +kernel

/-- R220, example, and R228: 2^-8223 squared under RU is the smallest Denormal. -/
theorem test_fmul_immediate :
    seen 7 (exec .fmulImm (offered three (at7 [three]))) =
        some (.done, 0, 0x3800, validOf 3 0x9000000000000000) ∧
      seen 7 (exec .fmulImm (offered (validOf (-8223) 0x8000000000000000)
        (regs (mode .up) 7 [validOf (-8223) 0x8000000000000000]))) = some (.done, 0, 0x3A30, minDenormal) := by
  decide +kernel

/-- R221, the source's scenario. -/
theorem test_fmulp : seen 7 (exec (.fmulp 1) (regs (masks 0xFF) 6 [two, one])) = some (.done, 0, 0x3800, two) := by
  decide +kernel

/-- R235: 1.0 / 0 with ZE unmasked (R245). -/
theorem test_fdiv_register :
    seen 7 (exec (.fdivStSti 1) (regs (masks 0xFB) 7 [one, zeroOf false])) = some (.fault, 0x04, 0x3884, one) := by
  decide +kernel

/-- R235: ST(1) / ST(0) into ST(1). -/
theorem test_fdiv_to_register : seen 0 (exec (.fdivStiSt 1) (at7 [two, four])) = some (.done, 0, 0x3800, two) := by
  decide +kernel

/-- R235, example: 1.0 / 3.0, and R245: the smallest Denormal halved under RU. -/
theorem test_fdiv_immediate :
    seen 7 (exec .fdivImm (offered three (at7 [one]))) =
        some (.done, 0, 0x3A20, validOf (-2) 0xAAAAAAAAAAAAAAAB) ∧
      seen 7 (exec .fdivImm (offered two (regs (mode .up) 7 [minDenormal]))) =
        some (.done, 0, 0x3A32, minDenormal) := by decide +kernel

/-- R236: ST(1) / ST(0) into ST(0). -/
theorem test_fdivr_register : seen 7 (exec (.fdivrStSti 1) (at7 [two, four])) = some (.done, 0, 0x3800, two) := by
  decide +kernel

/-- R236: ST(0) / ST(1) into ST(1). -/
theorem test_fdivr_to_register : seen 0 (exec (.fdivrStiSt 1) (at7 [four, two])) = some (.done, 0, 0x3800, two) := by
  decide +kernel

/-- R236, example. -/
theorem test_fdivr_immediate :
    seen 7 (exec .fdivrImm (offered three (at7 [one]))) = some (.done, 0, 0x3800, three) := by decide +kernel

/-- R237, example. -/
theorem test_fdivp :
    seen 7 (exec (.fdivp 1) (regs (masks 0xFF) 6 [four, piVal])) =
      some (.done, 0, 0x3800, validOf (-1) 0xC90FDAA22168C235) := by decide +kernel

/-- R238, example. -/
theorem test_fdivrp :
    seen 7 (exec (.fdivrp 1) (regs (masks 0xFF) 6 [three, five])) =
      some (.done, 0, 0x3A20, validOf (-1) 0x999999999999999A) := by decide +kernel

/-- R276: FL2X of 1.0 and of a signaling NaN. -/
theorem test_fl2x :
    seen 7 (exec .fl2x (at7 [one])) = some (.done, 0, 0x3800, zeroOf false) ∧
      seen 7 (exec .fl2x (at7 [signalingNaN])) =
        some (.done, 0, 0x3801, { signalingNaN with sig := 0xC000000000000001 }) := by decide +kernel

/-- R276: FL2XP1 of -0 and of -1.0. -/
theorem test_fl2xp1 :
    seen 7 (exec .fl2xp1 (at7 [zeroOf true])) = some (.done, 0, 0x3800, zeroOf true) ∧
      seen 7 (exec .fl2xp1 (at7 [minusOne])) = some (.done, 0, 0x3804, infOf true) := by decide +kernel

/-! ### An Infinity immediate of non-canonical significand (93_implementation_defined.md U8; R134, R207, R224, R241) -/

/-- FLD copies all four fields. -/
theorem test_loose_infinity_fld :
    seen 7 (exec .fldImm (offered (looseInf true) State.reset)) = some (.done, 0, 0x3800, looseInf true) := by decide

/-- Sums and differences read the tag and deliver canonical results, and still find the invalid combination. -/
theorem test_loose_infinity_sum :
    seen 7 (exec .faddImm (offered (looseInf true) (at7 [one]))) = some (.done, 0, 0x3800, infOf true) ∧
      seen 7 (exec .fsubImm (offered (looseInf true) (at7 [infOf true]))) = some (.done, 0, 0x3801, indef) ∧
      seen 7 (exec .fsubrImm (offered (looseInf true) (at7 [one]))) = some (.done, 0, 0x3800, infOf true) := by
  decide +kernel

/-- So do products and quotients. -/
theorem test_loose_infinity_product :
    seen 7 (exec .fmulImm (offered (looseInf true) (at7 [minusOne]))) = some (.done, 0, 0x3800, infOf false) ∧
      seen 7 (exec .fdivImm (offered (looseInf true) (at7 [one]))) = some (.done, 0, 0x3800, zeroOf true) ∧
      seen 7 (exec .fdivrImm (offered (looseInf true) (at7 [zeroOf false]))) = some (.done, 0, 0x3800, infOf true) := by
  decide +kernel

/-- An Infinity whose exponent is not 16384 stays ill-formed (R33, U1), as do the other tags' ill-formed values. -/
theorem test_ill_formed_immediates :
    (offered { looseInf false with exp := 0 } State.reset).immediate = none ∧
      (offered { one with sig := 1 } State.reset).immediate = none ∧
      (offered { quietNaN with sig := 0x8000000000000000 } State.reset).immediate = none ∧
      (offered emptySlot State.reset).immediate = none := by decide

/-! ### The step -/

/-- An illegal word between two commands (R108), the reset input (R380), and a fetched command. -/
theorem test_step :
    seen 0 (step { State.reset with pending := [.command 0 0] }) = some (.illegal, 0, 0x0000, emptySlot) ∧
      step { at7 [one] with pending := [.hardReset] } = .next State.reset ∧
      seen 7 (step (State.reset.withFetchWord 16 0x4080)) = some (.done, 0, 0x3800, one) := by
  refine ⟨by decide, rfl, by decide⟩

/-! ### Witnesses: a concrete state and operands that meet the hypotheses of each obligation together -/

/-- A state with two full registers, everything masked. -/
def pair : State := regs (masks 0xFF) 6 [one, three]

/-- The same with every kind unmasked. -/
def pairUnmasked : State := regs (masks 0x00) 6 [one, three]

/-- Every slot full. -/
def allFull (m : KindSet) : State := regs (masks m) 0 (List.replicate 8 one)

theorem witness_DecodeOfEncode : (Instr.fldc 11).WellFormed := by decide

theorem witness_EncodeOfDecoded : decode 0x480B = .ok (.fldc 11) := by decide

theorem witness_StepRunsTheDecodedCommand :
    ({ pair with pending := [.command 0x8501 0] } : State).pending = .command 0x8501 0 :: [] ∧
      decode 0x8501 = .ok (.faddp 1) ∧ State.reset.pending = [] := by
  refine ⟨rfl, by decide, rfl⟩

theorem witness_IllegalWordChangesNothing :
    ({ pair with pending := [.command 0 0] } : State).pending = .command 0 0 :: [] ∧
      (∀ r ∈ commandTable, ¬ r.has 0) ∧ (0x01FF : PortWord).extractLsb' 8 2 = 1 := by
  refine ⟨rfl, ?_, by decide⟩
  unfold TableRow.has
  decide

theorem witness_ResetAndFinitValues :
    ({ pair with pending := [.hardReset] } : State).pending = .hardReset :: [] := rfl

theorem resetValues_reset : ResetValues State.reset := by
  unfold ResetValues
  decide

theorem witness_AfterResetEveryReadUnderflows : ResetValues State.reset := resetValues_reset

theorem witness_LdcwLoadsControlWord :
    (0x01FF : BitVec 16) = ({ pair with opnd := 0x01FF } : State).opnd.extractLsb' 0 16 ∧
      (0x01FF : BitVec 16).extractLsb' 8 2 = 1 ∧
      (0xF7FF : BitVec 16) = ({ pair with opnd := 0xF7FF } : State).opnd.extractLsb' 0 16 ∧
      (0xF7FF : BitVec 16).extractLsb' 8 2 ≠ 1 := by decide

theorem witness_StickyBitsStaySet : ∃ t, step { pair with pending := [.command 0x6800 0] } = .next t := ⟨_, rfl⟩

/-- Both the general clause and, from reset, the last one. -/
theorem witness_ConditionBitsC0C2C3 :
    ∃ t, step { State.reset with pending := [.command 0x6800 0] } = .next t ∧
      ({ State.reset with pending := [.command 0x6800 0] } : State).c0 = false ∧
      ({ State.reset with pending := [.command 0x6800 0] } : State).c2 = false ∧
      ({ State.reset with pending := [.command 0x6800 0] } : State).c3 = false := ⟨_, rfl, rfl, rfl, rfl⟩

theorem slotsUsable_pair : pair.SlotsUsable ∧ pairUnmasked.SlotsUsable := by
  unfold State.SlotsUsable
  decide

theorem slotsWf_pair : pair.SlotsWf := by
  unfold State.SlotsWf
  decide

/-- A completing command, a completing FINIT that finds C1 set, and a faulting command. -/
theorem witness_ConditionBitC1 :
    (∃ t r, pair.SlotsUsable ∧ exec .pop pair = .next t ∧ t.resp = some r ∧ r.status = .done) ∧
      (∃ t r, { pair with c1 := true }.SlotsUsable ∧ exec .finit { pair with c1 := true } = .next t ∧
        t.resp = some r ∧ r.status = .done) ∧
      ∃ t r, pairUnmasked.SlotsUsable ∧ exec (.rdst 7) pairUnmasked = .next t ∧ t.resp = some r ∧ r.status ≠ .done :=
  ⟨⟨_, _, slotsUsable_pair.1, rfl, rfl, rfl⟩, ⟨_, _, slotsUsable_pair.1, rfl, rfl, rfl⟩,
    ⟨_, _, slotsUsable_pair.2, rfl, rfl, by decide⟩⟩

/-- The clauses of `C1AfterCompletion`: a stack fault of each kind, a load of a constant, an arithmetic command with its
operands, a logarithm. -/
theorem witness_C1AfterCompletion :
    stackUnderflows (.rdst 7) pair ∧ stackOverflows (.fldc 11) (allFull 0xFF) ∧
      ¬ stackUnderflows (.fldc 11) pair ∧ ¬ stackOverflows (.fldc 11) pair ∧
      (arithRow (.faddp 1) = some ⟨.add, 1, .st 1, .st 0, true⟩ ∧
        ArithOperands ⟨.add, 1, .st 1, .st 0, true⟩ pair three one ∧ ¬ stackUnderflows (.faddp 1) pair) ∧
      ¬ stackUnderflows .fl2x pair ∧ ruleLog .fl2x pair.cw (pair.st 0) = some (ruleLog2 pair.cw (pair.st 0)) := by
  unfold stackUnderflows stackOverflows ArithOperands
  exact ⟨by decide, by decide, by decide, by decide, by decide, by decide, rfl⟩

/-- A completing pop, push, FINIT and STSW, for the four cases of `top`, and a faulting command. -/
theorem witness_TopAndControlWordWriters :
    (∃ t r, exec .pop pair = .next t ∧ t.resp = some r ∧ r.status = .done ∧ popsStack .pop = true) ∧
      (∃ t r, exec (.fldc 0) pair = .next t ∧ t.resp = some r ∧ r.status = .done ∧ pushesStack (.fldc 0) = true) ∧
      (∃ t r, exec .finit pair = .next t ∧ t.resp = some r ∧ r.status = .done ∧ t.top ≠ pair.top) ∧
      (∃ t r, exec .stsw pair = .next t ∧ t.resp = some r ∧ r.status = .done) ∧
      ∃ t r, exec (.rdst 7) pairUnmasked = .next t ∧ t.resp = some r ∧ r.status ≠ .done :=
  ⟨⟨_, _, rfl, rfl, rfl, rfl⟩, ⟨_, _, rfl, rfl, rfl, rfl⟩, ⟨_, _, rfl, rfl, rfl, by decide⟩, ⟨_, _, rfl, rfl, rfl⟩,
    ⟨_, _, rfl, rfl, by decide⟩⟩

/-- The three clauses of the register form and the two of the immediate form, at the ends of the index range. -/
theorem witness_FldPushes :
    ((allFull 0xFF).slot ((allFull 0xFF).top - 1)).tag ≠ .empty ∧
      ((pair.slot (pair.top - 1)).tag = .empty ∧ (pair.slot (pair.top + 7)).tag = .empty) ∧
      ((pair.slot (pair.top - 1)).tag = .empty ∧ (pair.slot (pair.top + 0)).tag ≠ .empty) ∧
      unpackValue (offered one pair).opnd = some one ∧ one.usable = true ∧ one.tag ≠ .empty ∧
      (looseInf false).usable = true ∧ (looseInf false).wf = false ∧
      ((offered one pair).slot ((offered one pair).top - 1)).tag = .empty ∧
      unpackValue (offered one (allFull 0xFF)).opnd = some one ∧
      ((offered one (allFull 0xFF)).slot ((offered one (allFull 0xFF)).top - 1)).tag ≠ .empty := by decide

theorem witness_FldcPushesConstant :
    11 < (12 : ConstIdx).toNat ∧
      ((11 : ConstIdx).toNat ≤ 11 ∧ ((allFull 0xFF).slot ((allFull 0xFF).top - 1)).tag ≠ .empty) ∧
      (0 : ConstIdx).toNat ≤ 11 ∧ (pair.slot (pair.top - 1)).tag = .empty := by decide

theorem witness_RdstReadsRegister :
    (pair.slot (pair.top + 1)).tag ≠ .empty ∧ (pair.slot (pair.top + 7)).tag = .empty := by decide

theorem witness_PushThenPop :
    (∃ t, pushesStack (.fldc 11) = true ∧ exec (.fldc 11) pair = .next t ∧
        ∀ r, t.resp = some r → r.status = .done) ∧
      ResetValues State.reset :=
  ⟨⟨_, rfl, rfl, fun r h => by cases h; rfl⟩, resetValues_reset⟩

theorem witness_FstAndFstpStore :
    (pair.slot pair.top).tag ≠ .empty ∧
      ((State.reset.slot State.reset.top).tag = .empty ∧ State.reset.cw.mask.getLsbD 6 = true ∧
        State.reset.cw.mask.getLsbD 0 = true) ∧
      (((regs (masks 0xFE) 0 []).slot (regs (masks 0xFE) 0 []).top).tag = .empty ∧
        (regs (masks 0xFE) 0 []).cw.mask.getLsbD 0 = false) := by decide

theorem witness_FxchExchanges :
    ((pair.slot pair.top).tag ≠ .empty ∧ (pair.slot (pair.top + 1)).tag ≠ .empty) ∧
      (pair.slot (pair.top + 7)).tag = .empty := by decide

/-- For each family an instruction with both operands there and everything masked. -/
theorem witness_AddAndSubtractComplete :
    arithRow (.fsubrp 1) = some ⟨.sub, 1, .st 0, .st 1, true⟩ ∧
      ArithOperands ⟨.sub, 1, .st 0, .st 1, true⟩ pair one three ∧
      AllMasked pair.cw ((ruleArith .sub pair.cw one three).first ||| (ruleArith .sub pair.cw one three).second) := by
  refine ⟨rfl, ?_, ?_⟩
  · unfold ArithOperands
    decide
  · simp [AllMasked, pair, regs, masks, setSlot, List.zipIdx]

theorem witness_MultiplyCompletes :
    arithRow .fmulImm = some ⟨.mul, 0, .st 0, .port, false⟩ ∧
      ArithOperands ⟨.mul, 0, .st 0, .port, false⟩ (offered two pair) one two ∧
      AllMasked (offered two pair).cw
        ((ruleArith .mul (offered two pair).cw one two).first |||
          (ruleArith .mul (offered two pair).cw one two).second) := by
  refine ⟨rfl, ?_, ?_⟩
  · unfold ArithOperands
    decide
  · simp [AllMasked, offered, pair, regs, masks, setSlot, List.zipIdx]

theorem witness_DivideCompletes :
    arithRow (.fdivStSti 1) = some ⟨.div, 0, .st 0, .st 1, false⟩ ∧
      ArithOperands ⟨.div, 0, .st 0, .st 1, false⟩ pair one three ∧
      AllMasked pair.cw ((ruleArith .div pair.cw one three).first ||| (ruleArith .div pair.cw one three).second) := by
  refine ⟨rfl, ?_, ?_⟩
  · unfold ArithOperands
    decide
  · simp [AllMasked, pair, regs, masks, setSlot, List.zipIdx]

/-- A Denormal dividend over Zero: DE unmasked, then DE masked and ZE unmasked. -/
theorem witness_ArithmeticFaults :
    arithRow (.fdivStSti 1) = some ⟨.div, 0, .st 0, .st 1, false⟩ ∧
      (ArithOperands ⟨.div, 0, .st 0, .st 1, false⟩ (regs (masks 0xFD) 6 [minDenormal, zeroOf false])
          minDenormal (zeroOf false) ∧
        ¬ AllMasked (masks 0xFD) (ruleArith .div (masks 0xFD) minDenormal (zeroOf false)).first) ∧
      (ArithOperands ⟨.div, 0, .st 0, .st 1, false⟩ (regs (masks 0xFB) 6 [minDenormal, zeroOf false])
          minDenormal (zeroOf false) ∧
        AllMasked (masks 0xFB) (ruleArith .div (masks 0xFB) minDenormal (zeroOf false)).first ∧
        ¬ AllMasked (masks 0xFB) (ruleArith .div (masks 0xFB) minDenormal (zeroOf false)).second) := by
  unfold ArithOperands AllMasked
  refine ⟨rfl, ⟨by decide, by decide⟩, by decide, by decide, by decide⟩

/-- A register form and an immediate form on an Empty register, masked and unmasked. -/
theorem witness_ArithmeticStackUnderflow :
    arithRow (.faddp 7) = some ⟨.add, 7, .st 7, .st 0, true⟩ ∧
      (usesImmediate (.faddp 7) = true → ∃ v, pair.immediate = some v) ∧ stackUnderflows (.faddp 7) pair ∧
      (usesImmediate .fdivrImm = true → ∃ v, (offered one State.reset).immediate = some v) ∧
      stackUnderflows .fdivrImm (offered one State.reset) ∧
      AllMasked pair.cw 0x41 ∧ ¬ AllMasked pairUnmasked.cw 0x41 := by
  unfold stackUnderflows AllMasked
  exact ⟨rfl, by simp [usesImmediate], by decide, fun _ => ⟨one, by decide⟩, by decide, by decide, by decide⟩

theorem witness_ExceptionOrder :
    (compute .div (masks 0) (zeroOf true) (zeroOf false)).first = kIE ∧
      (compute .div (masks 0) one (zeroOf false)).second = kZE := by decide

theorem witness_AddSubtractLaws :
    one.tag ≠ .nan ∧ (infOf true).tag ≠ .nan ∧ (one.tag = .valid ∨ one.tag = .denormal) ∧
      (minDenormal.tag = .valid ∨ minDenormal.tag = .denormal) ∧
      (pair.st 0).tag ≠ .empty ∧ (pair.st 1).tag ≠ .empty := by decide

theorem witness_ProductAndQuotientSign :
    (zeroOf true).usable = true ∧ minusOne.usable = true ∧ (zeroOf true).tag ≠ .empty ∧ minusOne.tag ≠ .empty ∧
      (compute .mul (masks 0xFF) (zeroOf true) minusOne).value.tag ≠ .nan ∧
      (compute .div (masks 0xFF) (zeroOf true) minusOne).value.tag ≠ .nan := by decide

/-- 2^8192 squared overflows, its exponents adding up to 16384; 2^-16382 squared is tiny. -/
theorem witness_MultiplyLaws :
    (validOf 8192 0x8000000000000000).wf = true ∧
      (compute .mul (masks 0xFF) (validOf 8192 0x8000000000000000) (validOf 8192 0x8000000000000000)).second.getLsbD 3 =
        true ∧
      (validOf (-16382) 0x8000000000000000).wf = true ∧
      |valOf (validOf (-16382) 0x8000000000000000) * valOf (validOf (-16382) 0x8000000000000000)| <
        2 ^ (-16382 : ℤ) := by
  refine ⟨by decide, by decide +kernel, by decide, ?_⟩
  have hv : valOf (validOf (-16382) 0x8000000000000000) = 2 ^ (63 : ℤ) * 2 ^ (-16445 : ℤ) := by
    have h1 : (validOf (-16382) 0x8000000000000000).exp.toInt = -16382 := by decide
    have h2 : (validOf (-16382) 0x8000000000000000).sig.toNat = 2 ^ 63 := by decide
    have h3 : (validOf (-16382) 0x8000000000000000).tag = .valid := rfl
    have h4 : (validOf (-16382) 0x8000000000000000).sign = false := rfl
    unfold valOf
    rw [h1, h2, h3, h4]
    have h5 : ((2 ^ 63 : ℕ) : ℚ) = 2 ^ (63 : ℤ) := by norm_num
    rw [h5]
    simp only [Bool.false_eq_true, if_false, one_mul]
    rfl
  rw [hv, ← zpow_add₀ (by norm_num), ← zpow_add₀ (by norm_num), abs_of_pos (by positivity)]
  exact zpow_lt_zpow_right₀ (by norm_num) (by norm_num)

/-- Exponent differences at both ends of the range, and ZE. -/
theorem witness_DivideLaws :
    (validOf 1 0x8000000000000000).wf = true ∧ (validOf 16383 0x8000000000000000).wf = true ∧
      -16382 ≤ (validOf 1 0x8000000000000000).exp.toInt - (validOf 16383 0x8000000000000000).exp.toInt ∧
      (validOf 16383 0x8000000000000000).exp.toInt - (validOf 0 0x8000000000000000).exp.toInt ≤ 16383 ∧
      (compute .div (masks 0) one (zeroOf false)).second.getLsbD 2 = true ∧
      (pair.st 0).tag ≠ .empty ∧ (pair.st 1).tag ≠ .empty := by decide

theorem witness_RoundRefinesTheRule : 0 < (⟨1, 3⟩ : Frac).num ∧ 0 < (⟨1, 3⟩ : Frac).den := by decide

/-- The magnitude 1 is on the grid of every precision and in range. -/
theorem witness_RoundResultWellFormed :
    0 < (⟨1, 1⟩ : Frac).num ∧ 0 < (⟨1, 1⟩ : Frac).den ∧
      (∃ n : ℤ, (⟨1, 1⟩ : Frac).toRat = n * 2 ^ ruleUlp (masks 0xFF) (⟨1, 1⟩ : Frac).toRat) ∧
      (⟨1, 1⟩ : Frac).toRat < 2 ^ (16384 : ℤ) := by
  have h1 : (⟨1, 1⟩ : Frac).toRat = 1 := by simp [Frac.toRat]
  have h : ruleUlp (masks 0xFF) 1 = -63 := by
    simp [ruleUlp, Int.log_one_right, masks, Precision.bits]
  rw [h1, h]
  exact ⟨by decide, by decide, ⟨2 ^ 63, by norm_num⟩, one_lt_zpow₀ (by norm_num) (by norm_num)⟩

/-- The magnitude 1/3 does not overflow, in any mode; nor does its rounding up to a significand of 2. -/
theorem witness_RoundDirection :
    0 < (⟨1, 3⟩ : Frac).num ∧ 0 < (⟨1, 3⟩ : Frac).den ∧
      ∀ rc ∈ [RoundMode.nearest, .down, .up, .zero],
        (round (mode rc) true ⟨1, 3⟩).kinds.getLsbD 3 = false ∧
        (round (mode rc) true ⟨2 ^ 70 - 1, 1⟩).kinds.getLsbD 3 = false := by decide +kernel

theorem witness_PackedValueRoundTrip : unpackValue (packValue indef) = some indef := by decide

theorem witness_ValueRanges :
    (maxVal.wf = true ∧ maxVal.tag = .valid) ∧ (zeroOf true).tag = .zero ∧
      minDenormal.wf = true ∧ minDenormal.tag = .denormal := by decide

theorem witness_PolyL2Accuracy : (0 : ℚ) < 2 ∧ (2 : ℚ) ≠ 1 ∧ (1 : ℚ) < 2 ∧ (0 : ℚ) < 1 / 2 ∧ (1 / 2 : ℚ) < 1 := by
  norm_num

/-- Both accuracy classes and both signs. -/
theorem witness_PolyL2P1Accuracy :
    ((-1 : ℚ) < 1 / 8 ∧ (0 : ℚ) < 1 / 8 ∧ |((1 / 8 : ℚ) : ℝ)| < 3 - 2 * Real.sqrt 2) ∧
      (-1 : ℚ) < -1 / 2 ∧ (-1 / 2 : ℚ) < 0 ∧ 3 - 2 * Real.sqrt 2 ≤ |((-1 / 2 : ℚ) : ℝ)| := by
  have h1 : Real.sqrt 2 < 23 / 16 := by
    rw [Real.sqrt_lt' (by norm_num)]
    norm_num
  have h2 : 5 / 4 < Real.sqrt 2 := Real.lt_sqrt_of_sq_lt (by norm_num)
  have h3 : |((1 / 8 : ℚ) : ℝ)| = 1 / 8 := by norm_num [abs_of_pos]
  have h4 : |((-1 / 2 : ℚ) : ℝ)| = 1 / 2 := by
    push_cast
    rw [show (-1 / 2 : ℝ) = -(1 / 2) by norm_num, abs_neg, abs_of_pos (by norm_num)]
  rw [h3, h4]
  refine ⟨⟨by norm_num, by norm_num, by linarith⟩, by norm_num, by norm_num, by linarith⟩

/-- Exponent contributions of both signs and none; a quotient that is 0 and one that is not, of each sign. -/
theorem witness_RangeReduction :
    ((0 : ℚ) < 4 ∧ 0 < (rangeReduce 4).k ∧ (rangeReduce 4).v - 1 = 0) ∧
      ((0 : ℚ) < 1 / 4 ∧ (rangeReduce (1 / 4)).k < 0) ∧
      ((0 : ℚ) < 5 / 4 ∧ (rangeReduce (5 / 4)).k = 0 ∧ 0 < (rangeReduce (5 / 4)).v - 1) ∧
      (0 : ℚ) < 3 / 4 ∧ (rangeReduce (3 / 4)).k = 0 ∧ (rangeReduce (3 / 4)).v - 1 < 0 := by
  decide +kernel

/-- An argument the engine computes. -/
theorem witness_LogarithmCompletes :
    ruleLog .fl2x pair.cw (pair.st 0) = some (ruleLog2 pair.cw (pair.st 0)) ∧ (pair.st 0).usable = true ∧
      AllMasked pair.cw ((ruleLog2 pair.cw (pair.st 0)).first ||| (ruleLog2 pair.cw (pair.st 0)).second) := by
  refine ⟨rfl, by decide, ?_⟩
  have h : pair.cw.mask = 0xFF := by decide
  simp [AllMasked, h]

theorem valOf_minusOne : valOf minusOne = -1 := by
  have h1 : minusOne.exp.toInt = 0 := by decide
  have h2 : minusOne.sig.toNat = 2 ^ 63 := by decide
  have h3 : minusOne.tag = .valid := rfl
  have h4 : minusOne.sign = true := rfl
  unfold valOf
  rw [h1, h2, h3, h4]
  norm_num

/-- The logarithm of zero with ZE unmasked, and `log2(1 + (-1))` with ZE unmasked. -/
theorem witness_LogarithmFaults :
    (ruleLog .fl2x (masks 0xFB) ((regs (masks 0xFB) 7 [zeroOf false]).st 0) =
        some (ruleLog2 (masks 0xFB) (zeroOf false)) ∧
      ((regs (masks 0xFB) 7 [zeroOf false]).st 0).usable = true ∧
      ¬ AllMasked (masks 0xFB) (ruleLog2 (masks 0xFB) (zeroOf false)).first) ∧
      ruleLog .fl2xp1 (masks 0xFB) ((regs (masks 0xFB) 7 [minusOne]).st 0) =
        some (ruleLog2p1 (masks 0xFB) minusOne) ∧
      ((regs (masks 0xFB) 7 [minusOne]).st 0).usable = true ∧
      AllMasked (masks 0xFB) (ruleLog2p1 (masks 0xFB) minusOne).first ∧
      ¬ AllMasked (masks 0xFB) (ruleLog2p1 (masks 0xFB) minusOne).second := by
  have h1 : ruleLog2p1 (masks 0xFB) minusOne = { first := 0, second := kZE, value := infOf true, c1 := false } := by
    have ht : minusOne.tag = .valid := rfl
    have hd : ruleDE minusOne minusOne = 0 := by decide
    unfold ruleLog2p1
    simp [ht, valOf_minusOne, hd]
  have h2 : (regs (masks 0xFB) 7 [minusOne]).st 0 = minusOne := by decide
  have h3 : (regs (masks 0xFB) 7 [zeroOf false]).st 0 = zeroOf false := by decide
  rw [h1, h2, h3]
  unfold AllMasked
  refine ⟨⟨rfl, by decide, by decide⟩, ?_, by decide, by decide, by decide⟩
  rw [ruleLog, h1]

/-- With every kind masked a logarithm command completes. -/
theorem log_completes {s : State} (h : s.cw.mask = 0xFF) (screen : FpuValue → Screened) (engine : Rat → Rat) :
    (logCommand screen engine s).resp = some (doneResponse 0) := by
  have hm : ∀ t : State, t.cw = s.cw → ∀ K, unmasked t.cw K = 0 := fun t e K =>
    unmasked_of_mask_all (e ▸ h) K
  have hf : ∀ t : State, t.cw = s.cw → ∀ c, (finishComputed c 0 false t).resp = some (doneResponse 0) := by
    intro t e c
    rcases finishComputed_cases t c 0 false with ⟨_, _, r⟩ | ⟨h1, _⟩ | ⟨_, h2, _⟩
    · rw [r]
      rfl
    · exact absurd (hm t e _) h1
    · exact absurd (hm t e _) h2
  rcases logCommand_cases s screen engine with ⟨_, e⟩ | ⟨K, L, v, _, _, e⟩ | ⟨K, x, _, _, e⟩
  · rcases stackUnderflow_cases s (writeBack 0 indef false) with ⟨_, e2⟩ | ⟨h2, _⟩
    · rw [e, e2]
      rfl
    · exact absurd (hm s rfl _) h2
  · rw [e]
    exact hf s rfl _
  · rw [e, signal_of_masked s (hm s rfl K)]
    exact hf (setSticky K s) rfl _

theorem witness_LogarithmProperties :
    (∃ t r, exec .fl2x pair = .next t ∧ t.resp = some r) ∧
      (∃ t, exec .fl2x (at7 [three]) = .next t ∧ ((at7 [three]).st 0).wf = true ∧
        FiniteTag ((at7 [three]).st 0).tag ∧ 0 < valOf ((at7 [three]).st 0) ∧ valOf ((at7 [three]).st 0) ≠ 1 ∧
        t.resp = some (doneResponse 0)) ∧
      (pair.st 0 = validOf 0 0x8000000000000000) ∧ ((at7 [zeroOf true]).st 0).tag = .zero := by
  have h0 : (at7 [three]).st 0 = three := by decide
  have hv : valOf three = 3 := by
    have h1 : three.exp.toInt = 1 := by decide
    have h2 : three.sig.toNat = 3 * 2 ^ 62 := by decide
    have h3 : three.tag = .valid := rfl
    have h4 : three.sign = false := rfl
    unfold valOf
    rw [h1, h2, h3, h4]
    norm_num
  refine ⟨⟨_, _, rfl, log_completes (by decide) _ _⟩, ⟨_, rfl, by decide, ?_, ?_, ?_, ?_⟩, by decide, by decide⟩
  · rw [h0]
    exact .inl rfl
  · rw [h0, hv]
    norm_num
  · rw [h0, hv]
    norm_num
  · exact log_completes (by decide) _ _

/-- Both stack faults, masked and unmasked. -/
theorem witness_StackFaultPaths :
    (usesImmediate (.fldc 11) = true → ∃ v, (allFull 0xFF).immediate = some v) ∧
      stackOverflows (.fldc 11) (allFull 0xFF) ∧ AllMasked (allFull 0xFF).cw 0x81 ∧
      stackOverflows (.fldc 11) (allFull 0xFE) ∧ ¬ AllMasked (allFull 0xFE).cw 0x81 ∧
      (usesImmediate (.rdst 7) = true → ∃ v, pair.immediate = some v) ∧
      stackUnderflows (.rdst 7) pair ∧ AllMasked pair.cw 0x41 ∧
      stackUnderflows (.rdst 7) pairUnmasked ∧ ¬ AllMasked pairUnmasked.cw 0x41 := by
  unfold stackOverflows stackUnderflows AllMasked
  exact ⟨by simp [usesImmediate], by decide, by decide, by decide, by decide, by simp [usesImmediate], by decide,
    by decide, by decide, by decide⟩

theorem witness_FaultChangesOnlyStickyBits :
    ∃ t r, exec (.rdst 7) pairUnmasked = .next t ∧ t.resp = some r ∧ r.status = .fault := ⟨_, _, rfl, rfl, rfl⟩

/-- Each status code, and RDST of a full and of an Empty register. -/
theorem witness_ResponseFields :
    (∃ t, exec .stsw pair = .next t) ∧
      (∃ t r, exec .ldcw { pair with opnd := 0x01FF } = .next t ∧ t.resp = some r ∧ statusCode r.status = 2) ∧
      (∃ t r, exec (.rdst 7) pairUnmasked = .next t ∧ t.resp = some r ∧ statusCode r.status = 1) ∧
      (∃ t r, exec (.rdst 7) pair = .next t ∧ t.resp = some r ∧ statusCode r.status = 0) ∧
      ∃ t r, exec (.rdst 1) pair = .next t ∧ t.resp = some r ∧ statusCode r.status = 0 :=
  ⟨⟨_, rfl⟩, ⟨_, _, rfl, rfl, rfl⟩, ⟨_, _, rfl, rfl, rfl⟩, ⟨_, _, rfl, rfl, rfl⟩, ⟨_, _, rfl, rfl, rfl⟩⟩

theorem witness_RaisedKindsByCommand :
    pair.SlotsUsable ∧ (∃ t, exec (.rdst 7) pair = .next t) ∧ raisesNothing .pop = true :=
  ⟨slotsUsable_pair.1, ⟨_, rfl⟩, rfl⟩

theorem witness_MaskedCommandsComplete :
    ((Instr.fldc 11).WellFormed ∧ (Instr.fldc 11) ≠ .ldcw ∧ pair.cw.mask = 0xFF ∧
        (usesImmediate (.fldc 11) = true → ∃ v, pair.immediate = some v)) ∧
      ∃ t r, exec (.rdst 7) pairUnmasked = .next t ∧ t.resp = some r ∧ r.status = .fault :=
  ⟨⟨by decide, by decide, by decide, by simp [usesImmediate]⟩, ⟨_, _, rfl, rfl, rfl⟩⟩

theorem witness_EsDoesNotGateExecution : Instr.pop ≠ .stsw ∧ ∃ t, exec .pop pair = .next t := ⟨by decide, _, rfl⟩

/-- A command without immediate, an immediate form with a usable Infinity, an ill-formed operand; and for each way an
operand is refused one that is: the tag codes 6 and 7, an Empty, an ill-formed Infinity. -/
theorem witness_EveryCommandHasANextState :
    ¬ (usesImmediate .pop = true ∧ pair.immediate = none) ∧
      (usesImmediate .fldImm = true ∧ (offered (looseInf false) pair).immediate = some (looseInf false)) ∧
      (usesImmediate .fldImm = true ∧ State.reset.immediate = none) ∧
      ({ pair with opnd := 0x600000000000000000000 } : State).immediate = none ∧
      (0x600000000000000000000 : PortWord).extractLsb' 80 3 = 6 ∧
      ({ pair with opnd := 0x700000000000000000000 } : State).immediate = none ∧
      (0x700000000000000000000 : PortWord).extractLsb' 80 3 = 7 ∧
      (unpackValue (offered emptySlot pair).opnd = some emptySlot ∧ emptySlot.tag = .empty) ∧
      { looseInf false with exp := 0 }.wf = false := by decide

theorem witness_OperandPortReaders :
    (∃ t, exec .pop pair = .next t ∧ usesImmediate .pop = false ∧ Instr.pop ≠ .ldcw) ∧
      ∃ t, exec .ldcw pair = .next t ∧ (0x10000 : PortWord).extractLsb' 0 16 = pair.opnd.extractLsb' 0 16 :=
  ⟨⟨_, rfl, rfl, by decide⟩, ⟨_, rfl, by decide⟩⟩

theorem witness_SlotFrame :
    (∃ t, exec (.faddp 1) pair = .next t) ∧ (∃ t, exec (.ffreep 7) pair = .next t) ∧ ¬ mayWriteSlot (.faddp 1) pair 3 := by
  refine ⟨⟨_, rfl⟩, ⟨_, rfl⟩, ?_⟩
  rintro ⟨row, h, hp⟩
  cases h
  revert hp
  decide

/-- A pop variant, which takes no immediate; FLD of a well-formed immediate; FLD of an Infinity of non-canonical
significand, which only the second clause covers. -/
theorem witness_SlotsStayWellFormed :
    (({ pair with pending := [.command 0x8501 0] } : State).SlotsWf ∧
        NextImmediateWf { pair with pending := [.command 0x8501 0] } ∧
        ∃ t, step { pair with pending := [.command 0x8501 0] } = .next t) ∧
      (({ pair with pending := [.command 0x4080 (packValue one)] } : State).SlotsWf ∧
        NextImmediateWf { pair with pending := [.command 0x4080 (packValue one)] } ∧
        ∃ t, step { pair with pending := [.command 0x4080 (packValue one)] } = .next t) ∧
      ({ pair with pending := [.command 0x4080 (packValue (looseInf true))] } : State).SlotsUsable ∧
      ∃ t, step { pair with pending := [.command 0x4080 (packValue (looseInf true))] } = .next t := by
  refine ⟨⟨slotsWf_pair, ?_, _, rfl⟩, ⟨slotsWf_pair, ?_, _, rfl⟩, slotsUsable_pair.1, _, rfl⟩
  · rintro w o rest i v h hd hu hv
    cases h
    rw [show decode 0x8501 = .ok (.faddp 1) by decide] at hd
    cases hd
    simp [usesImmediate] at hu
  · rintro w o rest i v h hd hu hv
    cases h
    rw [show unpackValue (packValue one) = some one by decide] at hv
    cases hv
    decide

/-- Two reset states whose slot 3 differs in its payload. -/
theorem witness_EmptyPayloadUnobservable :
    SameButEmptyPayload State.reset (setSlot 3 { emptySlot with sig := 5, sign := true } State.reset) ∧
      State.reset ≠ setSlot 3 { emptySlot with sig := 5, sign := true } State.reset := by
  refine ⟨⟨?_, rfl⟩, by decide⟩
  decide

end Sys2Proof.Tests
end

section
/-! What a step does by the oldest port event (spec/00_scope.md R20), which operands are refused as an immediate
(spec/20_memory.md R74), and that every command has a next state but for those. -/

namespace Sys2Proof

/-- A value record fails to unpack exactly for the two reserved tag codes (10_state.md R32). -/
theorem unpackValue_eq_none_iff (w : PortWord) :
    unpackValue w = none ↔ w.extractLsb' 80 3 = 6 ∨ w.extractLsb' 80 3 = 7 := by
  have reserved : ∀ c : BitVec 3, tagOfCode c = none ↔ c = 6 ∨ c = 7 := by decide
  rw [← reserved, unpackValue]
  cases tagOfCode (w.extractLsb' 80 3) <;> simp

/-- The exponent field of an Infinity (10_state.md R33), as a bit pattern. -/
theorem toInt_eq_especial_iff (e : BitVec 16) : e.toInt = Config.especial ↔ e = 0x4000 := by
  have especial : Config.especial = (0x4000 : BitVec 16).toInt := by decide
  rw [especial, BitVec.toInt_inj]

/-- What the block does not take as a value: an ill-formed one, the significand of an Infinity apart
(93_implementation_defined.md U8). -/
theorem FpuValue.usable_eq_false_iff (v : FpuValue) :
    v.usable = false ↔ v.wf = false ∧ ¬ (v.tag = .infinity ∧ v.exp = 0x4000) := by
  simp [FpuValue.usable, toInt_eq_especial_iff]

namespace Machine

/-! ### The step, by the oldest port event -/

theorem step_idle {s : State} (h : s.pending = []) : step s = .next s := by
  simp [step, fetch_nil s h]

theorem step_command {s : State} {w : CmdWord} {o : PortWord} {rest : List PortEvent} {i : Instr}
    (h : s.pending = .command w o :: rest) (hw : decode w = .ok i) : step s = exec i (s.accept o rest) := by
  simp [step, fetch_command s h, hw]

/-! ### The immediate operand -/

/-- There is no immediate where the port's word does not unpack, or unpacks to an Empty or an unusable value. -/
theorem immediate_eq_none_iff (s : State) :
    s.immediate = none ↔
      unpackValue s.opnd = none ∨ ∃ v, unpackValue s.opnd = some v ∧ (v.tag = .empty ∨ v.usable = false) := by
  simp only [Option.eq_none_iff_forall_ne_some (o := s.immediate), ne_eq, immediate_eq_some_iff]
  cases unpackValue s.opnd with
  | none => simp
  | some v => by_cases ht : v.tag = .empty <;> simp [ht]

/-! ### The outcome of a command -/

/-- Every immediate form is a continuation run on the immediate operand. -/
theorem exec_eq_withImmediate {i : Instr} (h : usesImmediate i = true) (s : State) :
    ∃ k, exec i s = withImmediate s k := by
  cases i with
  | fldImm | faddImm | fsubImm | fsubrImm | fmulImm | fdivImm | fdivrImm => exact ⟨_, rfl⟩
  | _ => exact absurd h Bool.false_ne_true

/-- Every other command answers a next state, whatever the operand port holds. -/
theorem exec_next_of_not_usesImmediate {i : Instr} (h : usesImmediate i = false) (s : State) :
    ∃ t, exec i s = .next t := by
  cases i with
  | fldImm | faddImm | fsubImm | fsubrImm | fmulImm | fdivImm | fdivrImm => exact absurd h.symm Bool.false_ne_true
  | _ => exact ⟨_, rfl⟩

/-- An immediate form with no immediate is refused (20_memory.md R74, log entry 4). -/
theorem exec_refused_of_immediate_none {i : Instr} {s : State} (h : usesImmediate i = true)
    (hs : s.immediate = none) : exec i s = .refused .illFormedImmediate := by
  obtain ⟨k, hk⟩ := exec_eq_withImmediate h s
  exact hk.trans (withImmediate_none s hs k)

/-- An immediate form with an immediate runs. -/
theorem exec_next_of_immediate_some {i : Instr} {s : State} {v : FpuValue} (h : usesImmediate i = true)
    (hs : s.immediate = some v) : ∃ t, exec i s = .next t := by
  obtain ⟨k, hk⟩ := exec_eq_withImmediate h s
  exact ⟨k v, hk.trans (withImmediate_some s hs k)⟩

/-- A command has a next state unless it is an immediate form without an immediate. -/
theorem exec_next_of_not_refused {i : Instr} {s : State} (h : ¬ (usesImmediate i = true ∧ s.immediate = none)) :
    ∃ t, exec i s = .next t := by
  cases hi : usesImmediate i with
  | false => exact exec_next_of_not_usesImmediate hi s
  | true =>
    obtain ⟨v, hv⟩ := Option.ne_none_iff_exists'.mp fun hs => h ⟨hi, hs⟩
    exact exec_next_of_immediate_some hi hv

/-! ### The obligations -/

/-- Settles O5, by the two equations of `step` for a decoded command and for an empty queue. -/
theorem stepRunsTheDecodedCommand : Obligations.StepRunsTheDecodedCommand :=
  ⟨fun _ _ _ _ _ h hw => step_command h hw, fun _ h => step_idle h⟩

/-- Settles O55, by the outcome of a command with and without an immediate, and by what the immediate is. -/
theorem everyCommandHasANextState : Obligations.EveryCommandHasANextState := fun i s =>
  ⟨exec_next_of_not_refused, exec_refused_of_immediate_none, by
    simp only [immediate_eq_none_iff, unpackValue_eq_none_iff, FpuValue.usable_eq_false_iff, or_assoc]⟩

end Machine

end Sys2Proof
end

section
/-! What a step does with each port event, and the logarithm commands as a computed result delivered by the same two
signals and write-back as an arithmetic one. -/

namespace Sys2Proof.Machine

/-! ### The step, by the oldest port event -/

theorem step_hardReset {s : State} {rest : List PortEvent} (h : s.pending = .hardReset :: rest) :
    step s = .next (State.hardReset rest) := by
  simp [step, fetch_hardReset s h]

theorem step_illegal {s : State} {w : CmdWord} {o : PortWord} {rest : List PortEvent} {e : DecodeError}
    (h : s.pending = .command w o :: rest) (hw : decode w = .error e) :
    step s = .next (raiseIllegal (s.accept o rest)) := by
  simp [step, fetch_command s h, hw]

/-- All that a step can do. -/
theorem step_cases (s : State) :
    (s.pending = [] ∧ step s = .next s) ∨
      (∃ rest, s.pending = .hardReset :: rest ∧ step s = .next (State.hardReset rest)) ∨
      (∃ w o rest e, s.pending = .command w o :: rest ∧ decode w = .error e ∧
        step s = .next (raiseIllegal (s.accept o rest))) ∨
      ∃ w o rest i, s.pending = .command w o :: rest ∧ decode w = .ok i ∧ step s = exec i (s.accept o rest) := by
  rcases fetch_cases s with ⟨h, -⟩ | ⟨rest, h, -⟩ | ⟨w, o, rest, h, -⟩
  · exact .inl ⟨h, step_idle h⟩
  · exact .inr (.inl ⟨rest, h, step_hardReset h⟩)
  · cases hw : decode w with
    | error e => exact .inr (.inr (.inl ⟨w, o, rest, e, h, hw, step_illegal h hw⟩))
    | ok i => exact .inr (.inr (.inr ⟨w, o, rest, i, h, hw, step_command h hw⟩))

/-! ### The logarithm commands -/

/-- What a logarithm command delivers for a non-Empty argument: its screening's result, or the engine's value rounded
(45_log2.md R262, R266, R272). -/
def logComputed (screen : FpuValue → Screened) (engine : Rat → Rat) (cw : ControlWord) (X : FpuValue) : Computed :=
  match screen X with
  | .settled K L v => { first := K, second := L, value := v, roundup := false }
  | .ordinary K x =>
    let r := roundT cw (decide (engine x < 0)) (ratMag (engine x))
    { first := K, second := r.kinds, value := r.value, roundup := r.roundup }

theorem logComputed_settled {screen : FpuValue → Screened} {X v : FpuValue} {K L : KindSet}
    (h : screen X = .settled K L v) (engine : Rat → Rat) (cw : ControlWord) :
    logComputed screen engine cw X = { first := K, second := L, value := v, roundup := false } := by
  simp only [logComputed, h]

theorem logComputed_ordinary {screen : FpuValue → Screened} {X : FpuValue} {K : KindSet} {x : Rat}
    (h : screen X = .ordinary K x) (engine : Rat → Rat) (cw : ControlWord) :
    logComputed screen engine cw X =
      { first := K
        second := (roundT cw (decide (engine x < 0)) (ratMag (engine x))).kinds
        value := (roundT cw (decide (engine x < 0)) (ratMag (engine x))).value
        roundup := (roundT cw (decide (engine x < 0)) (ratMag (engine x))).roundup } := by
  simp only [logComputed, h]

/-- The kinds signalled before the engine and those of its rounding are the two signals of one computed result. -/
theorem signal_engineResult (K : KindSet) (y : Rat) (s : State) :
    signal K s (engineResult y) =
      finishComputed
        { first := K
          second := (roundT s.cw (decide (y < 0)) (ratMag y)).kinds
          value := (roundT s.cw (decide (y < 0)) (ratMag y)).value
          roundup := (roundT s.cw (decide (y < 0)) (ratMag y)).roundup } 0 false s := by
  unfold finishComputed
  rcases signal_cases s K (engineResult y) with ⟨hK, h⟩ | ⟨hK, h⟩
  · rw [h, signal_of_masked s hK]
    simp only [engineResult, finishComputed, signal_zero, setSticky_cw]
  · rw [h, signal_of_unmasked s hK]

/-- A logarithm command with a non-Empty argument delivers its computed result in place. -/
theorem logCommand_of_nonempty {s : State} (h : (s.st 0).tag ≠ .empty) (screen : FpuValue → Screened)
    (engine : Rat → Rat) :
    logCommand screen engine s = finishComputed (logComputed screen engine s.cw (s.st 0)) 0 false s := by
  rcases logCommand_cases s screen engine with ⟨he, -⟩ | ⟨K, L, v, -, hs, e⟩ | ⟨K, x, -, hs, e⟩
  · exact absurd he h
  · rw [e, logComputed_settled hs]
  · rw [e, logComputed_ordinary hs]
    exact signal_engineResult K (engine x) s

theorem logCommand_of_empty {s : State} (h : (s.st 0).tag = .empty) (screen : FpuValue → Screened)
    (engine : Rat → Rat) : logCommand screen engine s = stackUnderflow s (writeBack 0 indef false) :=
  if_pos ((isEmpty_iff s 0).mpr h)

end Sys2Proof.Machine
end

section
/-! The payload of an Empty slot cannot be observed (spec/10_state.md R40): every operation takes states that agree
in everything else to states that agree in everything else. -/

namespace Sys2Proof.Machine

/-! ### Values and states that agree but for Empty payloads -/

/-- Two slot values that agree, the payload of an Empty one apart. -/
def SameValue (v w : FpuValue) : Prop := v.tag = w.tag ∧ (v.tag ≠ .empty → v = w)

theorem SameValue.refl (v : FpuValue) : SameValue v v := ⟨rfl, fun _ => rfl⟩

theorem sameValue_emptied (v w : FpuValue) : SameValue { v with tag := .empty } { w with tag := .empty } :=
  ⟨rfl, fun h => absurd rfl h⟩

namespace SameButEmptyPayload

theorem refl (s : State) : SameButEmptyPayload s s := ⟨fun p => SameValue.refl (s.slot p), rfl⟩

variable {s t : State} (h : SameButEmptyPayload s t)
include h

theorem top_eq : s.top = t.top := (congrArg State.top h.2 :)

theorem cw_eq : s.cw = t.cw := (congrArg State.cw h.2 :)

theorem opnd_eq : s.opnd = t.opnd := (congrArg State.opnd h.2 :)

theorem pending_eq : s.pending = t.pending := (congrArg State.pending h.2 :)

theorem statusWord_eq : s.statusWord = t.statusWord := (congrArg State.statusWord h.2 :)

theorem immediate_eq : s.immediate = t.immediate := (congrArg State.immediate h.2 :)

theorem phys_eq (i : RegIdx) : s.phys i = t.phys i := congrArg (· + i) h.top_eq

theorem slot_same (p : RegIdx) : SameValue (s.slot p) (t.slot p) := h.1 p

theorem st_same (i : RegIdx) : SameValue (s.st i) (t.st i) := by
  rw [st_eq, st_eq, h.top_eq]
  exact h.slot_same _

theorem isEmpty_eq (i : RegIdx) : s.isEmpty i = t.isEmpty i := by
  rw [State.isEmpty, State.isEmpty, (h.st_same i).1]

theorem st_eq_of_nonempty {i : RegIdx} (hi : s.isEmpty i = false) : s.st i = t.st i :=
  (h.st_same i).2 fun he => by simp [(isEmpty_iff s i).mpr he] at hi

theorem full_eq : s.full = t.full := by
  rw [State.full, State.full, State.below, State.below, h.top_eq, (h.slot_same _).1]

/-! ### One lemma per update -/

/-- An update `f` that neither reads nor writes slots. -/
theorem update {f : State → State} (hf : ∀ u v, f { u with slots := v } = { f u with slots := v }) :
    SameButEmptyPayload (f s) (f t) := by
  have hslots : ∀ u, (f u).slots = u.slots := fun u => (congrArg State.slots (hf u u.slots) :)
  refine ⟨fun p => ?_, ?_⟩
  · rw [slot_congr (hslots s), slot_congr (hslots t)]
    exact h.slot_same p
  · rw [hslots t, ← hf, h.2]

theorem accept (o : PortWord) (rest : List PortEvent) : SameButEmptyPayload (s.accept o rest) (t.accept o rest) :=
  h.update (f := fun u => u.accept o rest) fun _ _ => rfl

theorem respond (r : Response) : SameButEmptyPayload (respond r s) (respond r t) := h.update fun _ _ => rfl

theorem setSticky (K : KindSet) : SameButEmptyPayload (setSticky K s) (setSticky K t) := h.update fun _ _ => rfl

theorem setC1 (b : Bool) : SameButEmptyPayload (setC1 b s) (setC1 b t) := h.update fun _ _ => rfl

theorem setTop (p : RegIdx) : SameButEmptyPayload (setTop p s) (setTop p t) := h.update fun _ _ => rfl

theorem setSlot (p : RegIdx) {v w : FpuValue} (hv : SameValue v w) :
    SameButEmptyPayload (setSlot p v s) (setSlot p w t) := by
  refine ⟨fun q => ?_, congrArg (fun u : State => { u with slots := (Machine.setSlot p w t).slots }) h.2⟩
  rw [slot_setSlot, slot_setSlot]
  split
  · exact hv
  · exact h.slot_same q

theorem emptyTag (p : RegIdx) : SameButEmptyPayload (emptyTag p s) (emptyTag p t) :=
  h.setSlot p (sameValue_emptied _ _)

theorem emptyAllTags : SameButEmptyPayload (emptyAllTags s) (emptyAllTags t) :=
  (((((((h.emptyTag 0).emptyTag 1).emptyTag 2).emptyTag 3).emptyTag 4).emptyTag 5).emptyTag 6).emptyTag 7

theorem popStack : SameButEmptyPayload (popStack s) (popStack t) := by
  unfold Machine.popStack
  rw [h.top_eq]
  exact (h.emptyTag t.top).setTop (t.top + 1)

theorem popIf (pops : Bool) : SameButEmptyPayload (popIf pops s) (popIf pops t) := by
  cases pops
  · exact h
  · exact h.popStack

theorem pushRaw {v w : FpuValue} (hv : SameValue v w) : SameButEmptyPayload (pushRaw v s) (pushRaw w t) := by
  unfold Machine.pushRaw State.below
  rw [h.top_eq]
  exact (h.setSlot _ hv).setTop _

theorem swapSlots (a b : RegIdx) : SameButEmptyPayload (swapSlots a b s) (swapSlots a b t) :=
  (h.setSlot a (h.slot_same b)).setSlot b (h.slot_same a)

/-! ### One lemma per shared operation -/

theorem signal (K : KindSet) {k k' : State → State}
    (hk : ∀ {s t}, SameButEmptyPayload s t → SameButEmptyPayload (k s) (k' t)) :
    SameButEmptyPayload (signal K s k) (signal K t k') := by
  unfold Machine.signal
  rw [h.cw_eq]
  split
  · exact hk (h.setSticky K)
  · exact (h.setSticky K).respond _

theorem stackUnderflow {k k' : State → State}
    (hk : ∀ {s t}, SameButEmptyPayload s t → SameButEmptyPayload (k s) (k' t)) :
    SameButEmptyPayload (stackUnderflow s k) (stackUnderflow t k') :=
  h.signal _ fun h => hk (h.setC1 true)

theorem stackOverflow {k k' : State → State}
    (hk : ∀ {s t}, SameButEmptyPayload s t → SameButEmptyPayload (k s) (k' t)) :
    SameButEmptyPayload (stackOverflow s k) (stackOverflow t k') :=
  h.signal _ fun h => hk (h.setC1 true)

theorem readReg (i : RegIdx) {k : FpuValue → State → State}
    (hk : ∀ {s t}, SameButEmptyPayload s t → ∀ v, SameButEmptyPayload (k v s) (k v t)) :
    SameButEmptyPayload (readReg i s k) (readReg i t k) := by
  unfold Machine.readReg
  cases hi : s.isEmpty i with
  | true =>
    rw [← h.isEmpty_eq, hi]
    exact h.stackUnderflow fun h => hk h indef
  | false =>
    rw [← h.isEmpty_eq, hi, h.st_eq_of_nonempty hi]
    exact hk h _

theorem push (v : FpuValue) {k kOver : State → State}
    (hk : ∀ {s t}, SameButEmptyPayload s t → SameButEmptyPayload (k s) (k t))
    (hOver : ∀ {s t}, SameButEmptyPayload s t → SameButEmptyPayload (kOver s) (kOver t)) :
    SameButEmptyPayload (push v s k kOver) (push v t k kOver) := by
  unfold Machine.push
  rw [h.full_eq]
  split
  · exact h.stackOverflow fun h => hOver (h.pushRaw (.refl indef))
  · exact hk (h.pushRaw (.refl v))

theorem store (i : RegIdx) {k : State → State}
    (hk : ∀ {s t}, SameButEmptyPayload s t → SameButEmptyPayload (k s) (k t)) :
    SameButEmptyPayload (store i s k) (store i t k) :=
  h.readReg 0 fun h v => by
    rw [h.phys_eq]
    exact hk (h.setSlot _ (.refl v))

theorem writeBack (d : RegIdx) (v : FpuValue) (pops : Bool) :
    SameButEmptyPayload (writeBack d v pops s) (writeBack d v pops t) := by
  unfold Machine.writeBack
  rw [h.phys_eq]
  exact ((h.setSlot _ (.refl v)).popIf pops).respond _

theorem finishComputed (c : Computed) (d : RegIdx) (pops : Bool) :
    SameButEmptyPayload (finishComputed c d pops s) (finishComputed c d pops t) :=
  h.signal _ fun h => h.signal _ fun h => (h.setC1 _).writeBack d _ pops

/-! ### Computing commands -/

theorem anyEmpty_eq (f : Form) : f.anyEmpty s = f.anyEmpty t := by
  unfold Form.anyEmpty
  split <;> simp only [h.isEmpty_eq]

/-- An operand form that finds no Empty register reads the same operands from both states. -/
theorem operands_eq {f : Form} (hf : f.anyEmpty s = false) : f.operands s = f.operands t := by
  have h0 : s.st 0 = t.st 0 := h.st_eq_of_nonempty (by unfold Form.anyEmpty at hf; split at hf <;> simp_all)
  have hoth : f.oth s = f.oth t := by
    unfold Form.anyEmpty at hf
    unfold Form.oth
    cases hother : f.other with
    | imm v => rfl
    | reg i => exact h.st_eq_of_nonempty (by simp_all)
  simp only [Form.operands, h0, hoth]

theorem arith (op : ArithOp) (f : Form) : SameButEmptyPayload (arith op f s) (arith op f t) := by
  rcases arith_cases s op f with ⟨hf, e⟩ | ⟨hf, e⟩ <;> rcases arith_cases t op f with ⟨hf', e'⟩ | ⟨hf', e'⟩ <;>
    rw [e, e']
  · exact h.stackUnderflow fun h => h.writeBack _ _ _
  · simp [h.anyEmpty_eq, hf'] at hf
  · simp [h.anyEmpty_eq, hf'] at hf
  · rw [h.cw_eq, h.operands_eq hf]
    exact h.finishComputed _ _ _

theorem logCommand (screen : FpuValue → Screened) (engine : Rat → Rat) :
    SameButEmptyPayload (logCommand screen engine s) (logCommand screen engine t) := by
  by_cases he : (s.st 0).tag = .empty
  · rw [logCommand_of_empty he, logCommand_of_empty ((h.st_same 0).1 ▸ he)]
    exact h.stackUnderflow fun h => h.writeBack _ _ _
  · rw [logCommand_of_nonempty he, logCommand_of_nonempty ((h.st_same 0).1 ▸ he), h.cw_eq, (h.st_same 0).2 he]
    exact h.finishComputed _ _ _

theorem withImmediate {k : FpuValue → State → State}
    (hk : ∀ v, SameButEmptyPayload (k v s) (k v t)) :
    SameOutcomeButEmptyPayload (withImmediate s fun v => k v s) (withImmediate t fun v => k v t) := by
  unfold Machine.withImmediate
  rw [h.immediate_eq]
  cases t.immediate with
  | some v => exact hk v
  | none => exact rfl

/-! ### Commands -/

theorem execFinit : SameOutcomeButEmptyPayload (execFinit s) (execFinit t) :=
  (h.emptyAllTags.update (f := fun u => { u with
    top := 0, cw := ControlWord.default, sticky := 0, c0 := false, c1 := false, c2 := false, c3 := false })
    fun _ _ => rfl).respond _

theorem execLdcw : SameOutcomeButEmptyPayload (execLdcw s) (execLdcw t) := by
  have hload : ControlWord.ofWord (s.opnd.extractLsb' 0 16) = ControlWord.ofWord (t.opnd.extractLsb' 0 16) := by
    rw [h.opnd_eq]
  unfold Machine.execLdcw
  rw [hload]
  cases ControlWord.ofWord (t.opnd.extractLsb' 0 16) with
  | some cw => exact (h.update (f := fun u => { u with cw := cw }) fun _ _ => rfl).respond _
  | none => exact h.respond _

theorem execFldReg (i : RegIdx) : SameOutcomeButEmptyPayload (execFldReg i s) (execFldReg i t) := by
  unfold Machine.execFldReg
  rw [h.full_eq, h.isEmpty_eq]
  refine (?_ : SameButEmptyPayload _ _)
  split
  · exact h.stackOverflow fun h => (h.pushRaw (.refl indef)).respond _
  · split
    · exact h.stackUnderflow fun h => (h.pushRaw (.refl indef)).respond _
    · exact (h.pushRaw (h.st_same i)).respond _

theorem execFldc (c : ConstIdx) : SameOutcomeButEmptyPayload (execFldc c s) (execFldc c t) := by
  unfold Machine.execFldc
  refine (?_ : SameButEmptyPayload _ _)
  split
  · exact h.push _ (fun h => (h.setC1 false).respond _) fun h => h.respond _
  · exact h.respond _

theorem execFxch (i : RegIdx) : SameOutcomeButEmptyPayload (execFxch i s) (execFxch i t) := by
  have hswap : ∀ {s t}, SameButEmptyPayload s t → SameButEmptyPayload
      (done (Machine.swapSlots (s.phys 0) (s.phys i) s)) (done (Machine.swapSlots (t.phys 0) (t.phys i) t)) :=
    fun h => by
      rw [h.phys_eq, h.phys_eq]
      exact (h.swapSlots _ _).respond _
  unfold Machine.execFxch
  rw [h.isEmpty_eq, h.isEmpty_eq]
  refine (?_ : SameButEmptyPayload _ _)
  split
  · exact h.stackUnderflow hswap
  · exact hswap h

theorem emptyTag_phys (i : RegIdx) :
    SameButEmptyPayload (Machine.emptyTag (s.phys i) s) (Machine.emptyTag (t.phys i) t) := by
  rw [h.phys_eq]
  exact h.emptyTag _

/-- Every command answers both states alike (10_state.md R40). -/
theorem exec (i : Instr) : SameOutcomeButEmptyPayload (exec i s) (exec i t) := by
  cases i with
  | finit => exact h.execFinit
  | fclex => exact (h.update (f := fun u => { u with sticky := 0 }) fun _ _ => rfl).respond _
  | stsw =>
    unfold Machine.exec Machine.execStsw
    rw [h.statusWord_eq]
    exact h.respond _
  | stcw =>
    unfold Machine.exec Machine.execStcw
    rw [h.cw_eq]
    exact h.respond _
  | ldcw => exact h.execLdcw
  | fldReg n => exact h.execFldReg n
  | fldImm =>
    exact h.withImmediate (k := fun v s => Machine.push v s done done) fun v =>
      h.push v (fun h => h.respond _) fun h => h.respond _
  | fldc c => exact h.execFldc c
  | fst n => exact h.store n fun h => h.respond _
  | fstp n => exact h.store n fun h => h.popStack.respond _
  | fxch n => exact h.execFxch n
  | ffree n => exact (h.emptyTag_phys n).respond _
  | ffreep n => exact (h.emptyTag_phys n).popStack.respond _
  | pop => exact h.popStack.respond _
  | rdst n => exact h.readReg n fun h _ => h.respond _
  | faddImm | fsubImm | fsubrImm | fmulImm | fdivImm | fdivrImm =>
    exact h.withImmediate (k := fun v => Machine.arith _ (formImm _ v)) fun _ => h.arith _ _
  | fl2x | fl2xp1 => exact h.logCommand _ _
  | _ => exact h.arith _ _

end SameButEmptyPayload

/-! ### The obligation -/

/-- Settles O60: the two states hold the same port events, and each thing a step can do takes them to states that agree
again. -/
theorem emptyPayloadUnobservable : Obligations.EmptyPayloadUnobservable := fun s t h => by
  rcases step_cases s with ⟨hp, e⟩ | ⟨rest, hp, e⟩ | ⟨w, o, rest, err, hp, hw, e⟩ | ⟨w, o, rest, i, hp, hw, e⟩ <;>
    rw [e]
  · rw [step_idle (h.pending_eq ▸ hp)]
    exact h
  · rw [step_hardReset (h.pending_eq ▸ hp)]
    exact SameButEmptyPayload.refl _
  · rw [step_illegal (h.pending_eq ▸ hp) hw]
    exact (h.accept o rest).respond _
  · rw [step_command (h.pending_eq ▸ hp) hw]
    exact (h.accept o rest).exec i

end Sys2Proof.Machine
end

section
/-! Every value the block writes is well-formed, so every step keeps the slots so (spec/10_state.md R62). -/

namespace Sys2Proof.Machine

/-! ### Results of the rounding function (spec/41_arith_common.md R165 to R171) -/

/-- An exponent in the range of the 16-bit field is what the field holds. -/
theorem expField_toInt {e : Int} (h1 : -32768 ≤ e) (h2 : e < 32768) : (expField e).toInt = e := by
  rw [expField, BitVec.toInt_ofInt]
  exact Int.bmod_eq_of_le (by omega) (by omega)

/-- A significand below `2^63` has its leading bit clear. -/
theorem ofNat_getLsbD_63_of_lt {n : Nat} (h : n < 2 ^ 63) : (BitVec.ofNat 64 n).getLsbD 63 = false := by
  rw [BitVec.getLsbD_ofNat, Nat.testBit_lt_two_pow h, Bool.and_false]

/-- A significand of 64 bits has its leading bit set. -/
theorem ofNat_getLsbD_63_of_ge {n : Nat} (h1 : 2 ^ 63 ≤ n) (h2 : n < 2 ^ 64) :
    (BitVec.ofNat 64 n).getLsbD 63 = true := by
  rw [BitVec.getLsbD_ofNat, Nat.testBit_of_two_pow_le_and_two_pow_add_one_gt h1 h2]
  rfl

/-- A non-zero significand that fits the field is not the zero field. -/
theorem ofNat_ne_zero {n : Nat} (h0 : n ≠ 0) (h : n < 2 ^ 63) : BitVec.ofNat 64 n ≠ 0 := fun e => by
  have := congrArg BitVec.toNat e
  rw [BitVec.toNat_ofNat, Nat.mod_eq_of_lt (by omega)] at this
  exact h0 this

/-- On the fixed grid, a magnitude below `2^EMIN` is a significand below `2^63`. -/
theorem denormal_sig_lt {n : Nat} {q : Int} (hq : Config.gridExp ≤ q) (he : (n.log2 : Int) + q < Config.emin) :
    n * 2 ^ (q - Config.gridExp).toNat < 2 ^ 63 := by
  simp only [Config.gridExp, Config.emin] at *
  calc n * 2 ^ (q - (-16382 - 63)).toNat
      < 2 ^ (n.log2 + 1) * 2 ^ (q - (-16382 - 63)).toNat :=
        Nat.mul_lt_mul_of_pos_right Nat.lt_log2_self (Nat.two_pow_pos _)
    _ = 2 ^ (n.log2 + 1 + (q - (-16382 - 63)).toNat) := (Nat.pow_add ..).symm
    _ ≤ 2 ^ 63 := Nat.pow_le_pow_right (by norm_num) (by omega)

/-- The significand of a non-zero magnitude, shifted so that its leading bit is bit 63. -/
theorem normalised_sig_bounds {n : Nat} (hn : n ≠ 0) :
    2 ^ 63 ≤ n * 2 ^ 63 / 2 ^ n.log2 ∧ n * 2 ^ 63 / 2 ^ n.log2 < 2 ^ 64 := by
  have hlow : 2 ^ n.log2 ≤ n := Nat.log2_self_le hn
  have hhigh : n < 2 ^ n.log2 * 2 := Nat.lt_log2_self
  constructor
  · rw [Nat.le_div_iff_mul_le (Nat.two_pow_pos _)]
    nlinarith
  · rw [Nat.div_lt_iff_lt_mul (Nat.two_pow_pos _)]
    nlinarith

/-- `make` gives a well-formed value of any magnitude on the grid within the exponent range (R170, R171). -/
theorem makeValue_wf (s : Bool) {n : Nat} {q : Int} (hq : Config.gridExp ≤ q)
    (hmax : n ≠ 0 → (n.log2 : Int) + q ≤ Config.emax) : (makeValue s n q).wf = true := by
  unfold makeValue
  split
  · exact zeroOf_wf s
  · rename_i hn
    have hmax := hmax hn
    dsimp only
    split
    · rename_i he
      have hlt := denormal_sig_lt hq he
      have hexp : (expField Config.emin).toInt = Config.emin := by decide
      simp only [FpuValue.wf, hexp, ofNat_getLsbD_63_of_lt hlt, ofNat_ne_zero (by positivity) hlt, decide_true, ne_eq,
        not_false_eq_true, Bool.not_false, Bool.and_self]
    · rename_i he
      obtain ⟨hlow, hhigh⟩ := normalised_sig_bounds hn
      have hexp : (expField ((n.log2 : Int) + q)).toInt = (n.log2 : Int) + q := by
        simp only [Config.emin, Config.emax] at he hmax
        exact expField_toInt (by omega) (by omega)
      simp only [FpuValue.wf, ofNat_getLsbD_63_of_ge hlow hhigh, hexp, hmax, not_lt.mp he, decide_true, Bool.and_self]

/-- The result of an overflow is well-formed (R167). -/
theorem overflowValue_wf (cw : ControlWord) (s : Bool) : (overflowValue cw s).wf = true := by
  have key : ∀ pc : Precision, (maxSig pc).getLsbD 63 = true := by rintro (_ | _ | _) <;> decide
  have hexp : (expField Config.emax).toInt = Config.emax := by decide
  unfold overflowValue
  split
  · exact infOf_wf s
  · have hrange : Config.emin ≤ Config.emax := by decide
    simp only [FpuValue.wf, hexp, key, hrange, le_refl, decide_true, Bool.and_self]

/-- What the rounding function delivers from its grid is well-formed (R171). -/
theorem deliver_roundGrid_wf (cw : ControlWord) (s : Bool) (m : Frac) (K : KindSet) :
    (deliver cw s (roundGrid cw s m) K).value.wf = true := by
  unfold deliver
  split
  · exact overflowValue_wf cw s
  · rename_i hov
    refine makeValue_wf s (le_max_right _ _) fun hn => ?_
    simp only [Grid.overflows, hn, ne_eq, not_false_eq_true, decide_true, Bool.true_and, decide_eq_true_eq] at hov
    omega

theorem round_value_wf (cw : ControlWord) (s : Bool) (m : Frac) : (round cw s m).value.wf = true :=
  deliver_roundGrid_wf cw s m _

theorem roundT_value_wf (cw : ControlWord) (s : Bool) (m : Frac) : (roundT cw s m).value.wf = true :=
  deliver_roundGrid_wf cw s m _

/-! ### A property of all slots -/

/-- Every slot of the state has the property `G`. -/
def State.SlotsAll (G : FpuValue → Prop) (s : State) : Prop := ∀ p : RegIdx, G (s.slot p)

/-- A property of slot values that every well-formed value has and that says of a NaN that it is well-formed: what the
block needs of its operands to write values of the same kind. -/
structure KeptByWrites (G : FpuValue → Prop) : Prop where
  of_wf : ∀ {v}, v.wf = true → G v
  nan_wf : ∀ {v}, G v → v.tag = .nan → v.wf = true

theorem keptByWrites_wf : KeptByWrites fun v => v.wf = true := ⟨id, fun h _ => h⟩

theorem keptByWrites_usable : KeptByWrites fun v => v.usable = true :=
  ⟨FpuValue.usable_of_wf, fun {v} h ht =>
    FpuValue.usable_eq_wf (v := v) (fun e => nomatch ht.symm.trans e) ▸ h⟩

namespace State.SlotsAll

variable {G : FpuValue → Prop} {s : State}

theorem setSlot (h : s.SlotsAll G) (p : RegIdx) {v : FpuValue} (hv : G v) : (setSlot p v s).SlotsAll G := fun q => by
  rw [slot_setSlot]
  split
  · exact hv
  · exact h q

variable (hG : KeptByWrites G) (h : s.SlotsAll G)
include hG h

theorem emptyTag (p : RegIdx) : (emptyTag p s).SlotsAll G := h.setSlot p (hG.of_wf (wf_of_empty _))

theorem popStack : (popStack s).SlotsAll G := h.emptyTag hG s.top

theorem popIf (pops : Bool) : (popIf pops s).SlotsAll G := by
  cases pops
  · exact h
  · exact h.popStack hG

end State.SlotsAll

namespace State.SlotsAll

variable {G : FpuValue → Prop} {s : State}

theorem emptyAllTags (hG : KeptByWrites G) (s : State) : (emptyAllTags s).SlotsAll G := fun p => by
  rw [slot_emptyAllTags]
  exact hG.of_wf (wf_of_empty _)

variable (h : s.SlotsAll G)
include h

theorem pushRaw {v : FpuValue} (hv : G v) : (pushRaw v s).SlotsAll G := h.setSlot s.below hv

theorem swapSlots (a b : RegIdx) : (swapSlots a b s).SlotsAll G := (h.setSlot a (h b)).setSlot b (h a)

theorem signal (K : KindSet) {k : State → State} (hk : ∀ {s}, s.SlotsAll G → (k s).SlotsAll G) :
    (signal K s k).SlotsAll G := by
  rcases signal_cases s K k with ⟨-, e⟩ | ⟨-, e⟩ <;> rw [e]
  · exact hk (s := Machine.setSticky K s) h
  · exact h

theorem stackUnderflow {k : State → State} (hk : ∀ {s}, s.SlotsAll G → (k s).SlotsAll G) :
    (stackUnderflow s k).SlotsAll G := h.signal _ fun {s} h => hk (s := setC1 true s) h

theorem stackOverflow {k : State → State} (hk : ∀ {s}, s.SlotsAll G → (k s).SlotsAll G) :
    (stackOverflow s k).SlotsAll G := h.signal _ fun {s} h => hk (s := setC1 true s) h

end State.SlotsAll

namespace State.SlotsAll

variable {G : FpuValue → Prop} (hG : KeptByWrites G) {s : State} (h : s.SlotsAll G)
include hG h

/-! ### Shared operations -/

theorem readReg (i : RegIdx) {k : FpuValue → State → State}
    (hk : ∀ {s v}, s.SlotsAll G → G v → (k v s).SlotsAll G) : (readReg i s k).SlotsAll G := by
  rcases readReg_cases s i k with ⟨-, e⟩ | ⟨-, e⟩ <;> rw [e]
  · exact hk h (h _)
  · exact h.stackUnderflow fun h => hk h (hG.of_wf indef_wf)

theorem push {v : FpuValue} (hv : G v) {k kOver : State → State} (hk : ∀ {s}, s.SlotsAll G → (k s).SlotsAll G)
    (hOver : ∀ {s}, s.SlotsAll G → (kOver s).SlotsAll G) : (push v s k kOver).SlotsAll G := by
  rcases push_cases s v k kOver with ⟨-, e⟩ | ⟨-, e⟩ <;> rw [e]
  · exact hk (h.pushRaw hv)
  · exact h.stackOverflow fun h => hOver (h.pushRaw (hG.of_wf indef_wf))

theorem store (i : RegIdx) {k : State → State} (hk : ∀ {s}, s.SlotsAll G → (k s).SlotsAll G) :
    (store i s k).SlotsAll G := h.readReg hG 0 fun h hv => hk (h.setSlot _ hv)

theorem writeBack (d : RegIdx) {v : FpuValue} (hv : G v) (pops : Bool) : (writeBack d v pops s).SlotsAll G :=
  (h.setSlot (s.phys d) hv).popIf hG pops

theorem finishComputed {c : Computed} (hc : c.value.wf = true) (d : RegIdx) (pops : Bool) :
    (finishComputed c d pops s).SlotsAll G :=
  h.signal _ fun h => h.signal _ fun {s} h =>
    State.SlotsAll.writeBack hG (s := setC1 c.roundup s) h d (hG.of_wf hc) pops

end State.SlotsAll

/-! ### Computed results -/

/-- The first NaN, quieted, is well-formed. -/
theorem nanResult_value_wf {A B : FpuValue} (hA : A.tag = .nan → A.wf = true) (hB : B.tag = .nan → B.wf = true)
    (h : A.tag = .nan ∨ B.tag = .nan) : (nanResult A B).value.wf = true := by
  unfold nanResult
  by_cases hn : A.tag = .nan
  · simp only [hn, if_true]
    exact quieted_wf (hA hn) hn
  · have hn' : B.tag = .nan := h.resolve_left hn
    simp only [hn, if_false]
    exact quieted_wf (hB hn') hn'

theorem specialOp_value_wf {op : ArithOp} {cw : ControlWord} {A B v : FpuValue} {K : KindSet}
    (h : specialOp op cw A B = some (K, v)) : v.wf = true := by
  unfold specialOp at h
  cases op <;> (repeat' split at h) <;> cases h <;> simp

theorem computeFinite_value_wf (op : ArithOp) (cw : ControlWord) (A B : FpuValue) :
    (computeFinite op cw A B).value.wf = true := by
  unfold computeFinite
  dsimp only
  split
  · exact zeroOf_wf _
  · exact round_value_wf _ _ _

/-- What a primitive computes is well-formed where its NaN operands are (41_arith_common.md R151). -/
theorem compute_value_wf (op : ArithOp) (cw : ControlWord) {A B : FpuValue} (hA : A.tag = .nan → A.wf = true)
    (hB : B.tag = .nan → B.wf = true) : (compute op cw A B).value.wf = true := by
  unfold compute
  split
  · exact nanResult_value_wf hA hB ‹_›
  · split
    · exact indef_wf
    · split
      · exact specialOp_value_wf ‹_›
      · exact computeFinite_value_wf op cw A B

/-- A screening settles on well-formed values only, its NaN argument being well-formed. -/
def SettlesWf (screen : FpuValue → Screened) : Prop :=
  ∀ {X v : FpuValue} {K L : KindSet}, (X.tag = .nan → X.wf = true) → screen X = .settled K L v → v.wf = true

theorem screenL2_settlesWf : SettlesWf screenL2 := fun {X v K L} hX h => by
  unfold screenL2 at h
  by_cases hn : X.tag = .nan
  · rw [if_pos hn] at h
    cases h
    exact quieted_wf (hX hn) hn
  · rw [if_neg hn] at h
    repeat' split at h
    all_goals cases h <;> simp

theorem screenL2P1_settlesWf : SettlesWf screenL2P1 := fun {X v K L} hX h => by
  unfold screenL2P1 at h
  by_cases hn : X.tag = .nan
  · rw [if_pos hn] at h
    cases h
    exact quieted_wf (hX hn) hn
  · rw [if_neg hn] at h
    repeat' split at h
    all_goals cases h <;> simp

theorem logComputed_value_wf {screen : FpuValue → Screened} (hs : SettlesWf screen) (engine : Rat → Rat)
    (cw : ControlWord) {X : FpuValue} (hX : X.tag = .nan → X.wf = true) :
    (logComputed screen engine cw X).value.wf = true := by
  cases h : screen X with
  | settled K L v => exact logComputed_settled h engine cw ▸ hs hX h
  | ordinary K x =>
    rw [logComputed_ordinary h]
    exact roundT_value_wf _ _ _

/-! ### Commands -/

/-- A command that takes an immediate has the property of its slots if its continuation gives it. -/
theorem withImmediate_slotsAll {G : FpuValue → Prop} {s t : State} {k : FpuValue → State}
    (himm : ∀ v, s.immediate = some v → G v)
    (e : withImmediate s k = .next t) (hk : ∀ v, G v → (k v).SlotsAll G) : t.SlotsAll G := by
  cases hv : s.immediate with
  | none => rw [withImmediate_none s hv] at e; cases e
  | some v =>
    rw [withImmediate_some s hv] at e
    cases e
    exact hk v (himm v hv)

namespace State.SlotsAll

variable {G : FpuValue → Prop} {s : State} (h : s.SlotsAll G)
include h

theorem execLdcw {t : State} (e : execLdcw s = .next t) : t.SlotsAll G := by
  unfold Machine.execLdcw at e
  cases e
  split <;> exact h

theorem execFxch {t : State} (i : RegIdx) (e : execFxch i s = .next t) : t.SlotsAll G := by
  unfold Machine.execFxch at e
  cases e
  split
  · exact h.stackUnderflow fun h => h.swapSlots _ _
  · exact h.swapSlots _ _

end State.SlotsAll

namespace State.SlotsAll

variable {G : FpuValue → Prop} (hG : KeptByWrites G) {s : State} (h : s.SlotsAll G)
include hG h

/-- An arithmetic command keeps the slots, an immediate operand having the property too. -/
theorem arith (op : ArithOp) (f : Form) (hf : ∀ v, f.other = .imm v → G v) : (arith op f s).SlotsAll G := by
  rcases arith_cases s op f with ⟨-, e⟩ | ⟨-, e⟩ <;> rw [e]
  · exact h.stackUnderflow fun h => h.writeBack hG _ (hG.of_wf indef_wf) _
  · have hoth : G (f.oth s) := by
      unfold Form.oth
      split
      · exact h _
      · exact hf _ ‹_›
    have hops : G (f.operands s).1 ∧ G (f.operands s).2 := by
      unfold Form.operands
      split
      · exact ⟨h _, hoth⟩
      · exact ⟨hoth, h _⟩
      · exact ⟨hoth, h _⟩
      · exact ⟨h _, hoth⟩
    exact h.finishComputed hG (compute_value_wf op s.cw (hG.nan_wf hops.1) (hG.nan_wf hops.2)) _ _

theorem logCommand {screen : FpuValue → Screened} (hs : SettlesWf screen) (engine : Rat → Rat) :
    (logCommand screen engine s).SlotsAll G := by
  by_cases he : (s.st 0).tag = .empty
  · rw [logCommand_of_empty he]
    exact h.stackUnderflow fun h => h.writeBack hG _ (hG.of_wf indef_wf) _
  · rw [logCommand_of_nonempty he]
    exact h.finishComputed hG (logComputed_value_wf hs engine s.cw (hG.nan_wf (h _))) _ _

theorem execFldReg {t : State} (i : RegIdx) (e : execFldReg i s = .next t) : t.SlotsAll G := by
  have hindef : G indef := hG.of_wf indef_wf
  unfold Machine.execFldReg at e
  cases e
  split
  · exact h.stackOverflow fun h => h.pushRaw hindef
  · split
    · exact h.stackUnderflow fun h => h.pushRaw hindef
    · exact h.pushRaw (h _)

theorem execFldc {t : State} (c : ConstIdx) (e : execFldc c s = .next t) : t.SlotsAll G := by
  unfold Machine.execFldc at e
  cases e
  split
  · exact h.push hG (hG.of_wf (constTable_wf ‹_›).1) (fun h => h) fun h => h
  · exact h

/-- Every command keeps the property of all slots, an immediate that it takes having it too. -/
theorem exec {i : Instr} {t : State} (himm : usesImmediate i = true → ∀ v, s.immediate = some v → G v)
    (e : exec i s = .next t) : t.SlotsAll G := by
  cases i with
  | finit => cases e; exact State.SlotsAll.emptyAllTags hG s
  | fclex | stsw | stcw => cases e; exact h
  | ldcw => exact h.execLdcw e
  | fldReg n => exact h.execFldReg hG n e
  | fldImm => exact withImmediate_slotsAll (himm rfl) e fun v hv => h.push hG hv (fun h => h) fun h => h
  | fldc c => exact h.execFldc hG c e
  | fst n => cases e; exact h.store hG n fun h => h
  | fstp n => cases e; exact h.store hG n fun h => h.popStack hG
  | fxch n => exact h.execFxch n e
  | ffree n => cases e; exact h.emptyTag hG _
  | ffreep n => cases e; exact (h.emptyTag hG _).popStack hG
  | pop => cases e; exact h.popStack hG
  | rdst n => cases e; exact h.readReg hG n fun h _ => h
  | faddImm | fsubImm | fsubrImm | fmulImm | fdivImm | fdivrImm =>
    exact withImmediate_slotsAll (himm rfl) e fun v hv => h.arith hG _ _ fun u hu => by cases hu; exact hv
  | fl2x => cases e; exact h.logCommand hG screenL2_settlesWf _
  | fl2xp1 => cases e; exact h.logCommand hG screenL2P1_settlesWf _
  | _ => cases e; exact h.arith hG _ _ fun u hu => nomatch hu

/-- Every step keeps the property of all slots, an immediate that it takes having it too. -/
theorem step {t : State}
    (himm : ∀ w o rest i v, s.pending = .command w o :: rest → decode w = .ok i → usesImmediate i = true →
      (s.accept o rest).immediate = some v → G v)
    (e : step s = .next t) : t.SlotsAll G := by
  rcases step_cases s with ⟨-, e'⟩ | ⟨rest, -, e'⟩ | ⟨w, o, rest, err, -, -, e'⟩ | ⟨w, o, rest, i, hp, hw, e'⟩ <;>
    rw [e'] at e
  · cases e; exact h
  · cases e
    exact fun p => hG.of_wf (slot_hardReset rest p ▸ emptySlot_wf)
  · cases e; exact h
  · exact State.SlotsAll.exec hG (s := s.accept o rest) h (fun hi v hv => himm w o rest i v hp hw hi hv) e

end State.SlotsAll

/-! ### The obligations -/

/-- Settles O59, by the one invariant read twice: of well-formed slots, which needs the proviso of R62 for the
immediate, and of usable slots, where the block itself refuses every other immediate. -/
theorem slotsStayWellFormed : Obligations.SlotsStayWellFormed := by
  refine ⟨fun s t h hwf e => ?_, fun s t h e => ?_⟩
  · refine State.SlotsAll.step keptByWrites_wf h (fun w o rest i v hp hw hi hv => ?_) e
    exact hwf w o rest i v hp hw hi ((immediate_eq_some_iff _ v).mp hv).1
  · refine State.SlotsAll.step keptByWrites_usable h (fun w o rest i v _ _ _ hv => ?_) e
    exact ((immediate_eq_some_iff _ v).mp hv).2.1

/-- Settles O58: every slot after reset is Empty, and an Empty slot is well-formed. -/
theorem resetSlotsWellFormed : Obligations.ResetSlotsWellFormed :=
  have hreset : ∀ rest, (State.hardReset rest).SlotsWf := fun rest p => slot_hardReset rest p ▸ emptySlot_wf
  ⟨⟨hreset [], hreset⟩, fun p => FpuValue.usable_of_wf (hreset [] p),
    fun rest p => FpuValue.usable_of_wf (hreset rest p)⟩

end Sys2Proof.Machine
end

section
/-! The word of a decoded command (spec/30_encoding.md R91 to R93): the decoder reads every field, so the command's own
word is the word decoded. -/

namespace Sys2Proof

/-- A word with `Z = 0` is its fields put together (R91). -/
theorem packWord_fields {w : CmdWord} (hz : fieldZ w = 0) :
    packWord (fieldOpc w) (fieldP w) (fieldR w) (fieldD w) (fieldM w) (fieldIdx w) = w := by
  have hz' : ∀ k : Fin 3, (fieldZ w)[k] = false := fun k => by simp [hz]
  have h4 : w[4] = false := by simpa [fieldZ] using hz' 0
  have h5 : w[5] = false := by simpa [fieldZ] using hz' 1
  have h6 : w[6] = false := by simpa [fieldZ] using hz' 2
  apply BitVec.eq_of_getLsbD_eq
  intro k hk
  change BitVec.getLsbD (w := 5 + 1 + 1 + 1 + 1 + 3 + 4) (fieldOpc w ++ BitVec.ofBool (fieldP w) ++
    BitVec.ofBool (fieldR w) ++ BitVec.ofBool (fieldD w) ++ BitVec.ofBool (fieldM w) ++ (0 : BitVec 3) ++
    fieldIdx w) k = _
  simp only [BitVec.getLsbD_append, fieldOpc, fieldP, fieldR, fieldD, fieldM, fieldIdx, BitVec.getLsbD_ofBool]
  interval_cases k <;> simp [h4, h5, h6]

/-- The command is encoded by the operation code `opc` and the other fields of `w`. -/
def EncodedBy (opc : BitVec 5) (w : CmdWord) (i : Instr) : Prop :=
  encode i = packWord opc (fieldP w) (fieldR w) (fieldD w) (fieldM w) (fieldIdx w)

/-- A command encoded by the fields of a word, its operation code included, is encoded by the word. -/
theorem EncodedBy.encode_eq {opc : BitVec 5} {w : CmdWord} {i : Instr} (h : EncodedBy opc w i) (hz : fieldZ w = 0)
    (hopc : (fieldOpc w).toNat = opc.toNat) : encode i = w := by
  rw [h, ← BitVec.eq_of_toNat_eq hopc, packWord_fields hz]

section Forms

variable {w : CmdWord} {j : Instr} {opc : BitVec 5} {p r d m : Bool}

/-! ### Forms without an index, with a register index, with a constant index -/

theorem encodedBy_of_noIndex {i : Instr} (hp : fieldP w = p) (hr : fieldR w = r) (hd : fieldD w = d)
    (hm : fieldM w = m) (h : noIndex w i = .ok j) (he : encode i = packWord opc p r d m 0) : EncodedBy opc w j := by
  unfold noIndex at h
  split at h
  · cases h
    rw [EncodedBy, he, hp, hr, hd, hm, ‹fieldIdx w = 0›]
  · cases h

theorem encodedBy_of_regIndex {f : RegIdx → Instr} (hp : fieldP w = p) (hr : fieldR w = r) (hd : fieldD w = d)
    (hm : fieldM w = m) (h : regIndex w f = .ok j) (he : ∀ i, encode (f i) = packWord opc p r d m (regField i)) :
    EncodedBy opc w j := by
  have hidx : ∀ x : BitVec 4, ¬ x.getLsbD 3 = true → regField (x.extractLsb' 0 3) = x := by unfold regField; decide
  unfold regIndex at h
  split at h
  · cases h
  · cases h
    rw [EncodedBy, he, hp, hr, hd, hm, hidx _ ‹_›]

theorem encodedBy_of_constIndex (hp : fieldP w = p) (hr : fieldR w = r) (hd : fieldD w = d) (hm : fieldM w = m)
    (h : constIndex w = .ok j) (he : ∀ c, encode (.fldc c) = packWord opc p r d m c) : EncodedBy opc w j := by
  unfold constIndex at h
  split at h
  · cases h
    rw [EncodedBy, he, hp, hr, hd, hm]
  · cases h

/-! ### The flag combinations of each family (R93) -/

theorem encodedBy_of_plainForm {i : Instr} (h : plainForm w i = .ok j)
    (he : encode i = packWord opc false false false false 0) : EncodedBy opc w j := by
  unfold plainForm at h
  split at h
  next hp hr hd hm => exact encodedBy_of_noIndex hp hr hd hm h he
  next => cases h

theorem encodedBy_of_plainRegForm {f : RegIdx → Instr} (h : plainRegForm w f = .ok j)
    (he : ∀ i, encode (f i) = packWord opc false false false false (regField i)) : EncodedBy opc w j := by
  unfold plainRegForm at h
  split at h
  next hp hr hd hm => exact encodedBy_of_regIndex hp hr hd hm h he
  next => cases h

theorem encodedBy_of_popRegForm {f fp : RegIdx → Instr} (h : popRegForm w f fp = .ok j)
    (he : ∀ i, encode (f i) = packWord opc false false false false (regField i))
    (hep : ∀ i, encode (fp i) = packWord opc true false false false (regField i)) : EncodedBy opc w j := by
  unfold popRegForm at h
  split at h
  next hp hr hd hm => exact encodedBy_of_regIndex hp hr hd hm h he
  next hp hr hd hm => exact encodedBy_of_regIndex hp hr hd hm h hep
  next => cases h

theorem encodedBy_of_fldForms (h : fldForms w = .ok j) : EncodedBy 0x08 w j := by
  unfold fldForms at h
  split at h
  next hp hr hd hm => exact encodedBy_of_regIndex hp hr hd hm h fun _ => rfl
  next hp hr hd hm => exact encodedBy_of_noIndex hp hr hd hm h rfl
  next => cases h

theorem encodedBy_of_fldcForm (h : fldcForm w = .ok j) : EncodedBy 0x09 w j := by
  unfold fldcForm at h
  split at h
  next hp hr hd hm => exact encodedBy_of_constIndex hp hr hd hm h fun _ => rfl
  next => cases h

theorem encodedBy_of_commutativeForms {stSti stiSt popForm : RegIdx → Instr} {imm : Instr}
    (h : commutativeForms w stSti stiSt imm popForm = .ok j)
    (h1 : ∀ i, encode (stSti i) = packWord opc false false false false (regField i))
    (h2 : ∀ i, encode (stiSt i) = packWord opc false false true false (regField i))
    (h3 : encode imm = packWord opc false false false true 0)
    (h4 : ∀ i, encode (popForm i) = packWord opc true false true false (regField i)) : EncodedBy opc w j := by
  unfold commutativeForms at h
  split at h
  next hp hr hd hm => exact encodedBy_of_regIndex hp hr hd hm h h1
  next hp hr hd hm => exact encodedBy_of_regIndex hp hr hd hm h h2
  next hp hr hd hm => exact encodedBy_of_noIndex hp hr hd hm h h3
  next hp hr hd hm => exact encodedBy_of_regIndex hp hr hd hm h h4
  next => cases h

theorem encodedBy_of_reversibleForms {stSti stiSt rStSti rStiSt popForm rPopForm : RegIdx → Instr} {imm rImm : Instr}
    (h : reversibleForms w stSti stiSt imm rStSti rStiSt rImm popForm rPopForm = .ok j)
    (h1 : ∀ i, encode (stSti i) = packWord opc false false false false (regField i))
    (h2 : ∀ i, encode (stiSt i) = packWord opc false false true false (regField i))
    (h3 : encode imm = packWord opc false false false true 0)
    (h4 : ∀ i, encode (rStSti i) = packWord opc false true false false (regField i))
    (h5 : ∀ i, encode (rStiSt i) = packWord opc false true true false (regField i))
    (h6 : encode rImm = packWord opc false true false true 0)
    (h7 : ∀ i, encode (popForm i) = packWord opc true false true false (regField i))
    (h8 : ∀ i, encode (rPopForm i) = packWord opc true true true false (regField i)) : EncodedBy opc w j := by
  unfold reversibleForms at h
  split at h
  next hp hr hd hm => exact encodedBy_of_regIndex hp hr hd hm h h1
  next hp hr hd hm => exact encodedBy_of_regIndex hp hr hd hm h h2
  next hp hr hd hm => exact encodedBy_of_noIndex hp hr hd hm h h3
  next hp hr hd hm => exact encodedBy_of_regIndex hp hr hd hm h h4
  next hp hr hd hm => exact encodedBy_of_regIndex hp hr hd hm h h5
  next hp hr hd hm => exact encodedBy_of_noIndex hp hr hd hm h h6
  next hp hr hd hm => exact encodedBy_of_regIndex hp hr hd hm h h7
  next hp hr hd hm => exact encodedBy_of_regIndex hp hr hd hm h h8
  next => cases h

end Forms

/-- A word that decodes is the word of the command it decodes to. -/
theorem encode_of_decode {w : CmdWord} {i : Instr} (h : decode w = .ok i) : encode i = w := by
  unfold decode at h
  split at h
  next => cases h
  next hz =>
    have hz := not_not.mp hz
    split at h
    next hopc => exact (encodedBy_of_plainForm h rfl).encode_eq hz hopc
    next hopc => exact (encodedBy_of_plainForm h rfl).encode_eq hz hopc
    next hopc => exact (encodedBy_of_plainForm h rfl).encode_eq hz hopc
    next hopc => exact (encodedBy_of_plainForm h rfl).encode_eq hz hopc
    next hopc => exact (encodedBy_of_plainForm h rfl).encode_eq hz hopc
    next hopc => exact (encodedBy_of_fldForms h).encode_eq hz hopc
    next hopc => exact (encodedBy_of_fldcForm h).encode_eq hz hopc
    next hopc => exact (encodedBy_of_popRegForm h (fun _ => rfl) fun _ => rfl).encode_eq hz hopc
    next hopc => exact (encodedBy_of_plainRegForm h fun _ => rfl).encode_eq hz hopc
    next hopc => exact (encodedBy_of_popRegForm h (fun _ => rfl) fun _ => rfl).encode_eq hz hopc
    next hopc => exact (encodedBy_of_plainForm h rfl).encode_eq hz hopc
    next hopc => exact (encodedBy_of_plainRegForm h fun _ => rfl).encode_eq hz hopc
    next hopc =>
      exact (encodedBy_of_commutativeForms h (fun _ => rfl) (fun _ => rfl) rfl fun _ => rfl).encode_eq hz hopc
    next hopc =>
      exact (encodedBy_of_reversibleForms h (fun _ => rfl) (fun _ => rfl) rfl (fun _ => rfl) (fun _ => rfl) rfl
        (fun _ => rfl) fun _ => rfl).encode_eq hz hopc
    next hopc =>
      exact (encodedBy_of_commutativeForms h (fun _ => rfl) (fun _ => rfl) rfl fun _ => rfl).encode_eq hz hopc
    next hopc =>
      exact (encodedBy_of_reversibleForms h (fun _ => rfl) (fun _ => rfl) rfl (fun _ => rfl) (fun _ => rfl) rfl
        (fun _ => rfl) fun _ => rfl).encode_eq hz hopc
    next hopc => exact (encodedBy_of_plainForm h rfl).encode_eq hz hopc
    next hopc => exact (encodedBy_of_plainForm h rfl).encode_eq hz hopc
    next => cases h

end Sys2Proof
end

section
/-! How a command ends, said once: what a command that has a next state has done to every field but the slots. The
statements about sticky bits, condition bits, `top`, the control word and completion are read off it. -/

namespace Sys2Proof.Machine

/-! ### Arithmetic commands by their operand form -/

theorem anyEmpty_reg_iff (s : State) {f : Form} {i : RegIdx} (h : f.other = .reg i) :
    f.anyEmpty s = true ↔ (s.st 0).tag = .empty ∨ (s.st i).tag = .empty := by
  simp only [Form.anyEmpty, h, Bool.or_eq_true, isEmpty_iff]

theorem anyEmpty_imm_iff (s : State) {f : Form} {v : FpuValue} (h : f.other = .imm v) :
    f.anyEmpty s = true ↔ (s.st 0).tag = .empty := by
  simp only [Form.anyEmpty, h, isEmpty_iff]

theorem withImmediate_eq_next {s t : State} {k : FpuValue → State} (h : withImmediate s k = .next t) :
    ∃ v, s.immediate = some v ∧ k v = t := by
  cases hv : s.immediate with
  | none => rw [withImmediate_none s hv] at h; cases h
  | some v =>
    rw [withImmediate_some s hv] at h
    cases h
    exact ⟨v, rfl, rfl⟩

/-- The operand form `f` reads and writes what the row of command `i` says (30_encoding.md R95). -/
structure RunsRow (i : Instr) (row : ArithRow) (f : Form) (s : State) : Prop where
  left : row.left.value s = some (f.operands s).1
  right : row.right.value s = some (f.operands s).2
  dest : f.dest = row.dest
  pops : f.pops = row.pops
  empty : f.anyEmpty s = true ↔ stackUnderflows i s

/-- Every arithmetic command is the common skeleton, run on the operand form of its row. -/
theorem exec_arithRow {i : Instr} {row : ArithRow} {s t : State} (hr : arithRow i = some row)
    (h : exec i s = .next t) : ∃ f, arith row.op f s = t ∧ RunsRow i row f s := by
  cases i with
  | faddImm | fsubImm | fmulImm | fdivImm =>
    cases hr
    obtain ⟨v, hv, hk⟩ := withImmediate_eq_next h
    exact ⟨_, hk, rfl, hv, rfl, rfl, anyEmpty_imm_iff s rfl⟩
  | fsubrImm | fdivrImm =>
    cases hr
    obtain ⟨v, hv, hk⟩ := withImmediate_eq_next h
    exact ⟨_, hk, hv, rfl, rfl, rfl, anyEmpty_imm_iff s rfl⟩
  | faddStSti | faddStiSt | faddp | fsubStSti | fsubStiSt | fsubrStSti | fsubrStiSt | fsubp | fsubrp
  | fmulStSti | fmulStiSt | fmulp | fdivStSti | fdivStiSt | fdivrStSti | fdivrStiSt | fdivp | fdivrp =>
    cases hr
    cases h
    exact ⟨_, rfl, rfl, rfl, rfl, rfl, anyEmpty_reg_iff s rfl⟩
  | _ => cases hr

/-- What the table of rows says of a command beside its operands. -/
theorem arithRow_command {i : Instr} {row : ArithRow} (hr : arithRow i = some row) :
    i.WellFormed ∧ i ≠ .ldcw ∧ i ≠ .finit ∧ popsStack i = row.pops ∧ pushesStack i = false := by
  cases i <;> cases hr <;> exact ⟨rfl, nofun, nofun, rfl, rfl⟩

/-! ### What C1 becomes where there is no stack fault (spec/10_state.md R52) -/

/-- What a computing command computes from the operands it finds; none for the other commands. -/
def computedBy (i : Instr) (s : State) : Option Computed :=
  match i with
  | .fl2x => some (logComputed screenL2 pL2 s.cw (s.st 0))
  | .fl2xp1 => some (logComputed screenL2P1 pL2P1 s.cw (s.st 0))
  | i => (arithRow i).bind fun row => (row.left.value s).bind fun A => (row.right.value s).map (compute row.op s.cw A)

theorem computedBy_of_arithRow {i : Instr} {row : ArithRow} {s : State} {A B : FpuValue} (hr : arithRow i = some row)
    (hA : row.left.value s = some A) (hB : row.right.value s = some B) :
    computedBy i s = some (compute row.op s.cw A B) := by
  unfold computedBy
  split
  · cases hr
  · cases hr
  · simp only [hr, hA, hB, Option.bind_some, Option.map_some]

/-- What C1 becomes when command `i` completes without a stack fault. -/
def c1After (i : Instr) (s : State) : Bool :=
  match i with
  | .finit | .fldc _ => false
  | i => (computedBy i s).elim s.c1 Computed.roundup

theorem c1After_of_computedBy {i : Instr} {s : State} {c : Computed} (h : computedBy i s = some c) :
    c1After i s = c.roundup := by
  unfold c1After
  split
  · cases h
  · cases h
  · simp only [h, Option.elim_some]

/-! ### What `top` becomes -/

/-- What `top` becomes when command `i` completes. -/
def topAfter (i : Instr) (top : RegIdx) : RegIdx :=
  if i = .finit then 0 else if popsStack i then top + 1 else if pushesStack i then top - 1 else top

theorem topAfter_arithRow {i : Instr} {row : ArithRow} (hr : arithRow i = some row) (top : RegIdx) :
    topAfter i top = if row.pops then top + 1 else top := by
  obtain ⟨-, -, hfinit, hpops, hpush⟩ := arithRow_command hr
  simp [topAfter, hfinit, hpops, hpush]

/-! ### How a command ends -/

/-- Command `i` takes `u` to `t` by what is left of it after its signals and its writing of C1: slots and `top` are
written and the command completes. -/
structure Completes (i : Instr) (u t : State) : Prop where
  frame : t = { u with slots := t.slots, top := t.top, resp := t.resp }
  top : t.top = topAfter i u.top
  resp : ∃ d, t.resp = some (doneResponse d)

/-- All the ways in which command `i` can take `s` to a next state. -/
inductive Ends (s : State) : Instr → State → Prop
  | finit : Ends s .finit (done { emptyAllTags s with
      top := 0, cw := ControlWord.default, sticky := 0, c0 := false, c1 := false, c2 := false, c3 := false })
  | fclex : Ends s .fclex (done { s with sticky := 0 })
  | ldcw (cw : ControlWord) : Ends s .ldcw (done { s with cw := cw })
  | illegal {i : Instr} (hi : i = .ldcw ∨ ¬ i.WellFormed) : Ends s i (raiseIllegal s)
  | fault {i : Instr} {J K : KindSet} (hi : i.WellFormed ∧ i ≠ .ldcw) (hJ : unmasked s.cw J = 0)
      (hK : unmasked s.cw K ≠ 0) : Ends s i (raiseFault (unmasked s.cw K) (setSticky K (setSticky J s)))
  | maskedStackFault {i : Instr} {K : KindSet} {t : State} (h : stackUnderflows i s ∨ stackOverflows i s)
      (ht : Completes i (setC1 true (setSticky K s)) t) : Ends s i t
  | completes {i : Instr} {J K : KindSet} {t : State} (hu : ¬ stackUnderflows i s) (ho : ¬ stackOverflows i s)
      (ht : Completes i (setC1 (c1After i s) (setSticky K (setSticky J s))) t) : Ends s i t

/-- A command that does not push does not overflow the stack. -/
theorem not_stackOverflows {i : Instr} (h : pushesStack i = false) (s : State) : ¬ stackOverflows i s :=
  fun ho => by simp [stackOverflows, h] at ho

namespace Ends

variable {s t : State} {i : Instr}

/-- A command that signals nothing. -/
theorem of_silent (hu : ¬ stackUnderflows i s) (ho : ¬ stackOverflows i s)
    (ht : Completes i (setC1 (c1After i s) s) t) : Ends s i t :=
  .completes (J := 0) (K := 0) hu ho (by rwa [setSticky_zero, setSticky_zero])

/-- A command that signals nothing and leaves C1. -/
theorem of_plain (hu : ¬ stackUnderflows i s) (ho : ¬ stackOverflows i s) (hc : c1After i s = s.c1)
    (ht : Completes i s t) : Ends s i t :=
  .of_silent hu ho (by rw [hc]; exact ht)

/-- A command whose first signal has an unmasked kind. -/
theorem of_first_fault (hi : i.WellFormed ∧ i ≠ .ldcw) {K : KindSet} (hK : unmasked s.cw K ≠ 0) :
    Ends s i (raiseFault (unmasked s.cw K) (setSticky K s)) := by
  have h := Ends.fault (J := 0) hi (unmasked_zero s.cw) hK
  rwa [setSticky_zero] at h

theorem of_stackUnderflow (hi : i.WellFormed ∧ i ≠ .ldcw) (hu : stackUnderflows i s) {k : State → State}
    (hk : ∀ u, Completes i u (k u)) : Ends s i (stackUnderflow s k) := by
  rcases stackUnderflow_cases s k with ⟨-, e⟩ | ⟨hK, e⟩ <;> rw [e]
  · exact .maskedStackFault (.inl hu) (hk _)
  · exact .of_first_fault hi hK

theorem of_stackOverflow (hi : i.WellFormed ∧ i ≠ .ldcw) (ho : stackOverflows i s) {k : State → State}
    (hk : ∀ u, Completes i u (k u)) : Ends s i (stackOverflow s k) := by
  rcases stackOverflow_cases s k with ⟨-, e⟩ | ⟨hK, e⟩ <;> rw [e]
  · exact .maskedStackFault (.inr ho) (hk _)
  · exact .of_first_fault hi hK

theorem of_finishComputed (hi : i.WellFormed ∧ i ≠ .ldcw) (hu : ¬ stackUnderflows i s) (ho : ¬ stackOverflows i s)
    {c : Computed} (hc : computedBy i s = some c) {d : RegIdx} {pops : Bool}
    (hk : ∀ u, Completes i u (writeBack d c.value pops u)) : Ends s i (finishComputed c d pops s) := by
  rcases finishComputed_cases s c d pops with ⟨-, -, e⟩ | ⟨hK, e⟩ | ⟨hJ, hK, e⟩ <;> rw [e]
  · refine .completes (J := c.first) (K := c.second) hu ho ?_
    rw [c1After_of_computedBy hc]
    exact hk _
  · exact .of_first_fault hi hK
  · exact .fault hi hJ hK

end Ends

/-- The write-back of a computing command, with the pop of a pop variant. -/
theorem completes_writeBack {i : Instr} {pops : Bool} (htop : ∀ p, topAfter i p = if pops then p + 1 else p)
    (d : RegIdx) (v : FpuValue) (u : State) : Completes i u (writeBack d v pops u) := by
  cases pops
  · exact ⟨rfl, (htop u.top).symm, 0, rfl⟩
  · exact ⟨rfl, (htop u.top).symm, 0, rfl⟩

theorem exec_ends_arith {i : Instr} {row : ArithRow} {s t : State} (hr : arithRow i = some row)
    (h : exec i s = .next t) : Ends s i t := by
  obtain ⟨hwf, hldcw, -, -, hpush⟩ := arithRow_command hr
  obtain ⟨f, rfl, hf⟩ := exec_arithRow hr h
  have hk : ∀ d v u, Completes i u (writeBack d v f.pops u) :=
    completes_writeBack (hf.pops ▸ topAfter_arithRow hr)
  rcases arith_cases s row.op f with ⟨he, e⟩ | ⟨he, e⟩ <;> rw [e]
  · exact .of_stackUnderflow ⟨hwf, hldcw⟩ (hf.empty.mp he) (hk _ _)
  · have hu : ¬ stackUnderflows i s := fun hu => by simp [hf.empty.mpr hu] at he
    exact .of_finishComputed ⟨hwf, hldcw⟩ hu (not_stackOverflows hpush s)
      (computedBy_of_arithRow hr hf.left hf.right) (hk _ _)

theorem ends_logCommand {i : Instr} {s : State} {screen : FpuValue → Screened} {engine : Rat → Rat}
    (hi : i.WellFormed ∧ i ≠ .ldcw) (hu : stackUnderflows i s ↔ (s.st 0).tag = .empty) (ho : ¬ stackOverflows i s)
    (htop : ∀ p, topAfter i p = p) (hc : computedBy i s = some (logComputed screen engine s.cw (s.st 0))) :
    Ends s i (logCommand screen engine s) := by
  have hk : ∀ v u, Completes i u (writeBack 0 v false u) := completes_writeBack htop 0
  by_cases he : (s.st 0).tag = .empty
  · rw [logCommand_of_empty he]
    exact .of_stackUnderflow hi (hu.mpr he) (hk _)
  · rw [logCommand_of_nonempty he]
    exact .of_finishComputed hi (mt hu.mp he) ho hc (hk _)

theorem ends_store {i : Instr} {s : State} {n : RegIdx} {k : State → State} (hi : i.WellFormed ∧ i ≠ .ldcw)
    (hu : stackUnderflows i s ↔ (s.st 0).tag = .empty) (ho : ¬ stackOverflows i s) (hc : c1After i s = s.c1)
    (hk : ∀ v u, Completes i u (k (setSlot (u.phys n) v u))) : Ends s i (store n s k) := by
  rcases store_cases s n k with ⟨he, e⟩ | ⟨he, e⟩ <;> rw [e]
  · exact .of_plain (mt hu.mp he) ho hc (hk _ _)
  · exact .of_stackUnderflow hi (hu.mpr he) fun u => hk indef u

theorem constTable_legal {c : ConstIdx} : (constTable c).isSome = true ↔ (Instr.fldc c).WellFormed := by
  revert c
  decide

/-- Every command that has a next state ends in one of the ways of `Ends`. -/
theorem exec_ends {i : Instr} {s t : State} (h : exec i s = .next t) : Ends s i t := by
  cases i with
  | finit => cases h; exact .finit
  | fclex => cases h; exact .fclex
  | stsw | stcw => cases h; exact .of_plain id (not_stackOverflows rfl s) rfl ⟨rfl, rfl, _, rfl⟩
  | ldcw =>
    unfold exec execLdcw at h
    cases h
    split
    · exact .ldcw _
    · exact .illegal (.inl rfl)
  | fldReg n =>
    unfold exec execFldReg at h
    cases h
    have hk : ∀ v u, Completes (.fldReg n) u (done (pushRaw v u)) := fun v u => ⟨rfl, rfl, _, rfl⟩
    split
    · exact .of_stackOverflow (i := .fldReg n) ⟨rfl, nofun⟩ ⟨rfl, rfl, (full_iff s).mp ‹_›⟩ (hk indef)
    · have hfull := not_not.mp (mt (full_iff s).mpr ‹_›)
      split
      · exact .of_stackUnderflow (i := .fldReg n) ⟨rfl, nofun⟩ ⟨hfull, (isEmpty_iff s n).mp ‹_›⟩ (hk indef)
      · exact .of_plain (i := .fldReg n) (fun hu => ‹¬ s.isEmpty n = true› ((isEmpty_iff s n).mpr hu.2))
          (fun ho => ho.2.2 hfull) rfl (hk _ s)
  | fldImm =>
    obtain ⟨v, -, rfl⟩ := withImmediate_eq_next h
    have hk : ∀ v u, Completes .fldImm u (done (pushRaw v u)) := fun v u => ⟨rfl, rfl, _, rfl⟩
    rcases push_cases s v done done with ⟨he, e⟩ | ⟨he, e⟩ <;> rw [e]
    · exact .of_plain id (fun ho => ho.2.2 he) rfl (hk v s)
    · exact .of_stackOverflow (i := .fldImm) ⟨rfl, nofun⟩ ⟨rfl, rfl, he⟩ (hk indef)
  | fldc c =>
    unfold exec execFldc at h
    cases h
    split
    next v hv =>
      have hwf : (Instr.fldc c).WellFormed := constTable_legal.mp (by rw [hv]; rfl)
      rcases push_cases s v (fun s => done (setC1 false s)) done with ⟨he, e⟩ | ⟨he, e⟩ <;> rw [e]
      · exact .of_silent id (fun ho => ho.2.2 he) ⟨rfl, rfl, _, rfl⟩
      · exact .of_stackOverflow ⟨hwf, nofun⟩ ⟨hwf, rfl, he⟩ fun u => ⟨rfl, rfl, _, rfl⟩
    next hv => exact .illegal (.inr fun hwf => by simpa [hv] using constTable_legal.mpr hwf)
  | fst n | fstp n =>
    cases h
    exact ends_store ⟨rfl, nofun⟩ .rfl (not_stackOverflows rfl s) rfl fun v u => ⟨rfl, rfl, _, rfl⟩
  | fxch n =>
    unfold exec execFxch at h
    cases h
    have hk : ∀ u, Completes (.fxch n) u (done (swapSlots (u.phys 0) (u.phys n) u)) := fun u => ⟨rfl, rfl, _, rfl⟩
    have hu : (s.isEmpty 0 || s.isEmpty n) = true ↔ stackUnderflows (.fxch n) s := by
      simp only [Bool.or_eq_true, isEmpty_iff, stackUnderflows]
    split
    · exact .of_stackUnderflow (i := .fxch n) ⟨rfl, nofun⟩ (hu.mp ‹_›) hk
    · exact .of_plain (mt hu.mpr ‹_›) (not_stackOverflows rfl s) rfl (hk s)
  | ffree n | ffreep n | pop => cases h; exact .of_plain id (not_stackOverflows rfl s) rfl ⟨rfl, rfl, _, rfl⟩
  | rdst n =>
    cases h
    have hk : ∀ v u, Completes (.rdst n) u (doneData (packValue v) u) := fun v u => ⟨rfl, rfl, _, rfl⟩
    rcases readReg_cases s n (fun v s => doneData (packValue v) s) with ⟨he, e⟩ | ⟨he, e⟩ <;> rw [e]
    · exact .of_plain he (not_stackOverflows rfl s) rfl (hk _ s)
    · exact .of_stackUnderflow (i := .rdst n) ⟨rfl, nofun⟩ he (hk indef)
  | fl2x | fl2xp1 =>
    cases h
    exact ends_logCommand ⟨rfl, nofun⟩ .rfl (not_stackOverflows rfl s) (fun _ => rfl) rfl
  | _ => exact exec_ends_arith rfl h

end Sys2Proof.Machine
end

section
/-! The sticky bits, the condition bits C0, C2 and C3, `top`, the control word and completion, read off the ways in
which a command ends (spec/10_state.md R39, R44, R46, R49, R51); the values after reset and FINIT (R56). -/

namespace Sys2Proof.Machine

/-! ### What completing leaves of the fields -/

namespace Completes

variable {i : Instr} {u t : State} (h : Completes i u t)
include h

theorem cw_eq : t.cw = u.cw := (congrArg State.cw h.frame :)
theorem sticky_eq : t.sticky = u.sticky := (congrArg State.sticky h.frame :)
theorem c0_eq : t.c0 = u.c0 := (congrArg State.c0 h.frame :)
theorem c1_eq : t.c1 = u.c1 := (congrArg State.c1 h.frame :)
theorem c2_eq : t.c2 = u.c2 := (congrArg State.c2 h.frame :)
theorem c3_eq : t.c3 = u.c3 := (congrArg State.c3 h.frame :)

theorem status_eq {r : Response} (hr : t.resp = some r) : r.status = .done := by
  obtain ⟨d, hd⟩ := h.resp
  cases hd.symm.trans hr
  rfl

end Completes

/-! ### What a command leaves of the fields -/

namespace Ends

variable {i : Instr} {s t : State} (h : Ends s i t)
include h

/-- Only FCLEX and FINIT clear a sticky bit (10_state.md R49). -/
theorem sticky_mono (hclex : i ≠ .fclex) (hfinit : i ≠ .finit) {k : Nat} (hk : s.sticky.getLsbD k = true) :
    t.sticky.getLsbD k = true := by
  cases h with
  | finit => exact absurd rfl hfinit
  | fclex => exact absurd rfl hclex
  | ldcw cw => exact hk
  | illegal hi => exact hk
  | fault hi hJ hK => simp [raiseFault, hk]
  | maskedStackFault hf ht => simp [ht.sticky_eq, hk]
  | completes hu ho ht => simp [ht.sticky_eq, hk]

/-- Only FINIT writes C0, C2 and C3 (10_state.md R51). -/
theorem c0_c2_c3_eq (hfinit : i ≠ .finit) : t.c0 = s.c0 ∧ t.c2 = s.c2 ∧ t.c3 = s.c3 := by
  cases h with
  | finit => exact absurd rfl hfinit
  | fclex | ldcw | illegal | fault => exact ⟨rfl, rfl, rfl⟩
  | maskedStackFault hf ht => exact ⟨ht.c0_eq, ht.c2_eq, ht.c3_eq⟩
  | completes hu ho ht => exact ⟨ht.c0_eq, ht.c2_eq, ht.c3_eq⟩

/-- Only FINIT and LDCW write the control word (10_state.md R46). -/
theorem cw_eq (hfinit : i ≠ .finit) (hldcw : i ≠ .ldcw) : t.cw = s.cw := by
  cases h with
  | finit => exact absurd rfl hfinit
  | ldcw cw => exact absurd rfl hldcw
  | fclex | illegal | fault => rfl
  | maskedStackFault hf ht => exact ht.cw_eq
  | completes hu ho ht => exact ht.cw_eq

/-- A command that does not complete changes sticky bits and the response only (60_exceptions.md R346, R348). -/
theorem frame_of_not_done {r : Response} (hr : t.resp = some r) (hd : r.status ≠ .done) :
    t = { s with sticky := t.sticky, resp := t.resp } := by
  cases h with
  | finit | fclex | ldcw => cases hr; exact absurd rfl hd
  | illegal | fault => rfl
  | maskedStackFault hf ht => exact absurd (ht.status_eq hr) hd
  | completes hu ho ht => exact absurd (ht.status_eq hr) hd

/-- What a completing command makes of `top` (10_state.md R39). -/
theorem top_eq_of_done {r : Response} (hr : t.resp = some r) (hd : r.status = .done) : t.top = topAfter i s.top := by
  cases h with
  | finit | fclex | ldcw => rfl
  | illegal | fault => cases hr; cases hd
  | maskedStackFault hf ht => exact ht.top
  | completes hu ho ht => exact ht.top

/-- A legal command but LDCW completes when every kind is masked (60_exceptions.md R351). -/
theorem done_of_masked (hwf : i.WellFormed) (hldcw : i ≠ .ldcw) (hm : s.cw.mask = 0xFF) :
    ∃ d, t.resp = some (doneResponse d) := by
  cases h with
  | finit | fclex | ldcw => exact ⟨0, rfl⟩
  | illegal hi => exact absurd hi (not_or.mpr ⟨hldcw, not_not.mpr hwf⟩)
  | fault hi hJ hK => exact absurd (unmasked_of_mask_all hm _) hK
  | maskedStackFault hf ht => exact ht.resp
  | completes hu ho ht => exact ht.resp

/-- Only a legal command faults, and LDCW does not. -/
theorem command_of_fault {r : Response} (hr : t.resp = some r) (hf : r.status = .fault) : i.WellFormed ∧ i ≠ .ldcw := by
  cases h with
  | finit | fclex | ldcw | illegal => cases hr; cases hf
  | fault hi hJ hK => exact hi
  | maskedStackFault _ ht => exact nomatch (ht.status_eq hr).symm.trans hf
  | completes hu ho ht => exact nomatch (ht.status_eq hr).symm.trans hf

end Ends

/-! ### The words of FINIT and FCLEX -/

theorem word_of_decode_finit {w : CmdWord} (h : decode w = .ok .finit) : w = 0x0800 := (encode_of_decode h).symm

theorem word_of_decode_fclex {w : CmdWord} (h : decode w = .ok .fclex) : w = 0x1000 := (encode_of_decode h).symm

/-! ### Values after reset and FINIT -/

/-- The fields of the table of 10_state.md R56 give its derived bits and words. -/
theorem resetValues_of_fields {s : State} (htags : ∀ p, (s.slot p).tag = .empty) (htop : s.top = 0)
    (hcw : s.cw = ControlWord.default) (hsticky : s.sticky = 0) (h0 : s.c0 = false) (h1 : s.c1 = false)
    (h2 : s.c2 = false) (h3 : s.c3 = false) : ResetValues s := by
  have hes : s.es = false := by rw [State.es, hsticky, unmasked_zero]; rfl
  refine ⟨htags, htop, hcw, by rw [hcw]; decide, hsticky, hes, h0, h1, h2, h3, ?_⟩
  rw [State.statusWord, hsticky, htop, hes, h0, h1, h2, h3]
  decide

theorem resetValues_hardReset (rest : List PortEvent) : ResetValues (State.hardReset rest) :=
  resetValues_of_fields (fun p => congrArg FpuValue.tag (slot_hardReset rest p)) rfl rfl rfl rfl rfl rfl rfl

/-! ### The obligations -/

/-- Settles O14: the reset input, FINIT and FCLEX are the events of the exception, and every other command only sets
sticky bits. -/
theorem stickyBitsStaySet : Obligations.StickyBitsStaySet := fun s t e => by
  rcases step_cases s with ⟨-, e'⟩ | ⟨rest, hp, -⟩ | ⟨w, o, rest, err, -, -, e'⟩ | ⟨w, o, rest, i, hp, hw, e'⟩
  · cases e'.symm.trans e
    exact .inl fun _ hk => hk
  · exact .inr ⟨rest, .inl hp⟩
  · cases e'.symm.trans e
    exact .inl fun _ hk => hk
  · by_cases hfinit : i = .finit
    · subst hfinit
      exact .inr ⟨rest, .inr (.inl ⟨o, word_of_decode_finit hw ▸ hp⟩)⟩
    · by_cases hclex : i = .fclex
      · subst hclex
        exact .inr ⟨rest, .inr (.inr ⟨o, word_of_decode_fclex hw ▸ hp⟩)⟩
      · exact .inl fun _ hk => (exec_ends (e'.symm.trans e)).sticky_mono hclex hfinit hk

/-- The first clause of O15: a step keeps C0, C2 and C3, or it is reset or FINIT and clears them. -/
theorem step_c0_c2_c3 {s t : State} (e : step s = .next t) :
    (t.c0 = s.c0 ∧ t.c2 = s.c2 ∧ t.c3 = s.c3) ∨
      ((t.c0 = false ∧ t.c2 = false ∧ t.c3 = false) ∧
        ∃ rest, s.pending = .hardReset :: rest ∨ ∃ o, s.pending = .command 0x0800 o :: rest) := by
  rcases step_cases s with ⟨-, e'⟩ | ⟨rest, hp, e'⟩ | ⟨w, o, rest, err, -, -, e'⟩ | ⟨w, o, rest, i, hp, hw, e'⟩
  · cases e'.symm.trans e
    exact .inl ⟨rfl, rfl, rfl⟩
  · cases e'.symm.trans e
    exact .inr ⟨⟨rfl, rfl, rfl⟩, rest, .inl hp⟩
  · cases e'.symm.trans e
    exact .inl ⟨rfl, rfl, rfl⟩
  · by_cases hfinit : i = .finit
    · subst hfinit
      cases e'.symm.trans e
      exact .inr ⟨⟨rfl, rfl, rfl⟩, rest, .inr ⟨o, word_of_decode_finit hw ▸ hp⟩⟩
    · exact .inl ((exec_ends (e'.symm.trans e)).c0_c2_c3_eq hfinit)

/-- Settles O15: the last clause follows from the first, which allows no value but the old one and 0. -/
theorem conditionBitsC0C2C3 : Obligations.ConditionBitsC0C2C3 := by
  refine ⟨fun s t => step_c0_c2_c3, ⟨rfl, rfl, rfl⟩, fun s t e h0 h2 h3 => ?_⟩
  rcases step_c0_c2_c3 e with ⟨e0, e2, e3⟩ | ⟨hclear, -⟩
  · exact ⟨e0.trans h0, e2.trans h2, e3.trans h3⟩
  · exact hclear

/-- Settles O17, by the fields that each way of ending leaves. -/
theorem topAndControlWordWriters : Obligations.TopAndControlWordWriters := fun i s t r e hr => by
  have h := exec_ends e
  refine ⟨h.cw_eq, fun hd => ?_, h.top_eq_of_done hr⟩
  have hframe := h.frame_of_not_done hr hd
  exact ⟨(congrArg State.top hframe :), (congrArg State.cw hframe :)⟩

/-- The first clause of O53. -/
theorem exec_done_of_masked {i : Instr} {s : State} (hwf : i.WellFormed) (hldcw : i ≠ .ldcw) (hm : s.cw.mask = 0xFF)
    (himm : usesImmediate i = true → ∃ v, s.immediate = some v) :
    ∃ t d, exec i s = .next t ∧ t.resp = some (doneResponse d) := by
  have hnot : ¬ (usesImmediate i = true ∧ s.immediate = none) := fun ⟨hi, hnone⟩ => by
    obtain ⟨v, hv⟩ := himm hi
    cases hv.symm.trans hnone
  obtain ⟨t, e⟩ := exec_next_of_not_refused hnot
  obtain ⟨d, hd⟩ := (exec_ends e).done_of_masked hwf hldcw hm
  exact ⟨t, d, e, hd⟩

/-- Settles O53: a command that faulted was legal and took its immediate, which the fault leaves on the operand port. -/
theorem maskedCommandsComplete : Obligations.MaskedCommandsComplete := by
  refine ⟨fun i s hwf hldcw hm himm => exec_done_of_masked hwf hldcw hm himm, fun i s t r e hr hf => ?_⟩
  have h := exec_ends e
  obtain ⟨hwf, hldcw⟩ := h.command_of_fault hr hf
  have hframe : t.immediate = s.immediate :=
    (congrArg State.immediate (h.frame_of_not_done hr (by rw [hf]; nofun)) :)
  refine exec_done_of_masked hwf hldcw rfl fun hi => ?_
  rcases hs : s.immediate with _ | v
  · cases (exec_refused_of_immediate_none hi hs).symm.trans e
  · exact ⟨v, hframe.trans hs⟩

/-- Settles O7: the three states hold the reset value in every field, and the derived bits follow from the fields. -/
theorem resetAndFinitValues : Obligations.ResetAndFinitValues :=
  ⟨resetValues_hardReset [], fun _ rest hp => ⟨_, step_hardReset hp, resetValues_hardReset rest⟩, fun s =>
    ⟨_, rfl, resetValues_of_fields (fun p => congrArg FpuValue.tag (slot_emptyAllTags s p)) rfl rfl rfl rfl rfl rfl
      rfl⟩⟩

end Sys2Proof.Machine
end

section
/-! The 84-bit layout of a value record (spec/10_state.md R31, R32) and the values of the finite ones (R33, R35). -/

namespace Sys2Proof

/-! ### The layout -/

theorem tagOfCode_tagCode (t : Tag) : tagOfCode (tagCode t) = some t := by cases t <;> rfl

theorem tagCode_of_tagOfCode : ∀ {c : BitVec 3} {t : Tag}, tagOfCode c = some t → tagCode t = c := by
  have key : ∀ c : BitVec 3, ∀ t ∈ tagOfCode c, tagCode t = c := by decide
  exact fun {c t} h => key c t h

/-- Where each bit of the packed record comes from: the significand, the exponent above it, the tag code, the sign. -/
theorem packValue_getLsbD (v : FpuValue) (k : Nat) :
    (packValue v).getLsbD k =
      if k < 64 then v.sig.getLsbD k
      else if k - 64 < 16 then v.exp.getLsbD (k - 64)
      else if k - 64 - 16 < 3 then (tagCode v.tag).getLsbD (k - 64 - 16)
      else (decide (k - 64 - 16 - 3 = 0) && v.sign) := by
  change BitVec.getLsbD (w := 1 + 3 + 16 + 64) (BitVec.ofBool v.sign ++ tagCode v.tag ++ v.exp ++ v.sig) k = _
  simp only [BitVec.getLsbD_append, BitVec.getLsbD_ofBool]

theorem packValue_sign (v : FpuValue) : (packValue v).getLsbD 83 = v.sign := by
  rw [packValue_getLsbD]
  simp

theorem packValue_sig (v : FpuValue) : (packValue v).extractLsb' 0 64 = v.sig := by
  refine BitVec.eq_of_getLsbD_eq fun k hk => ?_
  rw [BitVec.getLsbD_extractLsb', packValue_getLsbD]
  simp [hk]

theorem packValue_exp (v : FpuValue) : (packValue v).extractLsb' 64 16 = v.exp := by
  refine BitVec.eq_of_getLsbD_eq fun k hk => ?_
  rw [BitVec.getLsbD_extractLsb', packValue_getLsbD]
  simp [hk]

theorem packValue_tag (v : FpuValue) : (packValue v).extractLsb' 80 3 = tagCode v.tag := by
  refine BitVec.eq_of_getLsbD_eq fun k hk => ?_
  rw [BitVec.getLsbD_extractLsb', packValue_getLsbD, Nat.add_comm 80 k]
  simp [hk]

/-- Two 84-bit words with the same four fields are the same word. -/
theorem portWord_ext {w w' : PortWord} (hsign : w.getLsbD 83 = w'.getLsbD 83)
    (htag : w.extractLsb' 80 3 = w'.extractLsb' 80 3) (hexp : w.extractLsb' 64 16 = w'.extractLsb' 64 16)
    (hsig : w.extractLsb' 0 64 = w'.extractLsb' 0 64) : w = w' := by
  have field : ∀ {a n : Nat}, w.extractLsb' a n = w'.extractLsb' a n →
      ∀ k, a ≤ k → k < a + n → w.getLsbD k = w'.getLsbD k := fun {a n} h k h1 h2 => by
    have := congrArg (fun x => x.getLsbD (k - a)) h
    simpa [BitVec.getLsbD_extractLsb', show k - a < n by omega, show a + (k - a) = k by omega] using this
  refine BitVec.eq_of_getLsbD_eq fun k hk => ?_
  by_cases h1 : k < 64
  · exact field hsig k (Nat.zero_le k) (by omega)
  · by_cases h2 : k < 80
    · exact field hexp k (by omega) (by omega)
    · by_cases h3 : k < 83
      · exact field htag k (by omega) (by omega)
      · exact (show k = 83 by omega) ▸ hsign

theorem unpackValue_packValue (v : FpuValue) : unpackValue (packValue v) = some v := by
  simp only [unpackValue, packValue_tag, tagOfCode_tagCode, packValue_sign, packValue_exp, packValue_sig]

theorem packValue_of_unpackValue {w : PortWord} {v : FpuValue} (h : unpackValue w = some v) : packValue v = w := by
  unfold unpackValue at h
  split at h
  next t ht =>
    cases h
    exact portWord_ext (packValue_sign _) ((packValue_tag _).trans (tagCode_of_tagOfCode ht)) (packValue_exp _)
      (packValue_sig _)
  next => cases h

/-- Settles O41: the packed fields are read back one by one, and two words with the same fields are the same. -/
theorem packedValueRoundTrip : Obligations.PackedValueRoundTrip := by
  refine ⟨fun v => ⟨unpackValue_packValue v, packValue_sign v, packValue_exp v, packValue_sig v, ?_⟩,
    fun w v => packValue_of_unpackValue, unpackValue_eq_none_iff⟩
  rw [packValue_tag]
  cases v.tag <;> rfl

/-! ### Well-formed finite values -/

/-- Bit 63 is set exactly in the significands from `2^63` on. -/
theorem getLsbD_63_iff (x : BitVec 64) : x.getLsbD 63 = true ↔ 2 ^ 63 ≤ x.toNat := by
  have h : x.msb = x.getLsbD 63 := BitVec.msb_eq_getLsbD_last x
  rw [← h, BitVec.msb_eq_decide]
  simp

theorem FpuValue.wf_valid_iff {v : FpuValue} (ht : v.tag = .valid) :
    v.wf = true ↔ 2 ^ 63 ≤ v.sig.toNat ∧ -16382 ≤ v.exp.toInt ∧ v.exp.toInt ≤ 16383 := by
  simp only [FpuValue.wf, ht, Bool.and_eq_true, decide_eq_true_eq, getLsbD_63_iff, and_assoc]
  rfl

theorem FpuValue.wf_denormal_iff {v : FpuValue} (ht : v.tag = .denormal) :
    v.wf = true ↔ v.exp.toInt = -16382 ∧ v.sig.toNat < 2 ^ 63 ∧ v.sig.toNat ≠ 0 := by
  have hsig : v.sig = 0 ↔ v.sig.toNat = 0 := BitVec.toNat_inj.symm
  simp only [FpuValue.wf, ht, Bool.and_eq_true, decide_eq_true_eq, Bool.not_eq_true', ne_eq, hsig,
    ← Bool.not_eq_true, getLsbD_63_iff, not_le, and_assoc]
  rfl

namespace Machine

theorem valOf_zero {v : FpuValue} (ht : v.tag = .zero) : valOf v = 0 := by simp only [valOf, ht]

/-- The magnitude of a finite value that is not a Zero (10_state.md R35). -/
theorem abs_valOf {v : FpuValue} (ht : v.tag ≠ .zero) : |valOf v| = (v.sig.toNat : ℚ) * 2 ^ (v.exp.toInt - 63) := by
  have hpos : (0 : ℚ) ≤ (v.sig.toNat : ℚ) * 2 ^ (v.exp.toInt - 63) := by positivity
  unfold valOf
  split
  · exact absurd ‹_› ht
  · split <;> simp [abs_of_nonneg hpos]

/-- A Valid value lies in the binade of its exponent (10_state.md R35). -/
theorem abs_valOf_valid {v : FpuValue} (h : v.wf = true) (ht : v.tag = .valid) :
    (2 : ℚ) ^ v.exp.toInt ≤ |valOf v| ∧ |valOf v| ≤ (2 - 2 ^ (-63 : ℤ)) * 2 ^ v.exp.toInt := by
  obtain ⟨hsig, -, -⟩ := (FpuValue.wf_valid_iff ht).mp h
  have hlow : (2 : ℚ) ^ (63 : ℤ) ≤ v.sig.toNat := by exact_mod_cast hsig
  have hhigh : (v.sig.toNat : ℚ) ≤ 2 ^ (64 : ℤ) - 1 := by
    have : v.sig.toNat + 1 ≤ 2 ^ 64 := v.sig.isLt
    rw [le_sub_iff_add_le]
    exact_mod_cast this
  have hexp : (2 : ℚ) ^ v.exp.toInt = 2 ^ (63 : ℤ) * 2 ^ (v.exp.toInt - 63) := by
    rw [← zpow_add₀ (by norm_num)]
    congr 1
    omega
  have hunit : (0 : ℚ) ≤ 2 ^ (v.exp.toInt - 63) := by positivity
  rw [abs_valOf (by rw [ht]; nofun), hexp, ← mul_assoc]
  refine ⟨mul_le_mul_of_nonneg_right hlow hunit, mul_le_mul_of_nonneg_right (hhigh.trans_eq ?_) hunit⟩
  norm_num

/-- Settles O42: the binade of a Valid value lies in the exponent range, and a Denormal is its significand in units of
the fixed grid. -/
theorem valueRanges : Obligations.ValueRanges := by
  refine ⟨fun v h ht => ?_, fun v => valOf_zero, fun v h ht => ?_⟩
  · obtain ⟨-, hmin, hmax⟩ := (FpuValue.wf_valid_iff ht).mp h
    obtain ⟨hlow, hhigh⟩ := abs_valOf_valid h ht
    have hscale : (0 : ℚ) < 2 ^ v.exp.toInt := by positivity
    have hfactor : (2 : ℚ) - 2 ^ (-63 : ℤ) < 2 ∧ (0 : ℚ) ≤ 2 - 2 ^ (-63 : ℤ) := by norm_num
    refine ⟨hlow, hhigh.trans_lt ?_, le_trans ?_ hlow, hhigh.trans ?_⟩
    · rw [zpow_add_one₀ (by norm_num), mul_comm _ (2 : ℚ)]
      exact mul_lt_mul_of_pos_right hfactor.1 hscale
    · exact zpow_le_zpow_right₀ (by norm_num) hmin
    · exact mul_le_mul_of_nonneg_left (zpow_le_zpow_right₀ (by norm_num) hmax) hfactor.2
  · obtain ⟨hexp, hlt, hne⟩ := (FpuValue.wf_denormal_iff ht).mp h
    refine ⟨v.sig.toNat, Nat.one_le_iff_ne_zero.mpr hne, hlt, ?_⟩
    rw [abs_valOf (by rw [ht]; nofun), hexp]
    rfl

end Machine

end Sys2Proof
end

section
/-! The integer rounding function against the rational one (spec/41_arith_common.md R165 to R167): the grid it finds,
and the `roundup` it reports. -/

namespace Sys2Proof.Machine

/-! ### The grid -/

/-- The exponent of the unit in the last place. -/
theorem ulpExp_eq {m : Frac} (hn : 0 < m.num) (hd : 0 < m.den) (cw : ControlWord) :
    ulpExp cw.pc m = ruleUlp cw m.toRat := by
  rw [ulpExp, ruleUlp, Frac.ilog2_eq hn hd]
  rfl

/-- The quotient of naturals is the floor of the fraction, and the remainder what the floor leaves. -/
theorem Frac.floor_toRat (x : Frac) (hd : 0 < x.den) :
    ⌊x.toRat⌋ = ((x.num / x.den : ℕ) : ℤ) ∧
      x.toRat - ((x.num / x.den : ℕ) : ℚ) = ((x.num % x.den : ℕ) : ℚ) / x.den := by
  have hd' : (x.den : ℚ) ≠ 0 := by exact_mod_cast hd.ne'
  constructor
  · rw [Frac.toRat, Rat.floor_natCast_div_natCast]
    push_cast
    rfl
  · have hsplit : (x.den : ℚ) * ((x.num / x.den : ℕ) : ℚ) + ((x.num % x.den : ℕ) : ℚ) = x.num := by
      exact_mod_cast Nat.div_add_mod x.num x.den
    rw [Frac.toRat, eq_div_iff hd', sub_mul, div_mul_cancel₀ _ hd']
    linarith

/-- The table of R166 on an integer remainder and on a rational one. -/
theorem roundUp_eq (rc : RoundMode) (s : Bool) (f r : Nat) {d : Nat} (hd : 0 < d) :
    roundUp rc s f r d = ruleRoundUp rc s (f : ℤ) ((r : ℚ) / d) := by
  have hd' : (0 : ℚ) < d := by exact_mod_cast hd
  cases rc with
  | nearest =>
    have habove : d < 2 * r ↔ (1 / 2 : ℚ) < (r : ℚ) / d := by
      rw [lt_div_iff₀ hd', div_mul_eq_mul_div, one_mul, div_lt_iff₀ two_pos, mul_comm (r : ℚ)]
      exact_mod_cast Iff.rfl
    have htie : 2 * r = d ↔ (r : ℚ) / d = 1 / 2 := by
      rw [div_eq_div_iff hd'.ne' two_ne_zero, one_mul, mul_comm (r : ℚ)]
      exact_mod_cast Iff.rfl
    have hodd : f % 2 = 1 ↔ (f : ℤ) % 2 = 1 := by omega
    simp only [roundUp, ruleRoundUp, habove, htie, hodd]
  | down | up | zero => rfl

/-- What the rounding function finds before it decides the kinds is what the rule finds. -/
structure Grid.Follows (g : Grid) (cw : ControlWord) (s : Bool) (m : ℚ) : Prop where
  magnitude : (g.n : ℚ) * 2 ^ g.q = (ruleRounding cw s m).1
  inexact : g.inexact = (ruleRounding cw s m).2.1
  up : g.up = (ruleRounding cw s m).2.2

theorem roundGrid_follows (cw : ControlWord) (s : Bool) {m : Frac} (hn : 0 < m.num) (hd : 0 < m.den) :
    (roundGrid cw s m).Follows cw s m.toRat := by
  obtain ⟨x, hx⟩ : ∃ x, x = m.scale (ruleUlp cw m.toRat) := ⟨_, rfl⟩
  have hxd : 0 < x.den := hx ▸ Frac.scale_den_pos hd _
  have hxq : m.toRat / 2 ^ ruleUlp cw m.toRat = x.toRat := by rw [hx, Frac.scale_toRat]
  obtain ⟨hfloor, hrem⟩ := Frac.floor_toRat x hxd
  have hrem0 : ((x.num % x.den : ℕ) : ℚ) / x.den ≠ 0 ↔ x.num % x.den ≠ 0 := by
    rw [Ne, div_eq_zero_iff, Nat.cast_eq_zero, Nat.cast_eq_zero]
    omega
  have hinexact : (roundGrid cw s m).inexact = (ruleRounding cw s m.toRat).2.1 := by
    simp only [roundGrid, ruleRounding, ulpExp_eq hn hd, ← hx, hxq, hfloor, Int.cast_natCast, hrem, hrem0]
  have hup : (roundGrid cw s m).up = (ruleRounding cw s m.toRat).2.2 := by
    simp only [roundGrid, ruleRounding, ulpExp_eq hn hd, ← hx, hxq, hfloor, Int.cast_natCast, hrem, hrem0,
      roundUp_eq _ _ _ _ hxd]
  refine ⟨?_, hinexact, hup⟩
  have hq : (roundGrid cw s m).q = ruleUlp cw m.toRat := ulpExp_eq hn hd cw
  have hgn : (roundGrid cw s m).n = x.num / x.den + (roundGrid cw s m).up.toNat := by
    simp only [roundGrid, ulpExp_eq hn hd, ← hx]
  have hr1 : (ruleRounding cw s m.toRat).1 =
      ((⌊x.toRat⌋ : ℚ) + if (ruleRounding cw s m.toRat).2.2 then 1 else 0) * 2 ^ ruleUlp cw m.toRat := by
    simp only [ruleRounding, hxq]
  rw [hr1, hq, hgn, ← hup, hfloor, Int.cast_natCast, Nat.cast_add]
  cases (roundGrid cw s m).up
  · rw [Bool.toNat_false, Nat.cast_zero, if_neg Bool.false_ne_true]
  · rw [Bool.toNat_true, Nat.cast_one, if_pos rfl]

/-- A grid result overflows exactly when its magnitude reaches `2^(EMAX + 1)` (R165). -/
theorem Grid.overflows_iff (g : Grid) : g.overflows = true ↔ (2 : ℚ) ^ (16384 : ℤ) ≤ (g.n : ℚ) * 2 ^ g.q := by
  have hq : (0 : ℚ) < 2 ^ g.q := by positivity
  simp only [Grid.overflows, Bool.and_eq_true, decide_eq_true_eq]
  by_cases hn : g.n = 0
  · simp only [hn, ne_eq, not_true_eq_false, false_and, Nat.cast_zero, zero_mul, false_iff, not_le]
    positivity
  · have hlow : (2 : ℚ) ^ ((g.n.log2 : ℤ) + g.q) ≤ (g.n : ℚ) * 2 ^ g.q := by
      rw [zpow_add₀ two_ne_zero, zpow_natCast]
      exact mul_le_mul_of_nonneg_right (by exact_mod_cast Nat.log2_self_le hn) hq.le
    have hhigh : (g.n : ℚ) * 2 ^ g.q < 2 ^ ((g.n.log2 : ℤ) + 1 + g.q) := by
      rw [zpow_add₀ two_ne_zero, ← Nat.cast_succ, zpow_natCast]
      exact mul_lt_mul_of_pos_right (by exact_mod_cast Nat.lt_log2_self) hq
    constructor
    · rintro ⟨-, h⟩
      exact (zpow_le_zpow_right₀ one_le_two h).trans hlow
    · intro h
      have := (zpow_lt_zpow_iff_right₀ one_lt_two).mp (h.trans_lt hhigh)
      exact ⟨hn, by simp only [Config.emax]; omega⟩

/-! ### What is reported as `roundup` -/

theorem ruleOverflow_roundup (cw : ControlWord) (s : Bool) : (ruleOverflow cw s).2 = overflowToInf cw.rc s := by
  unfold ruleOverflow overflowToInf
  cases cw.rc <;> cases s <;> rfl

theorem deliver_roundup (always : Bool) (cw : ControlWord) (s : Bool) {m : Frac} (hn : 0 < m.num) (hd : 0 < m.den)
    (K : KindSet) :
    (deliver cw s (roundGrid cw s m) K).roundup = (ruleRound always cw s m.toRat).roundup := by
  have hg := roundGrid_follows cw s hn hd
  have hover := Grid.overflows_iff (roundGrid cw s m)
  rw [hg.magnitude] at hover
  unfold deliver ruleRound
  by_cases ho : (roundGrid cw s m).overflows = true
  · simp only [ho, if_true, if_pos (hover.mp ho), ruleOverflow_roundup]
  · simp only [ho, if_neg (mt hover.mpr ho), Bool.false_eq_true, if_false, hg.up]

theorem round_roundup (cw : ControlWord) (s : Bool) {m : Frac} (hn : 0 < m.num) (hd : 0 < m.den) :
    (round cw s m).roundup = (ruleRound false cw s m.toRat).roundup := deliver_roundup false cw s hn hd _

theorem roundT_roundup (cw : ControlWord) (s : Bool) {m : Frac} (hn : 0 < m.num) (hd : 0 < m.den) :
    (roundT cw s m).roundup = (ruleRound true cw s m.toRat).roundup := deliver_roundup true cw s hn hd _

end Sys2Proof.Machine
end

section
/-! Condition bit C1 (spec/10_state.md R52): the `roundup` of every computing command is that of the numeric rules, and
with the ways in which a command ends this is what C1 becomes. -/

namespace Sys2Proof.Machine

/-! ### Exact operands -/

theorem signedRat_eq_valOf (v : FpuValue) : signedRat v = valOf v := by
  cases h : v.tag <;> simp [signedRat_eq, valOf, h]

/-- The value of an operand whose sign is taken to be `s`. -/
theorem valOf_withSign (v : FpuValue) (s : Bool) :
    valOf { v with sign := s } = if s then -(magOf v).toRat else (magOf v).toRat :=
  (signedRat_eq_valOf _).symm

theorem valOf_eq (v : FpuValue) : valOf v = if v.sign then -(magOf v).toRat else (magOf v).toRat :=
  valOf_withSign v v.sign

/-- A usable Valid or Denormal value is not zero. -/
theorem valOf_ne_zero {v : FpuValue} (hu : v.usable = true) (ht : v.tag = .valid ∨ v.tag = .denormal) :
    valOf v ≠ 0 := by
  have hwf : v.wf = true := FpuValue.usable_eq_wf (v := v) (by rcases ht with h | h <;> rw [h] <;> nofun) ▸ hu
  have hsig : v.sig.toNat ≠ 0 := by
    rcases ht with h | h
    · have := ((FpuValue.wf_valid_iff h).mp hwf).1
      omega
    · exact ((FpuValue.wf_denormal_iff h).mp hwf).2.2
  have hz : v.tag ≠ .zero := by rcases ht with h | h <;> rw [h] <;> nofun
  rw [← abs_pos, abs_valOf hz]
  have : (0 : ℚ) < v.sig.toNat := by exact_mod_cast Nat.pos_of_ne_zero hsig
  positivity

theorem abs_valOf_eq_magOf (v : FpuValue) : |valOf v| = (magOf v).toRat := by
  have h : 0 ≤ (magOf v).toRat := div_nonneg (Nat.cast_nonneg _) (Nat.cast_nonneg _)
  rw [valOf_eq]
  split
  · rw [abs_neg, abs_of_nonneg h]
  · rw [abs_of_nonneg h]

/-- The sign of a value that is not zero is its sign field. -/
theorem valOf_neg_iff {v : FpuValue} (h : valOf v ≠ 0) : valOf v < 0 ↔ v.sign = true := by
  have hm : 0 < (magOf v).toRat := abs_valOf_eq_magOf v ▸ abs_pos.mpr h
  rw [valOf_eq]
  cases v.sign
  · simpa using hm.le
  · simpa using hm

/-- A usable finite value is a Zero or is not zero. -/
theorem zero_or_valOf_ne_zero {v : FpuValue} (hu : v.usable = true) (hn : v.tag ≠ .nan) (hi : v.tag ≠ .infinity)
    (he : v.tag ≠ .empty) : v.tag = .zero ∨ valOf v ≠ 0 := by
  cases ht : v.tag with
  | zero => exact .inl rfl
  | valid => exact .inr (valOf_ne_zero hu (.inl ht))
  | denormal => exact .inr (valOf_ne_zero hu (.inr ht))
  | infinity => exact absurd ht hi
  | nan => exact absurd ht hn
  | empty => exact absurd ht he

/-! ### The exact result of an operation -/

/-- The exact rational result of an operation on finite operands (42_add_sub.md R209, 43_mul.md R225,
44_div.md R242). -/
def exactValue (op : ArithOp) (A B : FpuValue) : ℚ :=
  match op with
  | .add | .sub => valOf A + valOf { B with sign := effectiveSign op B }
  | .mul => valOf A * valOf B
  | .div => valOf A / valOf B

theorem signedNum_cast (s : Bool) (n : Nat) : (signedNum s n : ℚ) = if s then -(n : ℚ) else n := by
  cases s <;> simp [signedNum]

/-- The integer numerator of a sum over the common denominator. -/
theorem exactSum_eq (A B : FpuValue) (s : Bool) :
    ((signedNum A.sign ((magOf A).num * (magOf B).den) + signedNum s ((magOf B).num * (magOf A).den) : ℤ) : ℚ) /
      (((magOf A).den * (magOf B).den : ℕ) : ℚ) = valOf A + valOf { B with sign := s } := by
  have ha : ((magOf A).den : ℚ) ≠ 0 := by exact_mod_cast (magOf_den_pos A).ne'
  have hb : ((magOf B).den : ℚ) ≠ 0 := by exact_mod_cast (magOf_den_pos B).ne'
  rw [valOf_eq A, valOf_withSign, Int.cast_add, signedNum_cast, signedNum_cast, Frac.toRat, Frac.toRat]
  push_cast
  cases A.sign <;> cases s <;> simp only [Bool.false_eq_true, if_true, if_false] <;> field_simp

/-- What stage 5 computes is a fraction for the exact result, with its sign where it is not zero. -/
structure ExactIs (x : Bool × Frac) (r : ℚ) : Prop where
  den_pos : 0 < x.2.den
  toRat : x.2.toRat = |r|
  sign : r ≠ 0 → x.1 = decide (r < 0)

theorem ExactIs.num_eq_zero_iff {x : Bool × Frac} {r : ℚ} (h : ExactIs x r) : x.2.num = 0 ↔ r = 0 := by
  have hd : (x.2.den : ℚ) ≠ 0 := by exact_mod_cast h.den_pos.ne'
  rw [← abs_eq_zero, ← h.toRat, Frac.toRat, div_eq_zero_iff, or_iff_left hd, Nat.cast_eq_zero]

theorem exactSum_is {op : ArithOp} (hop : op = .add ∨ op = .sub) (A B : FpuValue) :
    ExactIs (exactOp op A B) (exactValue op A B) := by
  have hx : exactValue op A B = valOf A + valOf { B with sign := effectiveSign op B } := by
    rcases hop with rfl | rfl <;> rfl
  rw [hx, ← exactSum_eq]
  obtain ⟨t, ht⟩ : ∃ t : ℤ, t = signedNum A.sign ((magOf A).num * (magOf B).den) +
    signedNum (effectiveSign op B) ((magOf B).num * (magOf A).den) := ⟨_, rfl⟩
  have he : exactOp op A B = (decide (t < 0), ⟨t.natAbs, (magOf A).den * (magOf B).den⟩) := by
    rcases hop with rfl | rfl <;> simp only [exactOp, ht]
  have hden : 0 < (magOf A).den * (magOf B).den := Nat.mul_pos (magOf_den_pos A) (magOf_den_pos B)
  have hden' : (0 : ℚ) < ((magOf A).den * (magOf B).den : ℕ) := by exact_mod_cast hden
  rw [← ht, he]
  refine ⟨hden, ?_, fun _ => ?_⟩
  · rw [Frac.toRat, Nat.cast_natAbs, Int.cast_abs, abs_div, abs_of_pos hden']
  · rw [decide_eq_decide, div_lt_iff₀ hden', zero_mul, Int.cast_lt_zero]

/-- The sign of a product or a quotient of values that are not zero. -/
theorem xorSign_eq {A B : FpuValue} (hA : valOf A ≠ 0) (hB : valOf B ≠ 0) :
    xorSign A B = decide (valOf A * valOf B < 0) ∧ xorSign A B = decide (valOf A / valOf B < 0) := by
  have hxor : xorSign A B = decide ¬ (valOf A < 0 ↔ valOf B < 0) := by
    simp only [valOf_neg_iff hA, valOf_neg_iff hB, xorSign]
    cases A.sign <;> cases B.sign <;> rfl
  rw [hxor, decide_eq_decide, decide_eq_decide, mul_neg_iff, div_neg_iff]
  rcases lt_or_gt_of_ne hA with ha | ha <;> rcases lt_or_gt_of_ne hB with hb | hb <;>
    simp [ha, hb, ha.not_gt, hb.not_gt]

theorem exactProduct_is {A B : FpuValue} (hA : valOf A ≠ 0) (hB : valOf B ≠ 0) :
    ExactIs (exactOp .mul A B) (exactValue .mul A B) := by
  refine ⟨Nat.mul_pos (magOf_den_pos A) (magOf_den_pos B), ?_, fun _ => (xorSign_eq hA hB).1⟩
  rw [exactValue, abs_mul, abs_valOf_eq_magOf, abs_valOf_eq_magOf]
  simp only [exactOp, Frac.toRat, Nat.cast_mul]
  exact (div_mul_div_comm ..).symm

theorem exactQuotient_is {A B : FpuValue} (hA : valOf A ≠ 0) (hB : valOf B ≠ 0) :
    ExactIs (exactOp .div A B) (exactValue .div A B) := by
  have hnum : 0 < (magOf B).num := by
    rw [Nat.pos_iff_ne_zero]
    intro h0
    refine hB (abs_eq_zero.mp ?_)
    rw [abs_valOf_eq_magOf, Frac.toRat, h0, Nat.cast_zero, zero_div]
  refine ⟨Nat.mul_pos (magOf_den_pos A) hnum, ?_, fun _ => (xorSign_eq hA hB).2⟩
  rw [exactValue, abs_div, abs_valOf_eq_magOf, abs_valOf_eq_magOf]
  simp only [exactOp, Frac.toRat, Nat.cast_mul]
  exact (div_div_div_eq ..).symm

/-! ### The arithmetic primitives -/

/-- The operands settle the operation before stage 5: an Infinity, or the Zeros of R207, R224 and R241. -/
def Settled (op : ArithOp) (A B : FpuValue) : Prop :=
  match op with
  | .add | .sub => A.tag = .infinity ∨ B.tag = .infinity ∨ (A.tag = .zero ∧ B.tag = .zero)
  | .mul | .div => A.tag = .infinity ∨ B.tag = .infinity ∨ A.tag = .zero ∨ B.tag = .zero

theorem specialOp_eq_none_iff (op : ArithOp) (cw : ControlWord) (A B : FpuValue) :
    specialOp op cw A B = none ↔ ¬ Settled op A B := by
  cases op <;> simp only [specialOp, Settled] <;> split_ifs <;> simp <;> tauto

theorem settled_of_invalidOp {op : ArithOp} {A B : FpuValue} (h : invalidOp op A B = true) : Settled op A B := by
  cases op <;> simp only [invalidOp, Bool.and_eq_true, Bool.or_eq_true, decide_eq_true_eq] at h
  case add | sub => exact .inl h.1.1
  case mul => exact h.elim (fun h => .inl h.1) fun h => .inr (.inl h.2)
  case div => exact h.elim (fun h => .inl h.1) fun h => .inr (.inr (.inl h.1))

theorem compute_roundup_of_settled {op : ArithOp} {A B : FpuValue} (cw : ControlWord)
    (h : A.tag = .nan ∨ B.tag = .nan ∨ Settled op A B) : (compute op cw A B).roundup = false := by
  unfold compute
  split
  · rfl
  next hnan =>
    split
    · rfl
    · split
      · rfl
      next hnone =>
        have hs : ¬ Settled op A B := (specialOp_eq_none_iff op cw A B).mp hnone
        exact absurd h (by simpa only [or_assoc] using not_or.mpr ⟨hnan, hs⟩)

theorem compute_of_not_settled {op : ArithOp} {A B : FpuValue} (cw : ControlWord) (hA : A.tag ≠ .nan)
    (hB : B.tag ≠ .nan) (h : ¬ Settled op A B) : compute op cw A B = computeFinite op cw A B := by
  rw [compute, if_neg (not_or.mpr ⟨hA, hB⟩), if_neg (mt settled_of_invalidOp h),
    (specialOp_eq_none_iff op cw A B).mpr h]

/-- `roundup` of an exact result: false for an exact zero, else that of the rule's rounding. -/
def exactRoundup (cw : ControlWord) (x : ℚ) : Bool := if x = 0 then false else (ruleRoundSigned cw x).roundup

theorem computeFinite_roundup {op : ArithOp} {A B : FpuValue} {x : ℚ} (cw : ControlWord)
    (h : ExactIs (exactOp op A B) x) : (computeFinite op cw A B).roundup = exactRoundup cw x := by
  unfold computeFinite exactRoundup
  by_cases h0 : x = 0
  · simp only [h.num_eq_zero_iff.mpr h0, h0, if_true]
  · have hnum : (exactOp op A B).2.num ≠ 0 := mt h.num_eq_zero_iff.mp h0
    simp only [hnum, h0, if_false, round_roundup _ _ (Nat.pos_of_ne_zero hnum) h.den_pos, h.toRat, h.sign h0,
      ruleRoundSigned]

/-- Where the operands do not settle the operation its exact result is what stage 5 computes. -/
theorem exactOp_is {op : ArithOp} {A B : FpuValue} (hs : ¬ Settled op A B)
    (hA : A.tag = .zero ∨ valOf A ≠ 0) (hB : B.tag = .zero ∨ valOf B ≠ 0) :
    ExactIs (exactOp op A B) (exactValue op A B) := by
  cases op with
  | add => exact exactSum_is (.inl rfl) A B
  | sub => exact exactSum_is (.inr rfl) A B
  | mul =>
    simp only [Settled, not_or] at hs
    exact exactProduct_is (hA.resolve_left hs.2.2.1) (hB.resolve_left hs.2.2.2)
  | div =>
    simp only [Settled, not_or] at hs
    exact exactQuotient_is (hA.resolve_left hs.2.2.1) (hB.resolve_left hs.2.2.2)

/-! ### The rules of the arithmetic primitives -/

@[simp] theorem ruleExact_c1 (A B v : FpuValue) : (ruleExact A B v).c1 = false := rfl

@[simp] theorem ruleInvalid_c1 : ruleInvalid.c1 = false := rfl

@[simp] theorem ruleRounded_c1 (cw : ControlWord) (A B : FpuValue) (x : ℚ) :
    (ruleRounded cw A B x).c1 = (ruleRoundSigned cw x).roundup := rfl

theorem ruleSum_c1 (cw : ControlWord) (A B : FpuValue) (s : Bool) :
    (ruleSum cw A B s).c1 =
      if A.tag = .infinity ∨ B.tag = .infinity ∨ (A.tag = .zero ∧ B.tag = .zero) then false
      else exactRoundup cw (valOf A + valOf { B with sign := s }) := by
  unfold ruleSum exactRoundup
  cases A.tag <;> cases B.tag <;> simp [apply_ite RuleResult.c1]

theorem ruleProduct_c1 (cw : ControlWord) (A B : FpuValue) :
    (ruleProduct cw A B).c1 =
      if A.tag = .infinity ∨ B.tag = .infinity ∨ A.tag = .zero ∨ B.tag = .zero then false
      else (ruleRoundSigned cw (valOf A * valOf B)).roundup := by
  unfold ruleProduct
  cases A.tag <;> cases B.tag <;> simp

theorem ruleQuotient_c1 (cw : ControlWord) (A B : FpuValue) :
    (ruleQuotient cw A B).c1 =
      if A.tag = .infinity ∨ B.tag = .infinity ∨ A.tag = .zero ∨ B.tag = .zero then false
      else (ruleRoundSigned cw (valOf A / valOf B)).roundup := by
  unfold ruleQuotient
  cases A.tag <;> cases B.tag <;> simp

theorem ruleArith_c1_of_settled {op : ArithOp} {A B : FpuValue} (cw : ControlWord)
    (h : A.tag = .nan ∨ B.tag = .nan ∨ Settled op A B) : (ruleArith op cw A B).c1 = false := by
  by_cases hnan : A.tag = .nan ∨ B.tag = .nan
  · unfold ruleArith
    rw [if_pos hnan]
    rfl
  · have hs : Settled op A B := (or_assoc.mpr h).resolve_left hnan
    unfold ruleArith
    rw [if_neg hnan]
    cases op with
    | add | sub => exact (ruleSum_c1 ..).trans (if_pos hs)
    | mul => exact (ruleProduct_c1 ..).trans (if_pos hs)
    | div => exact (ruleQuotient_c1 ..).trans (if_pos hs)

theorem ruleArith_c1_of_not_settled {op : ArithOp} {A B : FpuValue} (cw : ControlWord) (hnA : A.tag ≠ .nan)
    (hnB : B.tag ≠ .nan) (hs : ¬ Settled op A B) (hA : A.tag = .zero ∨ valOf A ≠ 0) (hB : B.tag = .zero ∨ valOf B ≠ 0) :
    (ruleArith op cw A B).c1 = exactRoundup cw (exactValue op A B) := by
  unfold ruleArith
  rw [if_neg (not_or.mpr ⟨hnA, hnB⟩)]
  cases op with
  | add | sub => exact (ruleSum_c1 ..).trans (if_neg hs)
  | mul =>
    have hz := hs
    simp only [Settled, not_or] at hz
    rw [exactRoundup, exactValue, if_neg (mul_ne_zero (hA.resolve_left hz.2.2.1) (hB.resolve_left hz.2.2.2))]
    exact (ruleProduct_c1 ..).trans (if_neg hs)
  | div =>
    have hz := hs
    simp only [Settled, not_or] at hz
    rw [exactRoundup, exactValue, if_neg (div_ne_zero (hA.resolve_left hz.2.2.1) (hB.resolve_left hz.2.2.2))]
    exact (ruleQuotient_c1 ..).trans (if_neg hs)

/-- What a primitive reports as `roundup` of usable operands is what the rules report (R210, R226, R243). -/
theorem compute_roundup_eq_rule (op : ArithOp) (cw : ControlWord) {A B : FpuValue} (hA : A.usable = true)
    (hB : B.usable = true) (heA : A.tag ≠ .empty) (heB : B.tag ≠ .empty) :
    (compute op cw A B).roundup = (ruleArith op cw A B).c1 := by
  by_cases h : A.tag = .nan ∨ B.tag = .nan ∨ Settled op A B
  · rw [compute_roundup_of_settled cw h, ruleArith_c1_of_settled cw h]
  · obtain ⟨hnA, hnB, hs⟩ : A.tag ≠ .nan ∧ B.tag ≠ .nan ∧ ¬ Settled op A B := by simpa only [not_or] using h
    have hiA : A.tag ≠ .infinity := fun e => hs (by cases op <;> exact .inl e)
    have hiB : B.tag ≠ .infinity := fun e => hs (by cases op <;> exact .inr (.inl e))
    have hvA := zero_or_valOf_ne_zero hA hnA hiA heA
    have hvB := zero_or_valOf_ne_zero hB hnB hiB heB
    rw [compute_of_not_settled cw hnA hnB hs, computeFinite_roundup cw (exactOp_is hs hvA hvB),
      ruleArith_c1_of_not_settled cw hnA hnB hs hvA hvB]

/-! ### The logarithm commands -/

theorem Frac.isOne_iff {m : Frac} (h : 0 < m.den) : m.isOne = true ↔ m.toRat = 1 := by
  have : (m.den : ℚ) ≠ 0 := by exact_mod_cast h.ne'
  rw [Frac.isOne, decide_eq_true_eq, Frac.toRat, div_eq_one_iff_eq this, Nat.cast_inj]

theorem Frac.aboveOne_iff {m : Frac} (h : 0 < m.den) : m.aboveOne = true ↔ 1 < m.toRat := by
  have : (0 : ℚ) < m.den := by exact_mod_cast h
  rw [Frac.aboveOne, decide_eq_true_eq, Frac.toRat, one_lt_div this, Nat.cast_lt]

/-- A value within the accuracy of a logarithm that is not zero is not zero (45_log2.md R264, R270). -/
theorem withinAccuracy_ne_zero {k : Nat} (hk : 1 ≤ k) {z : Rat} (hz : 0 < z) (h1 : z ≠ 1) (cand : Rat) :
    withinAccuracy k hk z cand ≠ 0 := by
  have hclose : closeToLog2 k z (withinAccuracy k hk z cand) = true := by
    rw [withinAccuracy, dif_pos ⟨hz, h1⟩]
    split
    · assumption
    · exact Encodable.choose_spec (exists_closeToLog2 k hk z hz h1)
  intro h0
  rw [h0, closeToLog2_iff k hk z 0 hz h1, Rat.cast_zero, zero_sub, abs_neg] at hclose
  have hlog : Real.logb 2 (z : ℝ) ≠ 0 :=
    Real.logb_ne_zero_of_pos_of_ne_one (by norm_num) (by exact_mod_cast hz) (by exact_mod_cast h1)
  have hsmall : 1 / (2 : ℝ) ^ k < 1 := by
    rw [div_lt_one (by positivity)]
    exact one_lt_pow₀ (by norm_num) (by omega)
  nlinarith [abs_pos.mpr hlog]

theorem pL2_ne_zero {x : Rat} (hx : 0 < x) (h1 : x ≠ 1) : pL2 x ≠ 0 := withinAccuracy_ne_zero _ hx h1 _

theorem pL2P1_ne_zero {x : Rat} (hx : -1 < x) (h0 : x ≠ 0) : pL2P1 x ≠ 0 := by
  have hpos : 0 < 1 + x := by linarith
  have hne : 1 + x ≠ 1 := fun h => h0 (by linarith)
  unfold pL2P1
  split
  · exact withinAccuracy_ne_zero _ hpos hne _
  · exact withinAccuracy_ne_zero _ hpos hne _

/-- The engine's rounding reports the rule's `roundup` for every value but zero. -/
theorem roundT_ratMag_roundup (cw : ControlWord) {y : Rat} (hy : y ≠ 0) :
    (roundT cw (decide (y < 0)) (ratMag y)).roundup = (ruleRound true cw (decide (y < 0)) |y|).roundup := by
  have hn : 0 < (ratMag y).num := Int.natAbs_pos.mpr (Rat.num_ne_zero.mpr hy)
  rw [roundT_roundup cw _ hn y.den_pos, ratMag_toRat]

theorem logComputed_roundup_of_settled {screen : FpuValue → Screened} {X v : FpuValue} {K L : KindSet}
    (h : screen X = .settled K L v) (engine : Rat → Rat) (cw : ControlWord) :
    (logComputed screen engine cw X).roundup = false := by
  rw [logComputed_settled h]

theorem logComputed_roundup_of_ordinary {screen : FpuValue → Screened} {X : FpuValue} {K : KindSet} {engine : Rat → Rat}
    (h : screen X = .ordinary K (signedRat X)) (cw : ControlWord) (hy : engine (valOf X) ≠ 0) :
    (logComputed screen engine cw X).roundup = (ruleEngine cw X (engine (valOf X))).c1 := by
  rw [logComputed_ordinary h, signedRat_eq_valOf]
  exact roundT_ratMag_roundup cw hy

/-- FL2X on a Valid or Denormal argument (R262, tests 4 to 8). -/
theorem log2_roundup_of_finite (cw : ControlWord) {X : FpuValue} (ht : X.tag = .valid ∨ X.tag = .denormal)
    (hx : valOf X ≠ 0) : (logComputed screenL2 pL2 cw X).roundup = (ruleLog2 cw X).c1 := by
  have hrule : ruleLog2 cw X = if X.sign then ruleInvalid
      else if valOf X = 1 then ruleExact X X (zeroOf false) else ruleEngine cw X (pL2 (valOf X)) := by
    rcases ht with ht | ht <;> simp only [ruleLog2, ht]
  have hscreen : screenL2 X = if X.sign then .settled kIE 0 indef
      else if (magOf X).isOne then .settled (denormalArg X) 0 (zeroOf false)
      else .ordinary (denormalArg X) (signedRat X) := by
    rcases ht with ht | ht <;> simp [screenL2, ht]
  by_cases hs : X.sign = true
  · rw [hrule, if_pos hs, logComputed_roundup_of_settled (hscreen.trans (if_pos hs)), ruleInvalid_c1]
  · rw [if_neg hs] at hrule hscreen
    have hpos : 0 < valOf X := lt_of_le_of_ne (not_lt.mp (mt (valOf_neg_iff hx).mp hs)) hx.symm
    have hone : (magOf X).isOne = true ↔ valOf X = 1 := by
      rw [Frac.isOne_iff (magOf_den_pos X), ← abs_valOf_eq_magOf, abs_of_pos hpos]
    by_cases h1 : valOf X = 1
    · rw [hrule, if_pos h1, logComputed_roundup_of_settled (hscreen.trans (if_pos (hone.mpr h1))), ruleExact_c1]
    · rw [hrule, if_neg h1, logComputed_roundup_of_ordinary (hscreen.trans (if_neg (mt hone.mp h1))) cw
        (pL2_ne_zero hpos h1)]

/-- FL2XP1 on a Valid or Denormal argument (R272, tests 5 to 8). -/
theorem log2p1_roundup_of_finite (cw : ControlWord) {X : FpuValue} (ht : X.tag = .valid ∨ X.tag = .denormal)
    (hx : valOf X ≠ 0) : (logComputed screenL2P1 pL2P1 cw X).roundup = (ruleLog2p1 cw X).c1 := by
  have hrule : ruleLog2p1 cw X = if valOf X < -1 then ruleInvalid
      else if valOf X = -1 then { first := ruleDE X X, second := kZE, value := infOf true, c1 := false }
      else ruleEngine cw X (pL2P1 (valOf X)) := by
    rcases ht with ht | ht <;> simp only [ruleLog2p1, ht]
  have hscreen : screenL2P1 X = if (X.sign && (magOf X).aboveOne) = true then .settled kIE 0 indef
      else if (X.sign && (magOf X).isOne) = true then .settled (denormalArg X) kZE (infOf true)
      else .ordinary (denormalArg X) (signedRat X) := by
    rcases ht with ht | ht <;> simp [screenL2P1, ht]
  have habove : (X.sign && (magOf X).aboveOne) = true ↔ valOf X < -1 := by
    rw [Bool.and_eq_true, ← valOf_neg_iff hx, Frac.aboveOne_iff (magOf_den_pos X), ← abs_valOf_eq_magOf]
    exact ⟨fun ⟨hneg, h⟩ => by rw [abs_of_neg hneg] at h; linarith,
      fun h => ⟨by linarith, by rw [abs_of_neg (by linarith)]; linarith⟩⟩
  have hone : (X.sign && (magOf X).isOne) = true ↔ valOf X = -1 := by
    rw [Bool.and_eq_true, ← valOf_neg_iff hx, Frac.isOne_iff (magOf_den_pos X), ← abs_valOf_eq_magOf]
    exact ⟨fun ⟨hneg, h⟩ => by rw [abs_of_neg hneg] at h; linarith, fun h => by rw [h]; norm_num⟩
  by_cases h1 : valOf X < -1
  · rw [hrule, if_pos h1, logComputed_roundup_of_settled (hscreen.trans (if_pos (habove.mpr h1))), ruleInvalid_c1]
  · rw [if_neg h1] at hrule
    rw [if_neg (mt habove.mp h1)] at hscreen
    by_cases h2 : valOf X = -1
    · rw [hrule, if_pos h2, logComputed_roundup_of_settled (hscreen.trans (if_pos (hone.mpr h2)))]
    · have hlt : -1 < valOf X := lt_of_le_of_ne (not_lt.mp h1) (Ne.symm h2)
      rw [hrule, if_neg h2, logComputed_roundup_of_ordinary (hscreen.trans (if_neg (mt hone.mp h2))) cw
        (pL2P1_ne_zero hlt hx)]

/-- What FL2X reports as `roundup` of a usable argument is what the rule reports (R262). -/
theorem log2_roundup_eq_rule (cw : ControlWord) {X : FpuValue} (hu : X.usable = true) (he : X.tag ≠ .empty) :
    (logComputed screenL2 pL2 cw X).roundup = (ruleLog2 cw X).c1 := by
  cases ht : X.tag with
  | valid => exact log2_roundup_of_finite cw (.inl ht) (valOf_ne_zero hu (.inl ht))
  | denormal => exact log2_roundup_of_finite cw (.inr ht) (valOf_ne_zero hu (.inr ht))
  | nan => simp [logComputed, screenL2, ruleLog2, ruleNaN, ht]
  | zero => simp [logComputed, screenL2, ruleLog2, ht]
  | infinity => cases hs : X.sign <;> simp [logComputed, screenL2, ruleLog2, ht, hs]
  | empty => exact absurd ht he

/-- What FL2XP1 reports as `roundup` of a usable argument is what the rule reports (R272). -/
theorem log2p1_roundup_eq_rule (cw : ControlWord) {X : FpuValue} (hu : X.usable = true) (he : X.tag ≠ .empty) :
    (logComputed screenL2P1 pL2P1 cw X).roundup = (ruleLog2p1 cw X).c1 := by
  cases ht : X.tag with
  | valid => exact log2p1_roundup_of_finite cw (.inl ht) (valOf_ne_zero hu (.inl ht))
  | denormal => exact log2p1_roundup_of_finite cw (.inr ht) (valOf_ne_zero hu (.inr ht))
  | nan => simp [logComputed, screenL2P1, ruleLog2p1, ruleNaN, ht]
  | zero => simp [logComputed, screenL2P1, ruleLog2p1, ht]
  | infinity => cases hs : X.sign <;> simp [logComputed, screenL2P1, ruleLog2p1, ht, hs]
  | empty => exact absurd ht he

/-! ### C1 after completion -/

/-- A command that neither computes nor clears C1 leaves it. -/
theorem c1After_of_not_computing {i : Instr} {s : State} (hfinit : i ≠ .finit) (hfldc : ∀ c, i ≠ .fldc c)
    (hr : arithRow i = none) (hlog : ruleLog i s.cw (s.st 0) = none) : c1After i s = s.c1 := by
  have hnone : computedBy i s = none := by
    unfold computedBy
    split
    · cases hlog
    · cases hlog
    · rw [hr, Option.bind_none]
  unfold c1After
  split
  · exact absurd rfl hfinit
  · exact absurd rfl (hfldc _)
  · rw [hnone, Option.elim_none]

theorem c1AfterCompletion_of_stackFault {i : Instr} {s t : State} (h : stackUnderflows i s ∨ stackOverflows i s)
    (hc : t.c1 = true) : C1AfterCompletion i s t := by
  refine ⟨?_, fun _ => hc, fun hu ho => (h.elim hu ho).elim⟩
  rintro rfl
  exact h.elim (fun hu => False.elim hu) fun ho => (not_stackOverflows rfl s ho).elim

/-- The table of R52 where there is no stack fault. -/
theorem c1AfterCompletion_of_c1After {i : Instr} {s t : State} (husable : s.SlotsUsable) (hu : ¬ stackUnderflows i s)
    (ho : ¬ stackOverflows i s) (hc : t.c1 = c1After i s) : C1AfterCompletion i s t := by
  refine ⟨?_, fun h => (h.elim hu ho).elim, fun _ _ => ⟨?_, fun row A B hr hops => ?_, fun R hR => ?_, ?_⟩⟩
  · rintro rfl
    exact hc
  · rintro ⟨c, rfl⟩
    exact hc
  · obtain ⟨hA, hB, huA, huB, heA, heB⟩ := hops
    rw [hc, c1After_of_computedBy (computedBy_of_arithRow hr hA hB),
      compute_roundup_eq_rule row.op s.cw huA huB heA heB]
  · cases i with
    | fl2x => cases hR; exact hc.trans (log2_roundup_eq_rule s.cw (husable _) hu)
    | fl2xp1 => cases hR; exact hc.trans (log2p1_roundup_eq_rule s.cw (husable _) hu)
    | _ => cases hR
  · intro hfinit hfldc hr hlog
    rw [hc, c1After_of_not_computing hfinit (fun c e => hfldc ⟨c, e⟩) hr hlog]

/-- Settles O16: a command that does not complete leaves C1; a masked stack fault sets it; else it is what the command
computes, which is what the rules say. -/
theorem conditionBitC1 : Obligations.ConditionBitC1 := fun i s t r husable e hr => by
  have h := exec_ends e
  refine ⟨fun hd => (congrArg State.c1 (h.frame_of_not_done hr hd) :), fun hd => ?_⟩
  cases h with
  | finit | fclex | ldcw => exact c1AfterCompletion_of_c1After husable id (not_stackOverflows rfl s) rfl
  | illegal | fault => cases hr; cases hd
  | maskedStackFault hf ht => exact c1AfterCompletion_of_stackFault hf ht.c1_eq
  | completes hu ho ht => exact c1AfterCompletion_of_c1After husable hu ho ht.c1_eq

end Sys2Proof.Machine
end

section
/-! Only the immediate forms and LDCW read the operand port (spec/20_memory.md R73): every other command is an update of
the state that carries whatever stands on the port along. -/

namespace Sys2Proof.Machine

/-- An update that neither reads nor writes the operand port. -/
def IgnoresOperand (f : State → State) : Prop :=
  ∀ (s : State) (o : PortWord), f { s with opnd := o } = { f s with opnd := o }

namespace IgnoresOperand

/-! ### How such updates are put together -/

theorem comp {f g : State → State} (hg : IgnoresOperand g) (hf : IgnoresOperand f) : IgnoresOperand fun s => g (f s) :=
  fun s o => (congrArg g (hf s o)).trans (hg (f s) o)

/-- A choice by a condition that does not read the port. -/
theorem ite {c : State → Prop} [DecidablePred c] {f g : State → State}
    (hc : ∀ (s : State) (o : PortWord), c { s with opnd := o } ↔ c s) (hf : IgnoresOperand f) (hg : IgnoresOperand g) :
    IgnoresOperand fun s => if c s then f s else g s := fun s o => by
  by_cases h : c s
  · simp only [if_pos h, if_pos ((hc s o).mpr h), hf s o]
  · simp only [if_neg h, if_neg (mt (hc s o).mp h), hg s o]

/-! ### Updates -/

theorem respond (r : Response) : IgnoresOperand (respond r) := fun _ _ => rfl

theorem done : IgnoresOperand done := respond _

theorem pushRaw (v : FpuValue) : IgnoresOperand (pushRaw v) := fun _ _ => rfl

theorem popStack : IgnoresOperand popStack := fun _ _ => rfl

theorem emptyTag_phys (i : RegIdx) : IgnoresOperand fun s => emptyTag (s.phys i) s := fun _ _ => rfl

theorem popIf (pops : Bool) : IgnoresOperand (popIf pops) := by
  cases pops
  · exact fun _ _ => rfl
  · exact popStack

theorem writeBack (d : RegIdx) (v : FpuValue) (pops : Bool) : IgnoresOperand (writeBack d v pops) :=
  done.comp ((popIf pops).comp (f := fun s => setSlot (s.phys d) v s) fun _ _ => rfl)

/-! ### Shared operations -/

theorem signal (K : KindSet) {k : State → State} (hk : IgnoresOperand k) : IgnoresOperand fun s => signal K s k :=
  ite (fun _ _ => Iff.rfl) (hk.comp (f := setSticky K) fun _ _ => rfl) fun _ _ => rfl

theorem stackUnderflow {k : State → State} (hk : IgnoresOperand k) : IgnoresOperand fun s => stackUnderflow s k :=
  signal _ (hk.comp (f := setC1 true) fun _ _ => rfl)

theorem stackOverflow {k : State → State} (hk : IgnoresOperand k) : IgnoresOperand fun s => stackOverflow s k :=
  signal _ (hk.comp (f := setC1 true) fun _ _ => rfl)

theorem readReg (i : RegIdx) {k : FpuValue → State → State} (hk : ∀ v, IgnoresOperand (k v)) :
    IgnoresOperand fun s => readReg i s k :=
  ite (fun _ _ => Iff.rfl) (stackUnderflow (hk indef)) fun s => hk (s.st i) s

theorem push (v : FpuValue) {k kOver : State → State} (hk : IgnoresOperand k) (hOver : IgnoresOperand kOver) :
    IgnoresOperand fun s => push v s k kOver :=
  ite (fun _ _ => Iff.rfl) (stackOverflow (hOver.comp (pushRaw indef))) (hk.comp (pushRaw v))

theorem store (i : RegIdx) {k : State → State} (hk : IgnoresOperand k) : IgnoresOperand fun s => store i s k :=
  readReg 0 fun v => hk.comp (f := fun s => setSlot (s.phys i) v s) fun _ _ => rfl

theorem finishComputed (c : Computed) (d : RegIdx) (pops : Bool) : IgnoresOperand (finishComputed c d pops) :=
  signal _ (signal _ ((writeBack d c.value pops).comp (f := setC1 c.roundup) fun _ _ => rfl))

/-! ### Commands -/

/-- An arithmetic command: a register operand is read from the slots, and an immediate one stands in the form. -/
theorem arith (op : ArithOp) (f : Form) : IgnoresOperand (arith op f) :=
  ite (fun _ _ => Iff.rfl) (stackUnderflow (writeBack _ _ _)) fun s =>
    finishComputed (compute op s.cw (f.operands s).1 (f.operands s).2) _ _ s

theorem logCommand (screen : FpuValue → Screened) (engine : Rat → Rat) : IgnoresOperand (logCommand screen engine) :=
  fun s o => by
    by_cases he : (s.st 0).tag = .empty
    · rw [logCommand_of_empty he, logCommand_of_empty (s := { s with opnd := o }) he]
      exact stackUnderflow (writeBack _ _ _) s o
    · rw [logCommand_of_nonempty he, logCommand_of_nonempty (s := { s with opnd := o }) he]
      exact finishComputed (logComputed screen engine s.cw (s.st 0)) _ _ s o

end IgnoresOperand

/-! ### Every command -/

/-- But for the immediate forms and LDCW, a command is an update that neither reads nor writes the operand port. -/
theorem exec_eq_next_ignoresOperand {i : Instr} (himm : usesImmediate i = false) (hldcw : i ≠ .ldcw) :
    ∃ f, IgnoresOperand f ∧ ∀ s, exec i s = .next (f s) := by
  cases i with
  | fldImm | faddImm | fsubImm | fsubrImm | fmulImm | fdivImm | fdivrImm => exact absurd himm.symm Bool.false_ne_true
  | ldcw => exact absurd rfl hldcw
  | finit | fclex | stsw | stcw => exact ⟨_, fun _ _ => rfl, fun _ => rfl⟩
  | fldReg n =>
    refine ⟨_, ?_, fun _ => rfl⟩
    have pushIndef : IgnoresOperand fun s => done (pushRaw indef s) := .comp .done (.pushRaw indef)
    exact .ite (fun _ _ => Iff.rfl) (.stackOverflow pushIndef)
      (.ite (fun _ _ => Iff.rfl) (.stackUnderflow pushIndef) fun _ _ => rfl)
  | fldc c =>
    refine ⟨_, ?_, fun _ => rfl⟩
    cases constTable c with
    | some v => exact .push v (fun _ _ => rfl) .done
    | none => exact .respond _
  | fst n => exact ⟨_, .store n .done, fun _ => rfl⟩
  | fstp n => exact ⟨_, .store n (.comp .done .popStack), fun _ => rfl⟩
  | fxch n =>
    refine ⟨_, ?_, fun _ => rfl⟩
    have swap : IgnoresOperand fun s => done (swapSlots (s.phys 0) (s.phys n) s) := fun _ _ => rfl
    exact .ite (fun _ _ => Iff.rfl) (.stackUnderflow swap) swap
  | ffree n => exact ⟨_, .comp .done (.emptyTag_phys n), fun _ => rfl⟩
  | ffreep n => exact ⟨_, .comp .done (.comp .popStack (.emptyTag_phys n)), fun _ => rfl⟩
  | pop => exact ⟨_, .comp .done .popStack, fun _ => rfl⟩
  | rdst n => exact ⟨_, .readReg n fun _ => .respond _, fun _ => rfl⟩
  | fl2x | fl2xp1 => exact ⟨_, .logCommand _ _, fun _ => rfl⟩
  | _ => exact ⟨_, .arith _ _, fun _ => rfl⟩

/-- LDCW reads the low 16 bits of the operand port alone (46_stack_mgmt_aux.md R303). -/
theorem execLdcw_of_low16_eq {s t : State} {o : PortWord} (ho : o.extractLsb' 0 16 = s.opnd.extractLsb' 0 16)
    (e : execLdcw s = .next t) : execLdcw { s with opnd := o } = .next { t with opnd := o } := by
  unfold execLdcw at e ⊢
  dsimp only
  rw [ho]
  cases hw : ControlWord.ofWord (s.opnd.extractLsb' 0 16) <;> (rw [hw] at e; cases e; rfl)

/-! ### The obligation -/

/-- Settles O56: a command that reads no operand carries the port's word along, and LDCW decodes the same control word
from both operands. -/
theorem operandPortReaders : Obligations.OperandPortReaders := by
  rintro i s t o e (⟨himm, hldcw⟩ | ⟨rfl, ho⟩)
  · obtain ⟨f, hf, hexec⟩ := exec_eq_next_ignoresOperand himm hldcw
    rw [hexec] at e ⊢
    cases e
    rw [hf]
  · exact execLdcw_of_low16_eq ho e

end Sys2Proof.Machine
end

section
/-! The decoder reads the fields of a command's own word back (spec/30_encoding.md R91 to R93), so a word decodes to a
command exactly when it is the word of that command and the command is well-formed. -/

namespace Sys2Proof

/-! ### The fields of a packed word (R91) -/

section Fields

variable (opc : BitVec 5) (p r d m : Bool) (idx : BitVec 4)

/-- The bits of a packed word, field by field from bit 0 upwards. -/
theorem getLsbD_packWord (k : Nat) :
    (packWord opc p r d m idx).getLsbD k =
      if k < 4 then idx.getLsbD k else if k < 7 then false else if k = 7 then m else if k = 8 then d
      else if k = 9 then r else if k = 10 then p else opc.getLsbD (k - 11) := by
  change BitVec.getLsbD (w := 5 + 1 + 1 + 1 + 1 + 3 + 4) (opc ++ BitVec.ofBool p ++ BitVec.ofBool r ++
    BitVec.ofBool d ++ BitVec.ofBool m ++ (0 : BitVec 3) ++ idx) k = _
  simp only [BitVec.getLsbD_append, BitVec.getLsbD_ofBool]
  by_cases hk : k < 11
  · interval_cases k <;> simp
  · have hsub : k - 4 - 3 - 1 - 1 - 1 - 1 = k - 11 := by omega
    simp only [hsub]
    grind

@[simp] theorem fieldOpc_packWord : fieldOpc (packWord opc p r d m idx) = opc := by
  ext k hk
  simp only [fieldOpc, BitVec.getElem_extractLsb', getLsbD_packWord]
  simp (disch := omega) only [if_neg, Nat.add_sub_cancel_left, BitVec.getLsbD_eq_getElem]

@[simp] theorem fieldP_packWord : fieldP (packWord opc p r d m idx) = p := getLsbD_packWord opc p r d m idx 10

@[simp] theorem fieldR_packWord : fieldR (packWord opc p r d m idx) = r := getLsbD_packWord opc p r d m idx 9

@[simp] theorem fieldD_packWord : fieldD (packWord opc p r d m idx) = d := getLsbD_packWord opc p r d m idx 8

@[simp] theorem fieldM_packWord : fieldM (packWord opc p r d m idx) = m := getLsbD_packWord opc p r d m idx 7

@[simp] theorem fieldZ_packWord : fieldZ (packWord opc p r d m idx) = 0 := by
  ext k hk
  have inside : 4 + k < 7 := by omega
  simp [fieldZ, getLsbD_packWord, inside]

@[simp] theorem fieldIdx_packWord : fieldIdx (packWord opc p r d m idx) = idx := by
  ext k hk
  simp [fieldIdx, getLsbD_packWord, hk]

end Fields

/-! ### The index of a packed word (R93) -/

@[simp] theorem getLsbD_regField (n : RegIdx) : (regField n).getLsbD 3 = false := by simp [regField]

@[simp] theorem extractLsb'_regField (n : RegIdx) : (regField n).extractLsb' 0 3 = n := by
  ext k hk
  simp [regField, hk, Nat.lt_succ_of_lt hk]

section Index

variable (opc : BitVec 5) (p r d m : Bool)

@[simp] theorem noIndex_packWord (i : Instr) : noIndex (packWord opc p r d m 0#4) i = .ok i := by simp [noIndex]

@[simp] theorem regIndex_packWord (f : RegIdx → Instr) (n : RegIdx) :
    regIndex (packWord opc p r d m (regField n)) f = .ok (f n) := by
  rw [regIndex, fieldIdx_packWord, getLsbD_regField, extractLsb'_regField, if_neg Bool.false_ne_true]

@[simp] theorem constIndex_packWord (c : ConstIdx) :
    constIndex (packWord opc p r d m c) = if constIdxLegal c then .ok (.fldc c) else .error .reservedConstant := by
  rw [constIndex, fieldIdx_packWord]

end Index

/-! ### Decoding the word of a command -/

/-- FLDC is the one command whose word need not be legal (R93). -/
theorem decode_encode_fldc (c : ConstIdx) :
    decode (encode (.fldc c)) = if constIdxLegal c then .ok (.fldc c) else .error .reservedConstant := by
  simp [encode, decode, fldcForm]

theorem decode_encode {i : Instr} (h : i.WellFormed) : decode (encode i) = .ok i := by
  cases i with
  | fldc c => exact (decode_encode_fldc c).trans (if_pos h)
  | finit | fclex | stsw | stcw | ldcw | pop | fl2x | fl2xp1 => simp [encode, decode, plainForm]
  | fxch n | rdst n => simp [encode, decode, plainRegForm]
  | fst n | fstp n | ffree n | ffreep n => simp [encode, decode, popRegForm]
  | fldReg n | fldImm => simp [encode, decode, fldForms]
  | faddStSti n | faddStiSt n | faddImm | faddp n | fmulStSti n | fmulStiSt n | fmulImm | fmulp n =>
    simp [encode, decode, commutativeForms]
  | fsubStSti n | fsubStiSt n | fsubImm | fsubrStSti n | fsubrStiSt n | fsubrImm | fsubp n | fsubrp n
  | fdivStSti n | fdivStiSt n | fdivImm | fdivrStSti n | fdivrStiSt n | fdivrImm | fdivp n | fdivrp n =>
    simp [encode, decode, reversibleForms]

theorem wellFormed_of_decode {w : CmdWord} {i : Instr} (h : decode w = .ok i) : i.WellFormed := by
  cases i with
  | fldc c =>
    rw [← encode_of_decode h, decode_encode_fldc] at h
    split at h
    next hc => exact hc
    next => cases h
  | _ => rfl

/-- The legal words are the words of the well-formed commands. -/
theorem decode_eq_ok_iff {w : CmdWord} {i : Instr} : decode w = .ok i ↔ encode i = w ∧ i.WellFormed :=
  ⟨fun h => ⟨encode_of_decode h, wellFormed_of_decode h⟩, fun ⟨hw, hi⟩ => hw ▸ decode_encode hi⟩

/-! ### The obligations -/

/-- Settles O1: the fields of the packed word are the fields the decoder splits on. -/
theorem decodeOfEncode : Obligations.DecodeOfEncode := fun _ => decode_encode

/-- Settles O2, by the inverse of the decoder on the words it accepts. -/
theorem encodeOfDecoded : Obligations.EncodeOfDecoded := fun _ _ => decode_eq_ok_iff.mp

/-- Settles O4: a legal word is its command's own, and an illegal one fails the clause of R108 that is named. -/
theorem sampleWordsDecode : Obligations.SampleWordsDecode :=
  ⟨decode_encode (i := .finit) rfl, decode_encode (i := .ldcw) rfl, decode_encode (i := .fldReg 7) rfl,
    decode_encode (i := .fldImm) rfl, decode_encode (i := .fldc 11) rfl, decode_encode (i := .fstp 3) rfl,
    decode_encode (i := .faddStiSt 2) rfl, decode_encode (i := .fsubrp 1) rfl, decode_encode (i := .fmulImm) rfl,
    decode_encode (i := .fdivrStSti 4) rfl, decode_encode (i := .fl2xp1) rfl, by decide, by decide, by decide⟩

end Sys2Proof
end

section
/-! The table of spec/30_encoding.md R96: its rows are the encodings of the commands, one row for each constructor, and
its words, counted row by row, are the legal words. -/

namespace Sys2Proof.Machine

/-! ### The rows of the table, by their free low bits (R96) -/

/-- The mask that leaves the low `k` bits free. -/
def highMask (k : Nat) : CmdWord := BitVec.allOnes 16 <<< k

/-- A row whose low `k` bits are free and hold the index of the command. -/
def lowRow (k : Nat) (m : CmdWord) (f : BitVec k → Instr) : TableRow :=
  { pattern := m, mask := highMask k, instr := fun w => f (w.extractLsb' 0 k) }

theorem getLsbD_highMask (k j : Nat) : (highMask k).getLsbD j = (decide (j < 16) && decide (k ≤ j)) := by
  simp only [highMask, BitVec.getLsbD_shiftLeft, BitVec.getLsbD_allOnes]
  grind

theorem getElem_highMask (k : Nat) {j : Nat} (hj : j < 16) : (highMask k)[j] = decide (k ≤ j) := by
  simp [← BitVec.getLsbD_eq_getElem, getLsbD_highMask, hj]

/-- A word is its masked high part with its low part put in. -/
theorem and_highMask_or_low (w : CmdWord) (k : Nat) : w &&& highMask k ||| (w.extractLsb' 0 k).setWidth 16 = w := by
  ext j hj
  by_cases h : j < k
  · simp [getElem_highMask, h, hj, Nat.not_le_of_lt h]
  · simp [getElem_highMask, Nat.le_of_not_lt h]

/-- The mask removes a low part. -/
theorem or_low_and_highMask {k : Nat} {m : CmdWord} (hm : m &&& highMask k = m) (n : BitVec k) :
    (m ||| n.setWidth 16) &&& highMask k = m := by
  have low : n.setWidth 16 &&& highMask k = 0 := by
    ext j hj
    simpa [getElem_highMask] using BitVec.lt_of_getLsbD
  rw [BitVec.and_or_distrib_right, hm, low]
  simp

/-- The low part is read back from below a masked pattern. -/
theorem extractLsb'_or_low {k : Nat} (hk : k ≤ 16) {m : CmdWord} (hm : m &&& highMask k = m) (n : BitVec k) :
    (m ||| n.setWidth 16).extractLsb' 0 k = n := by
  rw [← hm]
  ext j hj
  simp [getElem_highMask, hj, Nat.lt_of_lt_of_le hj hk]

/-- A row matches the words of the commands it holds, and stands for each of them. -/
theorem lowRow_iff {k : Nat} (hk : k ≤ 16) {m : CmdWord} {f : BitVec k → Instr} (hm : m &&& highMask k = m)
    (hf : ∀ n, encode (f n) = m ||| n.setWidth 16) (w : CmdWord) (i : Instr) :
    (lowRow k m f).has w ∧ (lowRow k m f).instr w = i ↔ (∃ n, f n = i) ∧ encode i = w ∧ i.WellFormed := by
  constructor
  · rintro ⟨⟨hw, hi⟩, rfl⟩
    have hw : w &&& highMask k = m := hw
    refine ⟨⟨_, rfl⟩, ?_, hi⟩
    calc encode (f (w.extractLsb' 0 k)) = w &&& highMask k ||| (w.extractLsb' 0 k).setWidth 16 := by rw [hf, hw]
      _ = w := and_highMask_or_low w k
  · rintro ⟨⟨n, rfl⟩, rfl, hi⟩
    have high : encode (f n) &&& highMask k = m := by rw [hf, or_low_and_highMask hm]
    have low : f ((encode (f n)).extractLsb' 0 k) = f n := by rw [hf, extractLsb'_or_low hk hm]
    refine ⟨⟨high, ?_⟩, low⟩
    change (f _).WellFormed
    rwa [low]

theorem wordRow_iff {m : CmdWord} {j : Instr} (h : encode j = m) (w : CmdWord) (i : Instr) :
    (wordRow m j).has w ∧ (wordRow m j).instr w = i ↔ j = i ∧ encode i = w ∧ i.WellFormed :=
  have noFreeBits (n : BitVec 0) : encode j = m ||| n.setWidth 16 := by simp [h, BitVec.eq_nil n]
  (lowRow_iff (Nat.zero_le _) (BitVec.and_allOnes ..) noFreeBits w i).trans
    (and_congr_left' (exists_const (BitVec 0)))

theorem regRow_iff {m : CmdWord} {f : RegIdx → Instr} (hm : m &&& highMask 3 = m)
    (hf : ∀ n, encode (f n) = m ||| n.setWidth 16) (w : CmdWord) (i : Instr) :
    (regRow m f).has w ∧ (regRow m f).instr w = i ↔ (∃ n, f n = i) ∧ encode i = w ∧ i.WellFormed :=
  lowRow_iff (by decide) hm hf w i

theorem fldcRow_iff (w : CmdWord) (i : Instr) :
    (TableRow.mk 0x4800 0xFFF0 fun w => .fldc (w.extractLsb' 0 4)).has w ∧ .fldc (w.extractLsb' 0 4) = i ↔
      (∃ c, .fldc c = i) ∧ encode i = w ∧ i.WellFormed :=
  lowRow_iff (f := .fldc) (by decide) (by decide) (by decide) w i

/-- The rows are the encodings of the commands: every constructor has its row and every row its constructor. -/
theorem exists_row_iff (w : CmdWord) (i : Instr) :
    (∃ r ∈ commandTable, r.has w ∧ r.instr w = i) ↔ encode i = w ∧ i.WellFormed := by
  simp (disch := decide) only [commandTable, List.cons_append, List.nil_append, List.exists_mem_cons_iff,
    wordRow_iff, regRow_iff, fldcRow_iff, ← or_and_right, List.not_mem_nil, false_and, exists_false, or_false]
  refine and_iff_right ?_
  cases i <;> simp

/-! ### The number of legal words -/

/-- The words of a row whose free bits are among bits 3:0. -/
def TableRow.words (r : TableRow) : List CmdWord :=
  ((List.finRange 16).map fun k => r.pattern ||| (BitVec.ofFin (w := 4) k).setWidth 16).filter
    fun w => decide (w &&& r.mask = r.pattern) && (r.instr w).wellFormed

/-- The words of the table, row by row. -/
def tableWords : List CmdWord := commandTable.flatMap TableRow.words

/-- Every row keeps the bits above its index and holds zero below them. -/
theorem commandTable_highMask :
    ∀ r ∈ commandTable, r.mask &&& highMask 4 = highMask 4 ∧ r.pattern &&& highMask 4 = r.pattern := by decide

theorem mem_words_iff {r : TableRow} (hr : r ∈ commandTable) (w : CmdWord) : w ∈ r.words ↔ r.has w := by
  obtain ⟨hmask, hpattern⟩ := commandTable_highMask r hr
  simp only [TableRow.words, List.mem_filter, Bool.and_eq_true, decide_eq_true_eq, TableRow.has,
    and_iff_right_iff_imp, List.mem_map]
  rintro ⟨hw, -⟩
  have high : r.pattern = w &&& highMask 4 := by rw [← hpattern, ← hw, BitVec.and_assoc, hmask]
  exact ⟨(w.extractLsb' 0 4).toFin, List.mem_finRange _, high ▸ and_highMask_or_low w 4⟩

theorem nodup_words {r : TableRow} (hr : r ∈ commandTable) : r.words.Nodup := by
  obtain ⟨-, hpattern⟩ := commandTable_highMask r hr
  refine ((List.nodup_finRange 16).map fun j k h => ?_).filter _
  have low := congrArg (BitVec.extractLsb' 0 4) h
  rw [extractLsb'_or_low (by decide) hpattern, extractLsb'_or_low (by decide) hpattern] at low
  exact congrArg BitVec.toFin low

/-- No word is of two rows: the patterns differ in a bit that both masks keep. -/
theorem disjoint_words : commandTable.Pairwise fun r r' => r.words.Disjoint r'.words := by
  have differ : commandTable.Pairwise fun r r' => r.pattern &&& r'.mask ≠ r'.pattern &&& r.mask := by decide +kernel
  refine differ.imp_of_mem fun {r r'} hr hr' hne w hw hw' => hne ?_
  obtain ⟨hw, -⟩ := (mem_words_iff hr w).mp hw
  obtain ⟨hw', -⟩ := (mem_words_iff hr' w).mp hw'
  calc r.pattern &&& r'.mask = w &&& r.mask &&& r'.mask := by rw [hw]
    _ = w &&& r'.mask &&& r.mask := by rw [BitVec.and_assoc, BitVec.and_comm r.mask, ← BitVec.and_assoc]
    _ = r'.pattern &&& r.mask := by rw [hw']

theorem nodup_tableWords : tableWords.Nodup :=
  List.nodup_flatMap.mpr ⟨fun _ hr => nodup_words hr, disjoint_words⟩

theorem length_tableWords : tableWords.length = 227 := by decide +kernel

theorem mem_tableWords_iff (w : CmdWord) : w ∈ tableWords ↔ (decode w).isOk = true := by
  have isOk : (decode w).isOk = true ↔ ∃ i, decode w = .ok i := by
    cases decode w <;> simp [Except.isOk, Except.toBool]
  simp only [isOk, tableWords, List.mem_flatMap, decode_eq_ok_iff, ← exists_row_iff]
  constructor
  · rintro ⟨r, hr, hw⟩
    exact ⟨_, r, hr, (mem_words_iff hr w).mp hw, rfl⟩
  · rintro ⟨-, r, hr, hw, -⟩
    exact ⟨r, hr, (mem_words_iff hr w).mpr hw⟩

/-- The numbers that decode are the words of the table, in another order. -/
theorem legalNumbers_perm :
    ((List.range 65536).filter fun n => (decode (BitVec.ofNat 16 n)).isOk).Perm (tableWords.map BitVec.toNat) := by
  refine (List.perm_ext_iff_of_nodup (List.nodup_range.filter _)
    (nodup_tableWords.map fun _ _ => BitVec.eq_of_toNat_eq)).mpr fun n => ?_
  simp only [List.mem_filter, List.mem_map, mem_tableWords_iff]
  constructor
  · rintro ⟨hn, hok⟩
    exact ⟨_, hok, (BitVec.toNat_ofNat ..).trans (Nat.mod_eq_of_lt (List.mem_range.mp hn))⟩
  · rintro ⟨w, hok, rfl⟩
    exact ⟨List.mem_range.mpr w.isLt, by rwa [BitVec.ofNat_toNat, BitVec.setWidth_eq]⟩

/-! ### The obligation -/

/-- Settles O3: a word decodes to a command when it is the command's own word, which is when the command's row has it;
and the words that decode are counted as the words of the rows. -/
theorem commandTableIsComplete : Obligations.CommandTableIsComplete := by
  have rows (w : CmdWord) (i : Instr) := decode_eq_ok_iff.trans (exists_row_iff w i).symm
  refine ⟨rows, by decide, by decide, by decide, by decide, ?_⟩
  rw [legalNumbers_perm.length_eq, List.length_map, length_tableWords]

end Sys2Proof.Machine
end

section
/-! The register stack (spec/40_register_stack.md): the next states of FLD, POP and RDST on each path, what `k` POPs do,
and that a POP takes a push back. -/

namespace Sys2Proof.Machine

/-! ### Stack faults (R130, R133) -/

/-- A stack overflow by the mask bits of SO and IE. -/
theorem stackOverflow_eq (s : State) (k : State → State) :
    stackOverflow s k = if s.cw.mask.getLsbD 7 && s.cw.mask.getLsbD 0 then k (setC1 true (setSticky 0x81 s))
      else faulted 0x81 s :=
  if_congr (unmasked_stackOverflow_iff s.cw) rfl rfl

/-- A stack underflow by the mask bits of SU and IE. -/
theorem stackUnderflow_eq (s : State) (k : State → State) :
    stackUnderflow s k = if s.cw.mask.getLsbD 6 && s.cw.mask.getLsbD 0 then k (setC1 true (setSticky 0x41 s))
      else faulted 0x41 s :=
  if_congr (unmasked_stackUnderflow_iff s.cw) rfl rfl

/-! ### FLD (R134) -/

section Fld

variable {s : State} {n : RegIdx} {v : FpuValue}

theorem exec_fldReg_of_full (h : (s.slot (s.top - 1)).tag ≠ .empty) :
    exec (.fldReg n) s = .next (stackOverflow s fun u => done (pushRaw indef u)) :=
  congrArg Host.Outcome.next (if_pos ((full_iff s).mpr h))

theorem exec_fldReg_of_room (h : (s.slot (s.top - 1)).tag = .empty) :
    exec (.fldReg n) s = .next (if s.isEmpty n then stackUnderflow s fun u => done (pushRaw indef u)
      else done (pushRaw (s.st n) s)) :=
  congrArg Host.Outcome.next (if_neg (mt (full_iff s).mp (not_not.mpr h)))

theorem exec_fldReg_of_empty (h : (s.slot (s.top - 1)).tag = .empty) (hn : (s.st n).tag = .empty) :
    exec (.fldReg n) s = .next (stackUnderflow s fun u => done (pushRaw indef u)) := by
  rw [exec_fldReg_of_room h, if_pos ((isEmpty_iff s n).mpr hn)]

theorem exec_fldReg_of_nonempty (h : (s.slot (s.top - 1)).tag = .empty) (hn : (s.st n).tag ≠ .empty) :
    exec (.fldReg n) s = .next (done (pushRaw (s.st n) s)) := by
  rw [exec_fldReg_of_room h, if_neg (mt (isEmpty_iff s n).mp hn)]

theorem exec_fldImm (h : s.immediate = some v) : exec .fldImm s = .next (push v s done done) := withImmediate_some s h _

theorem push_of_full (h : (s.slot (s.top - 1)).tag ≠ .empty) (k kOver : State → State) :
    push v s k kOver = stackOverflow s fun u => kOver (pushRaw indef u) :=
  if_pos ((full_iff s).mpr h)

theorem push_of_room (h : (s.slot (s.top - 1)).tag = .empty) (k kOver : State → State) :
    push v s k kOver = k (pushRaw v s) :=
  if_neg (mt (full_iff s).mp (not_not.mpr h))

end Fld

/-- Settles O18: the paths of FLD one by one; the source of FLD ST(7) is the slot that it pushes to. -/
theorem fldPushes : Obligations.FldPushes := by
  refine ⟨rfl, by decide, fun n s => ⟨fun hfull => ?_, fun hroom hn => ?_, fun hroom hn => ?_⟩,
    fun s v hv hu hne => ?_, fun s => ?_⟩
  · rw [exec_fldReg_of_full hfull, stackOverflow_eq]
    rfl
  · rw [exec_fldReg_of_empty hroom hn, stackUnderflow_eq]
    rfl
  · rw [exec_fldReg_of_nonempty hroom hn]
    rfl
  · rw [exec_fldImm ((immediate_eq_some_iff s v).mpr ⟨hv, hu, hne⟩)]
    refine ⟨fun hfull => ?_, fun hroom => ?_⟩
    · rw [push_of_full hfull, stackOverflow_eq]
      rfl
    · rw [push_of_room hroom]
      rfl
  · have hslot : ∀ p : RegIdx, p + 7 = p - 1 := by decide
    by_cases h : (s.slot (s.top - 1)).tag = .empty
    · exact .inr ⟨h, by rw [st_eq, hslot, h]⟩
    · exact .inl ⟨rfl, rfl, h⟩

/-! ### POP (R131, R135) -/

theorem exec_pop (s : State) : exec .pop s = .next (done (popStack s)) := rfl

theorem runCommands_cons {i : Instr} {s t : State} (h : exec i s = .next t) (is : List Instr) :
    runCommands (i :: is) s = runCommands is t := by
  rw [runCommands, h]

/-- `k` POPs empty the `k` slots from `top` upward and leave the others. -/
theorem runCommands_replicate_pop (k : Nat) (s : State) :
    ∃ t, runCommands (List.replicate k .pop) s = .next t ∧ t.top = s.top + BitVec.ofNat 3 k ∧
      ∀ p : RegIdx, t.slot p = if (p - s.top).toNat < k then { s.slot p with tag := .empty } else s.slot p := by
  induction k generalizing s with
  | zero => exact ⟨s, rfl, by simp, fun p => by simp⟩
  | succ k ih =>
    obtain ⟨t, ht, htop, hslot⟩ := ih (done (popStack s))
    refine ⟨t, ?_, ?_, fun p => ?_⟩
    · rw [List.replicate_succ, runCommands_cons (exec_pop s), ht]
    · rw [htop, BitVec.ofNat_add, BitVec.add_comm (BitVec.ofNat 3 k), ← BitVec.add_assoc]
      rfl
    · have hpop : (done (popStack s)).slot p = if p = s.top then { s.slot s.top with tag := .empty } else s.slot p :=
        slot_popStack s p
      have hpopTop : (done (popStack s)).top = s.top + 1 := popStack_top s
      rw [hslot p, hpop, hpopTop]
      by_cases hp : p = s.top
      · subst hp
        simp
      · have hnext : (p - (s.top + 1)).toNat < k ↔ (p - s.top).toNat < k + 1 := by bv_omega
        simp only [if_neg hp, hnext]

/-- Settles O22: POP by its definition; eight POPs reach every slot. -/
theorem popEffect : Obligations.PopEffect := by
  refine ⟨rfl, fun s => rfl, fun s => ?_⟩
  obtain ⟨t, ht, htop, hslot⟩ := runCommands_replicate_pop 8 s
  exact ⟨t, ht, by simpa using htop, fun p => (hslot p).trans (if_pos (p - s.top).isLt)⟩

/-! ### RDST (R136) -/

theorem packValue_indef : packValue indef = 0xC4000C000000000000000 := by decide

theorem exec_rdst_of_nonempty {n : RegIdx} {s : State} (h : (s.st n).tag ≠ .empty) :
    exec (.rdst n) s = .next (doneData (packValue (s.st n)) s) :=
  congrArg Host.Outcome.next (if_neg (mt (isEmpty_iff s n).mp h))

theorem exec_rdst_of_empty {n : RegIdx} {s : State} (h : (s.st n).tag = .empty) :
    exec (.rdst n) s = .next (stackUnderflow s (doneData (packValue indef))) :=
  congrArg Host.Outcome.next (if_pos ((isEmpty_iff s n).mpr h))

/-- Settles O23, a full and an Empty register apart. -/
theorem rdstReadsRegister : Obligations.RdstReadsRegister := by
  refine ⟨by decide, fun n s => ⟨fun hn => exec_rdst_of_nonempty hn, fun hn => ?_⟩⟩
  rw [exec_rdst_of_empty hn, stackUnderflow_eq, packValue_indef]
  rfl

/-! ### A push and a POP (R137) -/

/-- `t` comes from `s` by a push: `top` is one down and no slot but the one there is written (R130). -/
structure PushedFrom (s t : State) : Prop where
  top : t.top = s.top - 1
  slot : ∀ p, p ≠ s.top - 1 → t.slot p = s.slot p

/-- What a push writes beside a slot and `top` is no matter. -/
theorem pushedFrom_done_pushRaw {s u : State} (htop : u.top = s.top) (hslot : u.slots = s.slots) (v : FpuValue) :
    PushedFrom s (done (pushRaw v u)) where
  top := htop ▸ pushRaw_top u v
  slot p hp := calc
    (pushRaw v u).slot p = u.slot p := by rw [slot_pushRaw, htop, if_neg hp]
    _ = s.slot p := slot_congr hslot p

/-- A stack fault that does not end a pushing command pushes INDEF. -/
theorem pushedFrom_of_stackFault {s : State} {K : KindSet}
    (hd : ∀ r, (signal K s fun u => done (pushRaw indef (setC1 true u))).resp = some r → r.status = .done) :
    PushedFrom s (signal K s fun u => done (pushRaw indef (setC1 true u))) := by
  rcases signal_cases s K fun u => done (pushRaw indef (setC1 true u)) with ⟨-, e⟩ | ⟨-, e⟩ <;> rw [e] at hd ⊢
  · exact pushedFrom_done_pushRaw (s := s) (u := setC1 true (setSticky K s)) rfl rfl indef
  · exact nomatch hd _ rfl

/-- A pushing command that completes has pushed, on its overflow and underflow paths too. -/
theorem pushedFrom_of_exec {i : Instr} {s t : State} (hi : pushesStack i = true) (h : exec i s = .next t)
    (hd : ∀ r, t.resp = some r → r.status = .done) : PushedFrom s t := by
  cases i with
  | fldReg n =>
    by_cases hroom : (s.slot (s.top - 1)).tag = .empty
    · by_cases hn : (s.st n).tag = .empty
      · cases (exec_fldReg_of_empty hroom hn).symm.trans h
        exact pushedFrom_of_stackFault hd
      · cases (exec_fldReg_of_nonempty hroom hn).symm.trans h
        exact pushedFrom_done_pushRaw rfl rfl _
    · cases (exec_fldReg_of_full hroom).symm.trans h
      exact pushedFrom_of_stackFault hd
  | fldImm =>
    obtain ⟨v, -, rfl⟩ := withImmediate_eq_next h
    rcases push_cases s v done done with ⟨-, e⟩ | ⟨-, e⟩ <;> rw [e] at hd ⊢
    · exact pushedFrom_done_pushRaw rfl rfl v
    · exact pushedFrom_of_stackFault hd
  | fldc c =>
    unfold exec execFldc at h
    cases h
    split at hd
    next v hv =>
      rcases push_cases s v (fun u => done (setC1 false u)) done with ⟨-, e⟩ | ⟨-, e⟩ <;> rw [e] at hd ⊢
      · exact pushedFrom_done_pushRaw (s := s) (u := setC1 false s) rfl rfl v
      · exact pushedFrom_of_stackFault hd
    next => exact nomatch hd _ rfl
  | _ => cases hi

/-- POP after a push. -/
theorem PushedFrom.pop {s t : State} (h : PushedFrom s t) :
    (popStack t).top = s.top ∧ ((popStack t).slot (s.top - 1)).tag = .empty ∧
      ∀ p, p ≠ s.top - 1 → (popStack t).slot p = s.slot p := by
  refine ⟨?_, ?_, fun p hp => ?_⟩
  · rw [popStack_top, h.top, BitVec.sub_add_cancel]
  · rw [slot_popStack, h.top, if_pos rfl]
  · rw [slot_popStack, h.top, if_neg hp, h.slot p hp]

/-- Settles O24: the POP undoes the push that has taken place; after reset every register is Empty. -/
theorem pushThenPop : Obligations.PushThenPop := by
  refine ⟨fun i s t hi h hd => ?_, fun s n hs => ?_⟩
  · exact ⟨done (popStack t), runCommands_cons h [.pop], (pushedFrom_of_exec hi h hd).pop⟩
  · obtain ⟨htags, -, hcw, -, hsticky, -⟩ := hs
    have hmasked : unmasked s.cw (kSU ||| kIE) = 0 := unmasked_of_mask_all (by rw [hcw]) _
    refine ⟨_, exec_rdst_of_empty (htags (s.top + n)), ?_⟩
    rw [stackUnderflow, signal_of_masked s hmasked]
    exact (congrArg (· ||| (kSU ||| kIE)) hsticky).trans (by decide)

end Sys2Proof.Machine
end

section
/-! The integer rounding function is the rational one, result for result (spec/41_arith_common.md R165 to R170;
spec/45_log2.md R266). -/

namespace Sys2Proof.Machine

/-! ### The value of a magnitude on the grid -/

/-- The binade of a magnitude `n * 2^q`. -/
theorem log_natCast_mul_zpow {n : Nat} (hn : n ≠ 0) (q : ℤ) : Int.log 2 ((n : ℚ) * 2 ^ q) = (n.log2 : ℤ) + q := by
  have hq : (0 : ℚ) < 2 ^ q := by positivity
  have hpos : (0 : ℚ) < (n : ℚ) * 2 ^ q := mul_pos (by exact_mod_cast Nat.pos_of_ne_zero hn) hq
  have hlow : (n.log2 : ℤ) + q ≤ Int.log 2 ((n : ℚ) * 2 ^ q) := by
    rw [← Int.zpow_le_iff_le_log one_lt_two hpos, Nat.cast_two, zpow_add₀ two_ne_zero, zpow_natCast]
    exact mul_le_mul_of_nonneg_right (by exact_mod_cast Nat.log2_self_le hn) hq.le
  have hhigh : Int.log 2 ((n : ℚ) * 2 ^ q) < (n.log2 : ℤ) + 1 + q := by
    rw [← Int.lt_zpow_iff_log_lt one_lt_two hpos, Nat.cast_two, zpow_add₀ two_ne_zero, ← Nat.cast_succ, zpow_natCast]
    exact mul_lt_mul_of_pos_right (by exact_mod_cast Nat.lt_log2_self) hq
  omega

/-- A Denormal's significand in units of the fixed grid. -/
theorem floor_denormal_sig (n : Nat) {q : ℤ} (hq : Config.gridExp ≤ q) :
    ⌊(n : ℚ) * 2 ^ q / 2 ^ (-16445 : ℤ)⌋ = ((n * 2 ^ (q - Config.gridExp).toNat : ℕ) : ℤ) := by
  have hexp : q - -16445 = ((q - Config.gridExp).toNat : ℤ) := (Int.toNat_of_nonneg (sub_nonneg.mpr hq)).symm
  rw [mul_div_assoc, ← zpow_sub₀ two_ne_zero, hexp, zpow_natCast, Int.floor_eq_iff]
  push_cast
  exact ⟨le_rfl, lt_add_one _⟩

/-- A Valid value's significand, shifted so that its leading bit is bit 63. -/
theorem floor_valid_sig (n : Nat) (q : ℤ) :
    ⌊(n : ℚ) * 2 ^ q / 2 ^ ((n.log2 : ℤ) + q - 63)⌋ = ((n * 2 ^ 63 / 2 ^ n.log2 : ℕ) : ℤ) := by
  have hexp : q - ((n.log2 : ℤ) + q - 63) = (63 : ℕ) - (n.log2 : ℕ) := by push_cast; ring
  have hfrac : (n : ℚ) * 2 ^ q / 2 ^ ((n.log2 : ℤ) + q - 63) = ((n * 2 ^ 63 : ℕ) : ℚ) / ((2 ^ n.log2 : ℕ) : ℚ) := by
    rw [mul_div_assoc, ← zpow_sub₀ two_ne_zero, hexp, zpow_sub₀ two_ne_zero, zpow_natCast, zpow_natCast]
    push_cast
    ring
  rw [hfrac, Rat.floor_natCast_div_natCast, Int.natCast_div]

/-- `make` on a magnitude held as `n * 2^q` is `make` of the rules (R170). -/
theorem makeValue_eq_ruleMake (s : Bool) (n : Nat) {q : ℤ} (hq : Config.gridExp ≤ q) :
    makeValue s n q = ruleMake s ((n : ℚ) * 2 ^ q) := by
  by_cases hn : n = 0
  · simp [makeValue, ruleMake, hn]
  · have hpos : (0 : ℚ) < (n : ℚ) * 2 ^ q :=
      mul_pos (by exact_mod_cast Nat.pos_of_ne_zero hn) (by positivity)
    have hlog := log_natCast_mul_zpow hn q
    have htiny : (n : ℚ) * 2 ^ q < 2 ^ (-16382 : ℤ) ↔ (n.log2 : ℤ) + q < Config.emin := by
      have h := Int.lt_zpow_iff_log_lt (b := 2) (x := -16382) one_lt_two hpos
      rwa [Nat.cast_two, hlog] at h
    unfold makeValue ruleMake
    rw [if_neg hn, if_neg hpos.ne']
    by_cases he : (n.log2 : ℤ) + q < Config.emin
    · rw [if_pos (htiny.mpr he), if_pos he, floor_denormal_sig n hq, BitVec.ofInt_natCast]
      rfl
    · rw [if_neg (mt htiny.mp he), if_neg he, hlog, floor_valid_sig, BitVec.ofInt_natCast]
      rfl

/-! ### Overflow (R167) -/

theorem overflowValue_eq_rule (cw : ControlWord) (s : Bool) : overflowValue cw s = (ruleOverflow cw s).1 := by
  have hsig : maxSig cw.pc = (match cw.pc with
      | .p24 => 0xFFFFFF0000000000 | .p53 => 0xFFFFFFFFFFFFF800 | .p64 => 0xFFFFFFFFFFFFFFFF : BitVec 64) := by
    cases cw.pc <;> rfl
  unfold overflowValue ruleOverflow
  rw [hsig]
  cases cw.rc <;> cases s <;> rfl

/-! ### The kinds (R168, R169) -/

theorem unmasked_kUE_ne_zero (cw : ControlWord) : decide (unmasked cw kUE ≠ 0) = !cw.mask.getLsbD 4 := by
  have key : ∀ m : KindSet, decide (kUE &&& ~~~m ≠ 0) = !m.getLsbD 4 := by decide
  exact key cw.mask

/-- A magnitude is tiny when it lies below `2^EMIN` (R165). -/
theorem roundGrid_tiny (cw : ControlWord) (s : Bool) {m : Frac} (hd : 0 < m.den) :
    (roundGrid cw s m).tiny = decide (m.toRat < 2 ^ (-16382 : ℤ)) := by
  have h := Frac.ltOne_iff (Frac.scale_den_pos hd Config.emin)
  rw [Frac.scale_toRat, div_lt_one (by positivity)] at h
  exact Bool.eq_iff_iff.mpr (h.trans decide_eq_true_iff.symm)

/-! ### The refinement -/

/-- The delivery of a grid result with the kinds of the rule. -/
theorem deliver_eq_rule (always : Bool) (cw : ControlWord) (s : Bool) {m : Frac} (hn : 0 < m.num) (hd : 0 < m.den) :
    deliver cw s (roundGrid cw s m)
        (kindsIf ((roundGrid cw s m).tiny && (always || (roundGrid cw s m).inexact || decide (unmasked cw kUE ≠ 0)))
            kUE |||
          kindsIf (always || (roundGrid cw s m).inexact) kPE) =
      ruleRound always cw s m.toRat := by
  have hg := roundGrid_follows cw s hn hd
  have hover := Grid.overflows_iff (roundGrid cw s m)
  have hq : Config.gridExp ≤ (roundGrid cw s m).q := le_max_right _ _
  rw [hg.magnitude] at hover
  unfold deliver ruleRound
  by_cases ho : (roundGrid cw s m).overflows = true
  · rw [if_pos ho, if_pos (hover.mp ho), overflowValue_eq_rule, ruleOverflow_roundup]
  · rw [if_neg ho, if_neg (mt hover.mpr ho), makeValue_eq_ruleMake s _ hq, hg.magnitude, hg.up, hg.inexact,
      roundGrid_tiny cw s hd, unmasked_kUE_ne_zero]

theorem round_eq_rule (cw : ControlWord) (s : Bool) {m : Frac} (hn : 0 < m.num) (hd : 0 < m.den) :
    round cw s m = ruleRound false cw s m.toRat := by
  rw [← deliver_eq_rule false cw s hn hd]
  rfl

theorem roundT_eq_rule (cw : ControlWord) (s : Bool) {m : Frac} (hn : 0 < m.num) (hd : 0 < m.den) :
    roundT cw s m = ruleRound true cw s m.toRat := by
  rw [← deliver_eq_rule true cw s hn hd]
  simp only [Bool.true_or, Bool.and_true, kindsIf, if_true]
  rfl

/-- Settles O38: the grid, the overflow, the value and the kinds are the rule's, each by its own lemma. -/
theorem roundRefinesTheRule : Obligations.RoundRefinesTheRule := fun cw s _ hn hd =>
  ⟨round_eq_rule cw s hn hd, roundT_eq_rule cw s hn hd⟩

end Sys2Proof.Machine
end

section
/-! What the rounding function delivers (spec/41_arith_common.md R165 to R171): the value of its result, on which side
of the exact magnitude it lies and how far from it, and which kinds come with it. -/

namespace Sys2Proof.Machine

/-! ### The value that `make` gives (R170) -/

theorem makeValue_sign (s : Bool) (n : Nat) (q : ℤ) : (makeValue s n q).sign = s := by
  simp only [makeValue, apply_ite FpuValue.sign, zeroOf, ite_self]

theorem overflowValue_sign (cw : ControlWord) (s : Bool) : (overflowValue cw s).sign = s := by
  simp only [overflowValue, apply_ite FpuValue.sign, infOf, ite_self]

/-- Shifting a magnitude of at most 64 bits, or `2^64` itself, to 64 bits loses nothing. -/
theorem normalised_sig_cast {n : Nat} (hn : n ≠ 0) (h : n ≤ 2 ^ 64) :
    ((n * 2 ^ 63 / 2 ^ n.log2 : ℕ) : ℚ) = n * 2 ^ 63 / 2 ^ n.log2 := by
  have hdvd : 2 ^ n.log2 ∣ n * 2 ^ 63 := by
    rcases h.lt_or_eq with hlt | rfl
    · have hlog : n.log2 ≤ 63 := Nat.lt_succ_iff.mp ((Nat.log2_lt hn).mpr hlt)
      exact (pow_dvd_pow 2 hlog).mul_left n
    · rw [Nat.log2_two_pow]
      exact Nat.dvd_mul_right _ _
  rw [Nat.cast_div hdvd (by positivity)]
  push_cast
  rfl

/-- `make` gives the magnitude itself, with the sign, where it fits 64 bits and the exponent range. -/
theorem valOf_makeValue (s : Bool) {n : Nat} {q : ℤ} (hn64 : n ≤ 2 ^ 64) (hq : Config.gridExp ≤ q)
    (hmax : n ≠ 0 → (n.log2 : ℤ) + q ≤ Config.emax) :
    valOf (makeValue s n q) = if s then -((n : ℚ) * 2 ^ q) else n * 2 ^ q := by
  have hsigned : ∀ x : ℚ, (if s then -1 else 1) * x = if s then -x else x := fun x => by cases s <;> simp
  unfold makeValue
  by_cases hn : n = 0
  · simp [hn, valOf_zero (v := zeroOf s) rfl]
  · rw [if_neg hn, ← hsigned]
    have hmax := hmax hn
    dsimp only
    by_cases he : (n.log2 : ℤ) + q < Config.emin
    · have hexp : (expField Config.emin).toInt - 63 = Config.gridExp := by decide
      have hshift : ((q - Config.gridExp).toNat : ℤ) = q - Config.gridExp := Int.toNat_of_nonneg (sub_nonneg.mpr hq)
      have hlt : n * 2 ^ (q - Config.gridExp).toNat < 2 ^ 64 := (denormal_sig_lt hq he).trans (by norm_num)
      simp only [if_pos he, valOf, hexp, BitVec.toNat_ofNat, Nat.mod_eq_of_lt hlt]
      rw [mul_assoc, Nat.cast_mul, Nat.cast_pow, Nat.cast_two, ← zpow_natCast, hshift, mul_assoc,
        ← zpow_add₀ two_ne_zero, sub_add_cancel]
    · have hexp : (expField ((n.log2 : ℤ) + q)).toInt = (n.log2 : ℤ) + q := by
        simp only [Config.emin, Config.emax] at he hmax
        exact expField_toInt (by omega) (by omega)
      simp only [if_neg he, valOf, hexp, BitVec.toNat_ofNat, Nat.mod_eq_of_lt (normalised_sig_bounds hn).2,
        normalised_sig_cast hn hn64]
      have hunit : (2 : ℚ) ^ ((n.log2 : ℤ) + q - 63) = 2 ^ n.log2 * 2 ^ q / 2 ^ 63 := by
        rw [zpow_sub₀ two_ne_zero, zpow_add₀ two_ne_zero, zpow_natCast]
        rfl
      rw [hunit]
      field_simp

/-! ### The rounded magnitude (R165, R166) -/

/-- What the grid leaves of a magnitude, in units of the grid. -/
def gridRem (cw : ControlWord) (m : ℚ) : ℚ := Int.fract (m / 2 ^ ruleUlp cw m)

theorem gridRem_nonneg (cw : ControlWord) (m : ℚ) : 0 ≤ gridRem cw m := Int.fract_nonneg _

theorem gridRem_lt_one (cw : ControlWord) (m : ℚ) : gridRem cw m < 1 := Int.fract_lt_one _

theorem ruleRounding_magnitude (cw : ControlWord) (s : Bool) (m : ℚ) :
    (ruleRounding cw s m).1 =
      ((⌊m / 2 ^ ruleUlp cw m⌋ : ℚ) + if (ruleRounding cw s m).2.2 then 1 else 0) * 2 ^ ruleUlp cw m := rfl

theorem ruleRounding_inexact (cw : ControlWord) (s : Bool) (m : ℚ) :
    (ruleRounding cw s m).2.1 = decide (gridRem cw m ≠ 0) := rfl

theorem ruleRounding_up (cw : ControlWord) (s : Bool) (m : ℚ) :
    (ruleRounding cw s m).2.2 =
      (decide (gridRem cw m ≠ 0) && ruleRoundUp cw.rc s ⌊m / 2 ^ ruleUlp cw m⌋ (gridRem cw m)) := rfl

/-- The rounded magnitude differs from the exact one by the remainder, or by what it lacks of a unit. -/
theorem ruleRounding_eq (cw : ControlWord) (s : Bool) (m : ℚ) :
    (ruleRounding cw s m).1 =
      m + ((if (ruleRounding cw s m).2.2 then 1 else 0) - gridRem cw m) * 2 ^ ruleUlp cw m := by
  have hunit : (2 : ℚ) ^ ruleUlp cw m ≠ 0 := by positivity
  have hfloor : (⌊m / 2 ^ ruleUlp cw m⌋ : ℚ) = m / 2 ^ ruleUlp cw m - gridRem cw m := (Int.self_sub_fract _).symm
  rw [ruleRounding_magnitude, hfloor]
  field_simp
  ring

theorem gridRem_of_multiple {cw : ControlWord} {m : ℚ} (h : ∃ n : ℤ, m = n * 2 ^ ruleUlp cw m) : gridRem cw m = 0 := by
  obtain ⟨n, hn⟩ := h
  have hunit : (2 : ℚ) ^ ruleUlp cw m ≠ 0 := by positivity
  rw [gridRem, (div_eq_iff hunit).mpr hn, Int.fract_intCast]

/-- A multiple of the unit is rounded to itself. -/
theorem ruleRounding_of_multiple (s : Bool) {cw : ControlWord} {m : ℚ} (h : ∃ n : ℤ, m = n * 2 ^ ruleUlp cw m) :
    ruleRounding cw s m = (m, false, false) := by
  have hrem := gridRem_of_multiple h
  have hinexact : (ruleRounding cw s m).2.1 = false := by rw [ruleRounding_inexact, hrem]; rfl
  have hup : (ruleRounding cw s m).2.2 = false := by rw [ruleRounding_up, hrem]; rfl
  have hmag : (ruleRounding cw s m).1 = m := by rw [ruleRounding_eq, hup, hrem]; simp
  exact Prod.ext hmag (Prod.ext hinexact hup)

/-- A mode that rounds away from zero errs upward, by less than a unit. -/
theorem ruleRounding_away {cw : ControlWord} {s : Bool} (h : ∀ f rem, ruleRoundUp cw.rc s f rem = true) (m : ℚ) :
    m ≤ (ruleRounding cw s m).1 ∧ (ruleRounding cw s m).1 < m + 2 ^ ruleUlp cw m := by
  have hunit : (0 : ℚ) < 2 ^ ruleUlp cw m := by positivity
  have hnonneg := gridRem_nonneg cw m
  have hlt := gridRem_lt_one cw m
  rw [ruleRounding_eq, ruleRounding_up, h, Bool.and_true]
  by_cases hrem : gridRem cw m = 0
  · simp [hrem, hunit]
  · have hpos : 0 < gridRem cw m := lt_of_le_of_ne hnonneg (Ne.symm hrem)
    rw [if_pos (decide_eq_true hrem)]
    constructor <;> nlinarith

/-- A mode that rounds toward zero errs downward, by less than a unit. -/
theorem ruleRounding_toward {cw : ControlWord} {s : Bool} (h : ∀ f rem, ruleRoundUp cw.rc s f rem = false) (m : ℚ) :
    (ruleRounding cw s m).1 ≤ m ∧ m < (ruleRounding cw s m).1 + 2 ^ ruleUlp cw m := by
  have hunit : (0 : ℚ) < 2 ^ ruleUlp cw m := by positivity
  have hnonneg := gridRem_nonneg cw m
  have hlt := gridRem_lt_one cw m
  rw [ruleRounding_eq, ruleRounding_up, h, Bool.and_false, if_neg Bool.false_ne_true]
  constructor <;> nlinarith

/-- To nearest, the remainder that is rounded up is at least a half, and the one rounded down at most a half. -/
theorem ruleRoundUp_nearest (s : Bool) (f : ℤ) (rem : ℚ) :
    (ruleRoundUp .nearest s f rem = true → 1 / 2 ≤ rem) ∧ (ruleRoundUp .nearest s f rem = false → rem ≤ 1 / 2) := by
  simp only [ruleRoundUp, Bool.or_eq_true, Bool.or_eq_false_iff, Bool.and_eq_true, decide_eq_true_eq,
    decide_eq_false_iff_not, not_lt]
  exact ⟨fun h => h.elim le_of_lt fun htie => htie.1.ge, fun h => h.1⟩

/-- To nearest the error is at most half a unit. -/
theorem ruleRounding_nearest {cw : ControlWord} (h : cw.rc = .nearest) (s : Bool) (m : ℚ) :
    |(ruleRounding cw s m).1 - m| ≤ 2 ^ ruleUlp cw m / 2 := by
  have hunit : (0 : ℚ) < 2 ^ ruleUlp cw m := by positivity
  have hnonneg := gridRem_nonneg cw m
  have hlt := gridRem_lt_one cw m
  obtain ⟨habove, hbelow⟩ := ruleRoundUp_nearest s ⌊m / 2 ^ ruleUlp cw m⌋ (gridRem cw m)
  have hup := ruleRounding_up cw s m
  rw [h] at hup
  rw [ruleRounding_eq, add_sub_cancel_left, abs_le]
  cases hb : (ruleRounding cw s m).2.2 with
  | true =>
    have := habove (Bool.and_eq_true _ _ ▸ hup.symm.trans hb :).2
    rw [if_pos rfl]
    constructor <;> nlinarith
  | false =>
    have : gridRem cw m ≤ 1 / 2 := by
      rcases Bool.and_eq_false_iff.mp (hup.symm.trans hb) with hexact | hstay
      · rw [not_not.mp (of_decide_eq_false hexact)]
        norm_num
      · exact hbelow hstay
    rw [if_neg Bool.false_ne_true]
    constructor <;> nlinarith

/-- The rounded magnitude is at most `2^p` units. -/
theorem ruleRounding_le (cw : ControlWord) (s : Bool) (m : ℚ) :
    (ruleRounding cw s m).1 ≤ 2 ^ cw.pc.bits * 2 ^ ruleUlp cw m := by
  have hunit : (0 : ℚ) < 2 ^ ruleUlp cw m := by positivity
  have hbinade : m < 2 ^ (cw.pc.bits : ℤ) * 2 ^ ruleUlp cw m := by
    have hulp : Int.log 2 m + 1 ≤ cw.pc.bits + ruleUlp cw m := by
      have := le_max_left (Int.log 2 m - cw.pc.bits + 1) (-16445)
      unfold ruleUlp
      omega
    calc m < 2 ^ (Int.log 2 m + 1) := by exact_mod_cast Int.lt_zpow_succ_log_self (b := 2) one_lt_two m
      _ ≤ 2 ^ (cw.pc.bits + ruleUlp cw m) := zpow_le_zpow_right₀ one_le_two hulp
      _ = _ := zpow_add₀ two_ne_zero _ _
  have hfloor : ⌊m / 2 ^ ruleUlp cw m⌋ < (2 ^ cw.pc.bits : ℤ) := by
    rw [Int.floor_lt, div_lt_iff₀ hunit]
    push_cast
    rwa [zpow_natCast] at hbinade
  have hfloor' : (⌊m / 2 ^ ruleUlp cw m⌋ : ℚ) + 1 ≤ 2 ^ cw.pc.bits := by exact_mod_cast hfloor
  rw [ruleRounding_magnitude]
  refine mul_le_mul_of_nonneg_right (le_trans (add_le_add_right ?_ _) hfloor') hunit.le
  split <;> norm_num

/-! ### What `Round` delivers -/

section Delivered

variable (cw : ControlWord) (s : Bool) {m : Frac}

theorem roundGrid_n_le (hn : 0 < m.num) (hd : 0 < m.den) : (roundGrid cw s m).n ≤ 2 ^ 64 := by
  have hmag := (roundGrid_follows cw s hn hd).magnitude
  have hq : (roundGrid cw s m).q = ruleUlp cw m.toRat := ulpExp_eq hn hd cw
  have hle := ruleRounding_le cw s m.toRat
  rw [← hmag, hq] at hle
  have hp : cw.pc.bits ≤ 64 := by cases cw.pc <;> decide
  have hbits : (roundGrid cw s m).n ≤ 2 ^ cw.pc.bits := by
    exact_mod_cast le_of_mul_le_mul_right hle (by positivity : (0 : ℚ) < 2 ^ ruleUlp cw m.toRat)
  exact hbits.trans (Nat.pow_le_pow_right (by norm_num) hp)

/-- Without an overflow the delivered value is the rounded magnitude with the sign given. -/
theorem valOf_deliver (hn : 0 < m.num) (hd : 0 < m.den) (ho : (roundGrid cw s m).overflows = false) (K : KindSet) :
    valOf (deliver cw s (roundGrid cw s m) K).value =
      if s then -(ruleRounding cw s m.toRat).1 else (ruleRounding cw s m.toRat).1 := by
  have hmax : (roundGrid cw s m).n ≠ 0 → ((roundGrid cw s m).n.log2 : ℤ) + (roundGrid cw s m).q ≤ Config.emax :=
    fun hn0 => by
      simp only [Grid.overflows, hn0, ne_eq, not_false_eq_true, decide_true, Bool.true_and,
        decide_eq_false_iff_not] at ho
      omega
  rw [deliver, if_neg (Bool.not_eq_true _ ▸ ho), ← (roundGrid_follows cw s hn hd).magnitude]
  exact valOf_makeValue s (roundGrid_n_le cw s hn hd) (le_max_right _ _) hmax

theorem round_value_sign : (round cw s m).value.sign = s := by
  simp only [round, deliver, apply_ite Rounded.value, apply_ite FpuValue.sign, overflowValue_sign, makeValue_sign,
    ite_self]

theorem round_of_overflows (h : (roundGrid cw s m).overflows = true) :
    round cw s m = { kinds := kOE ||| kPE, value := overflowValue cw s, roundup := overflowToInf cw.rc s } :=
  if_pos h

/-- The kinds of a result that does not overflow: UE and PE at most (R168, R169). -/
theorem round_kinds_of_not_overflows (h : (roundGrid cw s m).overflows = false) :
    (round cw s m).kinds =
      kindsIf ((roundGrid cw s m).tiny && ((roundGrid cw s m).inexact || !cw.mask.getLsbD 4)) kUE |||
        kindsIf (roundGrid cw s m).inexact kPE := by
  rw [← unmasked_kUE_ne_zero, round, deliver, if_neg (Bool.not_eq_true _ ▸ h)]

theorem round_roundup_of_not_overflows (h : (roundGrid cw s m).overflows = false) :
    (round cw s m).roundup = (roundGrid cw s m).up := by
  rw [round, deliver, if_neg (Bool.not_eq_true _ ▸ h)]

/-- OE is raised exactly on overflow. -/
theorem round_kinds_getLsbD_3 : (round cw s m).kinds.getLsbD 3 = (roundGrid cw s m).overflows := by
  have hOE : (kOE ||| kPE).getLsbD 3 = true := by decide
  have hnone : ∀ a b, (kindsIf a kUE ||| kindsIf b kPE).getLsbD 3 = false := by decide
  cases ho : (roundGrid cw s m).overflows with
  | true => rw [round_of_overflows cw s ho, hOE]
  | false => rw [round_kinds_of_not_overflows cw s ho, hnone]

/-- A result that was rounded away from zero is inexact. -/
theorem round_kinds_getLsbD_5_of_roundup (h : (round cw s m).roundup = true) :
    (round cw s m).kinds.getLsbD 5 = true := by
  have hOE : (kOE ||| kPE).getLsbD 5 = true := by decide
  have hPE : ∀ a, (kindsIf a kUE ||| kindsIf true kPE).getLsbD 5 = true := by decide
  cases ho : (roundGrid cw s m).overflows with
  | true => rw [round_of_overflows cw s ho, hOE]
  | false =>
    rw [round_roundup_of_not_overflows cw s ho] at h
    have hinexact : (roundGrid cw s m).inexact = true := (Bool.and_eq_true _ _ ▸ h :).1
    rw [round_kinds_of_not_overflows cw s ho, hinexact, hPE]

/-- A representable magnitude is delivered as it is (R171). -/
theorem round_of_multiple (hn : 0 < m.num) (hd : 0 < m.den)
    (hm : ∃ n : ℤ, m.toRat = n * 2 ^ ruleUlp cw m.toRat) (hmax : m.toRat < 2 ^ (16384 : ℤ)) :
    |valOf (round cw s m).value| = m.toRat ∧ (round cw s m).roundup = false ∧
      (round cw s m).kinds = if m.toRat < 2 ^ (-16382 : ℤ) ∧ cw.mask.getLsbD 4 = false then kUE else 0 := by
  obtain ⟨hmag, hinexact, hup⟩ := roundGrid_follows cw s hn hd
  have hrule := ruleRounding_of_multiple s hm
  rw [hrule] at hmag hinexact hup
  have ho : (roundGrid cw s m).overflows = false := by
    rw [← Bool.not_eq_true, Grid.overflows_iff, hmag]
    exact not_le.mpr hmax
  refine ⟨?_, ?_, ?_⟩
  · rw [round, valOf_deliver cw s hn hd ho, hrule, ← abs_of_pos (Frac.toRat_pos hn hd)]
    cases s <;> simp
  · rw [round_roundup_of_not_overflows cw s ho, hup]
  · rw [round_kinds_of_not_overflows cw s ho, hinexact, roundGrid_tiny cw s hd]
    simp [kindsIf]

end Delivered

/-! ### The obligations -/

/-- Settles O39, by what the rounding function delivers with and without an overflow. -/
theorem roundResultWellFormed : Obligations.RoundResultWellFormed := fun cw s m hn hd =>
  ⟨round_value_wf cw s m, round_value_sign cw s, round_kinds_getLsbD_5_of_roundup cw s, round_of_multiple cw s hn hd⟩

/-- Settles O40: for the sign given, each mode rounds the magnitude away from zero, toward zero or to nearest. -/
theorem roundDirection : Obligations.RoundDirection := by
  intro cw s m hn hd hOE
  have ho : (roundGrid cw s m).overflows = false := (round_kinds_getLsbD_3 cw s).symm.trans hOE
  have hval := valOf_deliver cw s hn hd ho
  dsimp only
  rw [round, hval]
  cases hrc : cw.rc with
  | nearest =>
    have h := ruleRounding_nearest hrc s m.toRat
    cases s
    · exact h
    · simpa [neg_add_eq_sub, abs_sub_comm] using h
  | down =>
    cases s with
    | false =>
      obtain ⟨hlow, hhigh⟩ := ruleRounding_toward (cw := cw) (s := false) (fun _ _ => by rw [hrc]; rfl) m.toRat
      exact ⟨hlow, hhigh⟩
    | true =>
      obtain ⟨hlow, hhigh⟩ := ruleRounding_away (cw := cw) (s := true) (fun _ _ => by rw [hrc]; rfl) m.toRat
      simp only [if_true]
      constructor <;> linarith
  | up =>
    cases s with
    | false =>
      obtain ⟨hlow, hhigh⟩ := ruleRounding_away (cw := cw) (s := false) (fun _ _ => by rw [hrc]; rfl) m.toRat
      exact ⟨hlow, hhigh⟩
    | true =>
      obtain ⟨hlow, hhigh⟩ := ruleRounding_toward (cw := cw) (s := true) (fun _ _ => by rw [hrc]; rfl) m.toRat
      simp only [if_true]
      constructor <;> linarith
  | zero =>
    obtain ⟨hlow, hhigh⟩ := ruleRounding_toward (cw := cw) (s := s) (fun _ _ => by rw [hrc]; rfl) m.toRat
    have hnonneg : 0 ≤ (ruleRounding cw s m.toRat).1 :=
      (roundGrid_follows cw s hn hd).magnitude ▸ (by positivity)
    have habs : |if s then -(ruleRounding cw s m.toRat).1 else (ruleRounding cw s m.toRat).1| =
        (ruleRounding cw s m.toRat).1 := by
      cases s <;> simp [abs_of_nonneg hnonneg]
    dsimp only
    rw [habs]
    exact ⟨hlow, hhigh⟩

end Sys2Proof.Machine
end

section
/-! Arithmetic commands (spec/41_arith_common.md R150 to R153, R172 to R178): in which order the kinds of a primitive
are signalled, that a primitive computes what the numeric rules say, and how a command delivers it. -/

namespace Sys2Proof.Machine

/-! ### The kinds of a primitive (R178) -/

theorem kindsIf_eq (b : Bool) (K : KindSet) : kindsIf b K = 0 ∨ kindsIf b K = K := by
  cases b
  · exact .inl rfl
  · exact .inr rfl

/-- The kinds that `Round` can raise in one signal (R165 to R169). -/
theorem round_kinds_mem (cw : ControlWord) (s : Bool) (m : Frac) :
    (round cw s m).kinds ∈ [kOE ||| kPE, kUE ||| kPE, kUE, kPE, 0] := by
  have hset : ∀ a b, kindsIf a kUE ||| kindsIf b kPE ∈ [kOE ||| kPE, kUE ||| kPE, kUE, kPE, 0] := by decide
  cases ho : (roundGrid cw s m).overflows with
  | true => rw [round_of_overflows cw s ho]; exact List.mem_cons_self
  | false => rw [round_kinds_of_not_overflows cw s ho]; exact hset _ _

/-- The special results raise ZE alone, and that in a division only (R207, R224, R241). -/
theorem specialOp_kinds {op : ArithOp} {cw : ControlWord} {A B v : FpuValue} {K : KindSet}
    (h : specialOp op cw A B = some (K, v)) : K = 0 ∨ (K = kZE ∧ op = .div) := by
  cases op with
  | add | sub | mul =>
    simp only [specialOp] at h
    split_ifs at h <;> cases h <;> exact .inl rfl
  | div =>
    simp only [specialOp] at h
    split_ifs at h <;> cases h
    · exact .inl rfl
    · exact .inl rfl
    · exact .inl rfl
    · exact .inr ⟨rfl, rfl⟩

/-- The two signals of a primitive: IE and nothing after it, or at most DE and then ZE of a division or the kinds of
`Round`. -/
theorem compute_kinds (op : ArithOp) (cw : ControlWord) (A B : FpuValue) :
    ((compute op cw A B).first = kIE ∧ (compute op cw A B).second = 0) ∨
      (((compute op cw A B).first = 0 ∨ (compute op cw A B).first = kDE) ∧
        (((compute op cw A B).second = kZE ∧ op = .div) ∨
          (compute op cw A B).second ∈ [kOE ||| kPE, kUE ||| kPE, kUE, kPE, 0])) := by
  have hnone : (0 : KindSet) ∈ [kOE ||| kPE, kUE ||| kPE, kUE, kPE, 0] := by decide
  unfold compute
  split
  · rcases kindsIf_eq (A.signaling || B.signaling) kIE with h | h
    · exact .inr ⟨.inl h, .inr hnone⟩
    · exact .inl ⟨h, rfl⟩
  · split
    · exact .inl ⟨rfl, rfl⟩
    · refine .inr ?_
      split
      next K v h =>
        refine ⟨kindsIf_eq _ _, ?_⟩
        rcases specialOp_kinds h with rfl | hdiv
        · exact .inr hnone
        · exact .inl hdiv
      next =>
        unfold computeFinite
        dsimp only
        split
        · exact ⟨kindsIf_eq _ _, .inr hnone⟩
        · exact ⟨kindsIf_eq _ _, .inr (round_kinds_mem _ _ _)⟩

/-- Settles O33, by the two signals of a primitive. -/
theorem exceptionOrder : Obligations.ExceptionOrder := by
  intro op cw A B
  have hround : ∀ K ∈ [kOE ||| kPE, kUE ||| kPE, kUE, kPE, 0],
      K ∈ [0, kZE, kOE ||| kPE, kUE ||| kPE, kUE, kPE] ∧ K ≠ kZE := by decide
  rcases compute_kinds op cw A B with ⟨hfirst, hsecond⟩ | ⟨hfirst, hsecond⟩
  · rw [hfirst, hsecond]
    exact ⟨by decide, by decide, fun _ => rfl, fun h => absurd h (by decide)⟩
  · have hnotIE : (compute op cw A B).first ≠ kIE := by
      rcases hfirst with h | h <;> rw [h] <;> decide
    refine ⟨by rcases hfirst with h | h <;> simp [h], ?_, fun h => absurd h hnotIE, fun h => ?_⟩
    · rcases hsecond with ⟨h, -⟩ | h
      · simp [h]
      · exact (hround _ h).1
    · exact hsecond.elim And.right fun hmem => absurd h (hround _ hmem).2

/-! ### A primitive computes what the rules say (R151, R210, R226, R243) -/

/-- The rules' result as the computed one. -/
def RuleResult.toComputed (R : RuleResult) : Computed :=
  { first := R.first, second := R.second, value := R.value, roundup := R.c1 }

theorem denormalKinds_eq_ruleDE (A B : FpuValue) : denormalKinds A B = ruleDE A B := by
  unfold denormalKinds ruleDE kindsIf
  simp only [Bool.or_eq_true, decide_eq_true_eq]

/-- Quieting writes the exponent and the quiet bit of a NaN (R152). -/
theorem quieted_of_nan {v : FpuValue} (h : v.tag = .nan) :
    v.quieted = { v with exp := 0x4000, sig := v.sig ||| 0x4000000000000000 } := by
  have hexp : expField Config.especial = 0x4000 := by decide
  rw [FpuValue.quieted, hexp, ← h]

theorem signaling_iff (v : FpuValue) : v.signaling = true ↔ v.tag = .nan ∧ v.sig.getLsbD 62 = false := by
  simp [FpuValue.signaling, FpuValue.quiet]

theorem nanResult_eq_rule {A B : FpuValue} (h : A.tag = .nan ∨ B.tag = .nan) :
    nanResult A B = (ruleNaN A B).toComputed := by
  unfold nanResult ruleNaN kindsIf
  simp only [Bool.or_eq_true, signaling_iff]
  by_cases hA : A.tag = .nan
  · rw [if_pos hA, if_pos hA, quieted_of_nan hA]
    rfl
  · rw [if_neg hA, if_neg hA, quieted_of_nan (h.resolve_left hA)]
    rfl

/-- An exact result is delivered with a stage-3 DE at most. -/
theorem ruleExact_toComputed (A B v : FpuValue) :
    (ruleExact A B v).toComputed = { first := denormalKinds A B, second := 0, value := v, roundup := false } := by
  rw [denormalKinds_eq_ruleDE]
  rfl

/-- The table of R210 as a chain of tests in the order of the stages. -/
theorem ruleSum_eq (cw : ControlWord) (A B : FpuValue) (s : Bool) :
    ruleSum cw A B s =
      if A.tag = .infinity ∧ B.tag = .infinity ∧ A.sign ≠ s then ruleInvalid
      else if A.tag = .infinity then ruleExact A B (infOf A.sign)
      else if B.tag = .infinity then ruleExact A B (infOf s)
      else if A.tag = .zero ∧ B.tag = .zero then
        ruleExact A B (zeroOf (if A.sign = s then A.sign else decide (cw.rc = .down)))
      else if valOf A + valOf { B with sign := s } = 0 then ruleExact A B (zeroOf (decide (cw.rc = .down)))
      else ruleRounded cw A B (valOf A + valOf { B with sign := s }) := by
  unfold ruleSum
  cases A.tag <;> cases B.tag <;> simp

/-- The table of R226 as a chain of tests in the order of the stages. -/
theorem ruleProduct_eq (cw : ControlWord) (A B : FpuValue) :
    ruleProduct cw A B =
      if (A.tag = .infinity ∧ B.tag = .zero) ∨ (A.tag = .zero ∧ B.tag = .infinity) then ruleInvalid
      else if A.tag = .infinity ∨ B.tag = .infinity then ruleExact A B (infOf (xorSign A B))
      else if A.tag = .zero ∨ B.tag = .zero then ruleExact A B (zeroOf (xorSign A B))
      else ruleRounded cw A B (valOf A * valOf B) := by
  unfold ruleProduct
  cases A.tag <;> cases B.tag <;> simp [xorSign]

/-- The table of R243 as a chain of tests in the order of the stages. -/
theorem ruleQuotient_eq (cw : ControlWord) (A B : FpuValue) :
    ruleQuotient cw A B =
      if (A.tag = .infinity ∧ B.tag = .infinity) ∨ (A.tag = .zero ∧ B.tag = .zero) then ruleInvalid
      else if A.tag = .infinity then ruleExact A B (infOf (xorSign A B))
      else if B.tag = .infinity then ruleExact A B (zeroOf (xorSign A B))
      else if A.tag = .zero then ruleExact A B (zeroOf (xorSign A B))
      else if B.tag = .zero then
        { first := ruleDE A B, second := kZE, value := infOf (xorSign A B), c1 := false }
      else ruleRounded cw A B (valOf A / valOf B) := by
  unfold ruleQuotient
  cases A.tag <;> cases B.tag <;> simp [xorSign]

/-- An exact zero that stage 5 finds is the zero of R208. -/
theorem computeFinite_of_exact_zero {op : ArithOp} {A B : FpuValue} {x : ℚ} (cw : ControlWord)
    (h : ExactIs (exactOp op A B) x) (hx : x = 0) :
    computeFinite op cw A B = (ruleExact A B (zeroOf (decide (cw.rc = .down)))).toComputed := by
  rw [ruleExact_toComputed]
  exact if_pos (h.num_eq_zero_iff.mpr hx)

/-- Any other exact result of stage 5 is rounded. -/
theorem computeFinite_of_exact_ne_zero {op : ArithOp} {A B : FpuValue} {x : ℚ} (cw : ControlWord)
    (h : ExactIs (exactOp op A B) x) (hx : x ≠ 0) :
    computeFinite op cw A B = (ruleRounded cw A B x).toComputed := by
  have hnum : (exactOp op A B).2.num ≠ 0 := mt h.num_eq_zero_iff.mp hx
  refine (if_neg hnum).trans ?_
  rw [round_eq_rule _ _ (Nat.pos_of_ne_zero hnum) h.den_pos, h.toRat, h.sign hx, denormalKinds_eq_ruleDE]
  rfl

section Tables

variable {A B : FpuValue} (cw : ControlWord) (hA : A.tag ≠ .nan) (hB : B.tag ≠ .nan)
include hA hB

/-- The sum is that of the table of R210. -/
theorem compute_eq_ruleSum {op : ArithOp} (hop : op = .add ∨ op = .sub) :
    compute op cw A B = (ruleSum cw A B (effectiveSign op B)).toComputed := by
  have hexact : ExactIs (exactOp op A B) (valOf A + valOf { B with sign := effectiveSign op B }) := by
    have h := exactSum_is hop A B
    rcases hop with rfl | rfl <;> exact h
  have hinvalid : invalidOp op A B = true ↔
      A.tag = .infinity ∧ B.tag = .infinity ∧ A.sign ≠ effectiveSign op B := by
    rcases hop with rfl | rfl <;> simp [invalidOp, and_assoc]
  have hspecial : specialOp op cw A B =
      if A.tag = .infinity then some (0, infOf A.sign)
      else if B.tag = .infinity then some (0, infOf (effectiveSign op B))
      else if A.tag = .zero ∧ B.tag = .zero then
        some (0, if A.sign = effectiveSign op B then zeroOf A.sign else zeroOf (cancelSign cw))
      else none := by
    rcases hop with rfl | rfl <;> rfl
  rw [compute, if_neg (not_or.mpr ⟨hA, hB⟩), ruleSum_eq, hspecial]
  simp only [hinvalid]
  split_ifs with hinv hAinf hBinf hzero hsign hx
  · rfl
  · exact (ruleExact_toComputed ..).symm
  · exact (ruleExact_toComputed ..).symm
  · exact (ruleExact_toComputed ..).symm
  · exact (ruleExact_toComputed ..).symm
  · exact computeFinite_of_exact_zero cw hexact hx
  · exact computeFinite_of_exact_ne_zero cw hexact hx

/-- The product is that of the table of R226. -/
theorem compute_eq_ruleProduct (hvA : A.tag = .zero ∨ A.tag = .infinity ∨ valOf A ≠ 0)
    (hvB : B.tag = .zero ∨ B.tag = .infinity ∨ valOf B ≠ 0) :
    compute .mul cw A B = (ruleProduct cw A B).toComputed := by
  rw [compute, if_neg (not_or.mpr ⟨hA, hB⟩), ruleProduct_eq]
  simp only [invalidOp, specialOp, Bool.or_eq_true, Bool.and_eq_true, decide_eq_true_eq]
  split_ifs with hinv hinf hzero
  · rfl
  · exact (ruleExact_toComputed ..).symm
  · exact (ruleExact_toComputed ..).symm
  · obtain ⟨hAinf, hBinf⟩ := not_or.mp hinf
    obtain ⟨hAzero, hBzero⟩ := not_or.mp hzero
    have hxA := (hvA.resolve_left hAzero).resolve_left hAinf
    have hxB := (hvB.resolve_left hBzero).resolve_left hBinf
    exact computeFinite_of_exact_ne_zero cw (exactProduct_is hxA hxB) (mul_ne_zero hxA hxB)

/-- The quotient is that of the table of R243. -/
theorem compute_eq_ruleQuotient (hvA : A.tag = .zero ∨ A.tag = .infinity ∨ valOf A ≠ 0)
    (hvB : B.tag = .zero ∨ B.tag = .infinity ∨ valOf B ≠ 0) :
    compute .div cw A B = (ruleQuotient cw A B).toComputed := by
  rw [compute, if_neg (not_or.mpr ⟨hA, hB⟩), ruleQuotient_eq]
  simp only [invalidOp, specialOp, Bool.or_eq_true, Bool.and_eq_true, decide_eq_true_eq]
  split_ifs with hinv hAinf hBinf hAzero hBzero
  · rfl
  · exact (ruleExact_toComputed ..).symm
  · exact (ruleExact_toComputed ..).symm
  · exact (ruleExact_toComputed ..).symm
  · rw [denormalKinds_eq_ruleDE]
    rfl
  · have hxA := (hvA.resolve_left hAzero).resolve_left hAinf
    have hxB := (hvB.resolve_left hBzero).resolve_left hBinf
    exact computeFinite_of_exact_ne_zero cw (exactQuotient_is hxA hxB) (div_ne_zero hxA hxB)

end Tables

/-- A primitive computes what the rules say of usable operands. -/
theorem compute_eq_rule (op : ArithOp) (cw : ControlWord) {A B : FpuValue} (huA : A.usable = true)
    (huB : B.usable = true) (heA : A.tag ≠ .empty) (heB : B.tag ≠ .empty) :
    compute op cw A B = (ruleArith op cw A B).toComputed := by
  unfold ruleArith
  by_cases hnan : A.tag = .nan ∨ B.tag = .nan
  · rw [compute, if_pos hnan, if_pos hnan, nanResult_eq_rule hnan]
  · obtain ⟨hA, hB⟩ := not_or.mp hnan
    have hv : ∀ {v : FpuValue}, v.usable = true → v.tag ≠ .empty → v.tag ≠ .nan →
        v.tag = .zero ∨ v.tag = .infinity ∨ valOf v ≠ 0 := fun {v} hu he hn => by
      by_cases hi : v.tag = .infinity
      · exact .inr (.inl hi)
      · exact (zero_or_valOf_ne_zero hu hn hi he).imp_right .inr
    rw [if_neg hnan]
    cases op with
    | add => exact compute_eq_ruleSum cw hA hB (.inl rfl)
    | sub => exact compute_eq_ruleSum cw hA hB (.inr rfl)
    | mul => exact compute_eq_ruleProduct cw hA hB (hv huA heA hA) (hv huB heB hB)
    | div => exact compute_eq_ruleQuotient cw hA hB (hv huA heA hA) (hv huB heB hB)

/-! ### Delivery of a result -/

/-- The completed state of a computing command, as the rules write it (R172 to R176). -/
theorem writeBack_eq_finishWith (R : RuleResult) (d : RegIdx) (pops : Bool) (s : State) :
    writeBack d R.value pops (setC1 R.c1 (setSticky R.second (setSticky R.first s))) = finishWith R d pops s := by
  cases pops <;> rfl

/-- With the kinds of both signals masked the result is delivered (R151). -/
theorem finishComputed_of_masked {R : RuleResult} {s : State} (h : AllMasked s.cw (R.first ||| R.second)) (d : RegIdx)
    (pops : Bool) : finishComputed R.toComputed d pops s = finishWith R d pops s := by
  obtain ⟨hfirst, hsecond⟩ := (unmasked_or_eq_zero_iff s.cw R.first R.second).mp h
  rw [← writeBack_eq_finishWith, finishComputed]
  exact (signal_of_masked s hfirst _).trans (signal_of_masked (setSticky R.first s) hsecond _)

/-- A signal with an unmasked kind ends the command (R177). -/
theorem signal_of_not_allMasked {K : KindSet} {s : State} (h : ¬ AllMasked s.cw K) (k : State → State) :
    signal K s k = faulted K s := signal_of_unmasked s h k

theorem finishComputed_of_first_fault {R : RuleResult} {s : State} (h : ¬ AllMasked s.cw R.first) (d : RegIdx)
    (pops : Bool) : finishComputed R.toComputed d pops s = faulted R.first s :=
  signal_of_not_allMasked h _

theorem finishComputed_of_second_fault {R : RuleResult} {s : State} (hfirst : AllMasked s.cw R.first)
    (hsecond : ¬ AllMasked s.cw R.second) (d : RegIdx) (pops : Bool) :
    finishComputed R.toComputed d pops s = faulted R.second { s with sticky := s.sticky ||| R.first } :=
  (signal_of_masked s hfirst _).trans (signal_of_not_allMasked (s := setSticky R.first s) hsecond _)

/-! ### Arithmetic commands -/

/-- A form that finds an Empty register has it among its operands. -/
theorem operand_empty_of_anyEmpty {f : Form} {s : State} (h : f.anyEmpty s = true) :
    (f.operands s).1.tag = .empty ∨ (f.operands s).2.tag = .empty := by
  have hreg : (s.st 0).tag = .empty ∨ (f.oth s).tag = .empty := by
    unfold Form.oth
    cases hother : f.other with
    | reg i => exact (anyEmpty_reg_iff s hother).mp h
    | imm v => exact .inl ((anyEmpty_imm_iff s hother).mp h)
  unfold Form.operands
  split
  · exact hreg
  · exact hreg.symm
  · exact hreg.symm
  · exact hreg

/-- An arithmetic command whose sources are there has its immediate, if it takes one. -/
theorem immediate_of_sources {i : Instr} {row : ArithRow} {s : State} {A B : FpuValue} (hr : arithRow i = some row)
    (hA : row.left.value s = some A) (hB : row.right.value s = some B) :
    ¬ (usesImmediate i = true ∧ s.immediate = none) := by
  rintro ⟨hi, hnone⟩
  cases i with
  | faddImm | fsubImm | fmulImm | fdivImm => cases hr; cases hnone.symm.trans hB
  | fsubrImm | fdivrImm => cases hr; cases hnone.symm.trans hA
  | fldImm => cases hr
  | _ => cases hi

/-- An arithmetic command on operands that are there delivers what the rules say of them. -/
theorem exec_eq_finishComputed {i : Instr} {row : ArithRow} {s : State} {A B : FpuValue} (hr : arithRow i = some row)
    (h : ArithOperands row s A B) :
    exec i s = .next (finishComputed (ruleArith row.op s.cw A B).toComputed row.dest row.pops s) := by
  obtain ⟨hA, hB, huA, huB, heA, heB⟩ := h
  obtain ⟨t, ht⟩ := exec_next_of_not_refused (immediate_of_sources hr hA hB)
  obtain ⟨f, rfl, hf⟩ := exec_arithRow hr ht
  obtain rfl : (f.operands s).1 = A := Option.some.inj (hf.left.symm.trans hA)
  obtain rfl : (f.operands s).2 = B := Option.some.inj (hf.right.symm.trans hB)
  have hempty : f.anyEmpty s = false :=
    Bool.not_eq_true _ ▸ fun he => (operand_empty_of_anyEmpty he).elim heA heB
  rw [ht, ← compute_eq_rule row.op s.cw huA huB heA heB, ← hf.dest, ← hf.pops]
  rcases arith_cases s row.op f with ⟨he, -⟩ | ⟨-, e⟩
  · cases hempty.symm.trans he
  · rw [e]

/-- Settles O31, by the two signals of the result that the rules give. -/
theorem arithmeticFaults : Obligations.ArithmeticFaults := fun i row s A B hr h => by
  rw [exec_eq_finishComputed hr h]
  exact ⟨fun hfirst => congrArg Host.Outcome.next (finishComputed_of_first_fault hfirst _ _),
    fun hfirst hsecond => congrArg Host.Outcome.next (finishComputed_of_second_fault hfirst hsecond _ _)⟩

/-- An arithmetic command that finds an Empty register is one stack underflow (R150). -/
theorem exec_eq_stackUnderflow {i : Instr} {row : ArithRow} {s : State} (hr : arithRow i = some row)
    (himm : usesImmediate i = true → ∃ v, s.immediate = some v) (hu : stackUnderflows i s) :
    exec i s = .next (stackUnderflow s (writeBack row.dest indef row.pops)) := by
  obtain ⟨t, ht⟩ := exec_next_of_not_refused (i := i) (s := s) fun ⟨hi, hnone⟩ => by
    obtain ⟨v, hv⟩ := himm hi
    cases hnone.symm.trans hv
  obtain ⟨f, rfl, hf⟩ := exec_arithRow hr ht
  rw [ht, ← hf.dest, ← hf.pops]
  rcases arith_cases s row.op f with ⟨-, e⟩ | ⟨he, -⟩
  · rw [e]
  · cases he.symm.trans (hf.empty.mpr hu)

/-- Settles O32: the stack underflow goes on with INDEF for the destination, or faults. -/
theorem arithmeticStackUnderflow : Obligations.ArithmeticStackUnderflow := fun i row s hr himm hu => by
  rw [exec_eq_stackUnderflow hr himm hu]
  refine ⟨fun hmasked => congrArg Host.Outcome.next ?_,
    fun hunmasked => congrArg Host.Outcome.next (signal_of_not_allMasked hunmasked _)⟩
  rw [← writeBack_eq_finishWith, setSticky_zero]
  exact signal_of_masked s hmasked _

end Sys2Proof.Machine
end

section
/-! The one response of a command (spec/20_memory.md R75; spec/41_arith_common.md R175). -/

namespace Sys2Proof.Machine

/-- The responses command `i` can give, `d` being the data that it returns when it completes. -/
inductive Answer (i : Instr) (d : PortWord) : Response → Prop
  | done : Answer i d (doneResponse d)
  | fault {U : KindSet} (hU : U ≠ 0) : Answer i d (faultResponse U)
  | illegal (hi : i = .ldcw ∨ ¬ i.WellFormed) : Answer i d illegalResponse

/-- Such a response stands on the response port. -/
def State.Answers (i : Instr) (d : PortWord) (t : State) : Prop := ∃ r, t.resp = some r ∧ Answer i d r

namespace State.Answers

variable {i : Instr} {d : PortWord}

theorem done (s : State) : (done s).Answers i 0 := ⟨_, rfl, .done⟩

theorem doneData (s : State) : (doneData d s).Answers i d := ⟨_, rfl, .done⟩

theorem raiseIllegal (hi : i = .ldcw ∨ ¬ i.WellFormed) (s : State) : (raiseIllegal s).Answers i d :=
  ⟨_, rfl, .illegal hi⟩

/-! ### Shared operations -/

variable (s : State)

theorem signal (K : KindSet) {k : State → State} (hk : ∀ u, (k u).Answers i d) : (signal K s k).Answers i d := by
  rcases signal_cases s K k with ⟨-, e⟩ | ⟨hK, e⟩ <;> rw [e]
  · exact hk _
  · exact ⟨_, rfl, .fault hK⟩

theorem stackUnderflow {k : State → State} (hk : ∀ u, (k u).Answers i d) : (stackUnderflow s k).Answers i d :=
  signal s _ fun _ => hk _

theorem stackOverflow {k : State → State} (hk : ∀ u, (k u).Answers i d) : (stackOverflow s k).Answers i d :=
  signal s _ fun _ => hk _

theorem push (v : FpuValue) {k kOver : State → State} (hk : ∀ u, (k u).Answers i d)
    (hOver : ∀ u, (kOver u).Answers i d) : (push v s k kOver).Answers i d := by
  rcases push_cases s v k kOver with ⟨-, e⟩ | ⟨-, e⟩ <;> rw [e]
  · exact hk _
  · exact stackOverflow s fun _ => hOver _

theorem store (n : RegIdx) {k : State → State} (hk : ∀ u, (k u).Answers i d) : (store n s k).Answers i d := by
  rcases store_cases s n k with ⟨-, e⟩ | ⟨-, e⟩ <;> rw [e]
  · exact hk _
  · exact stackUnderflow s fun _ => hk _

theorem finishComputed (c : Computed) (n : RegIdx) (pops : Bool) : (finishComputed c n pops s).Answers i 0 :=
  signal s _ fun u => signal u _ fun _ => done _

theorem arith (op : ArithOp) (f : Form) : (arith op f s).Answers i 0 := by
  rcases arith_cases s op f with ⟨-, e⟩ | ⟨-, e⟩ <;> rw [e]
  · exact stackUnderflow s fun _ => done _
  · exact finishComputed s _ _ _

theorem logCommand (screen : FpuValue → Screened) (engine : Rat → Rat) : (logCommand screen engine s).Answers i 0 := by
  by_cases he : (s.st 0).tag = .empty
  · rw [logCommand_of_empty he]
    exact stackUnderflow s fun _ => done _
  · rw [logCommand_of_nonempty he]
    exact finishComputed s _ _ _

end State.Answers

/-! ### Every command -/

/-- The data that a command returns when it completes (46_stack_mgmt_aux.md R301, R302; 40_register_stack.md R136). -/
def returnedData (i : Instr) (s : State) : PortWord :=
  match i with
  | .stsw => s.statusWord.setWidth 84
  | .stcw => s.cw.toWord.setWidth 84
  | .rdst n => packValue (if (s.st n).tag = .empty then indef else s.st n)
  | _ => 0

theorem execLdcw_answers {s t : State} (h : execLdcw s = .next t) : t.Answers .ldcw 0 := by
  unfold execLdcw at h
  cases h
  split
  · exact .done _
  · exact .raiseIllegal (.inl rfl) s

theorem execFldReg_answers {s t : State} {n : RegIdx} (h : execFldReg n s = .next t) : t.Answers (.fldReg n) 0 := by
  unfold execFldReg at h
  cases h
  split
  · exact .stackOverflow s fun _ => .done _
  · split
    · exact .stackUnderflow s fun _ => .done _
    · exact .done _

theorem execFldc_answers {s t : State} {c : ConstIdx} (h : execFldc c s = .next t) : t.Answers (.fldc c) 0 := by
  unfold execFldc at h
  cases h
  split
  next v hv => exact .push s v (fun _ => .done _) fun _ => .done _
  next hv => exact .raiseIllegal (.inr fun hwf => by simpa [hv] using constTable_legal.mpr hwf) s

theorem execFxch_answers {s t : State} {n : RegIdx} (h : execFxch n s = .next t) : t.Answers (.fxch n) 0 := by
  unfold execFxch at h
  cases h
  split
  · exact .stackUnderflow s fun _ => .done _
  · exact .done _

theorem execRdst_answers {s t : State} {n : RegIdx} (h : execRdst n s = .next t) :
    t.Answers (.rdst n) (packValue (if (s.st n).tag = .empty then indef else s.st n)) := by
  by_cases he : (s.st n).tag = .empty
  · cases (exec_rdst_of_empty he).symm.trans h
    rw [if_pos he]
    exact .stackUnderflow s fun _ => .doneData _
  · cases (exec_rdst_of_nonempty he).symm.trans h
    rw [if_neg he]
    exact .doneData _

/-- Every command that has a next state answers there. -/
theorem exec_answers {i : Instr} {s t : State} (h : exec i s = .next t) : t.Answers i (returnedData i s) := by
  cases i with
  | finit | fclex | ffree | ffreep | pop => cases h; exact .done _
  | stsw | stcw => cases h; exact .doneData _
  | ldcw => exact execLdcw_answers h
  | fldReg n => exact execFldReg_answers h
  | fldImm =>
    obtain ⟨v, -, rfl⟩ := withImmediate_eq_next h
    exact .push s v (fun _ => .done _) fun _ => .done _
  | fldc c => exact execFldc_answers h
  | fst n | fstp n => cases h; exact .store s n fun _ => .done _
  | fxch n => exact execFxch_answers h
  | rdst n => exact execRdst_answers h
  | faddImm | fsubImm | fsubrImm | fmulImm | fdivImm | fdivrImm =>
    obtain ⟨v, -, rfl⟩ := withImmediate_eq_next h
    exact .arith s _ _
  | fl2x | fl2xp1 => cases h; exact .logCommand s _ _
  | _ => cases h; exact .arith s _ _

/-! ### The obligation -/

/-- The fields of the responses that a command can give (R75). -/
theorem Answer.fields {i : Instr} {d : PortWord} {r : Response} (h : Answer i d r) :
    statusCode r.status ≠ 3 ∧ (statusCode r.status = 0 → r.cc = 0 ∧ r.data = d) ∧
      (statusCode r.status ≠ 0 → r.cc = -1 ∧ r.data = 0) ∧ (r.fault ≠ 0 ↔ statusCode r.status = 1) ∧
      (statusCode r.status = 2 → i = .ldcw ∨ ¬ i.WellFormed) := by
  cases h with
  | done => exact ⟨nofun, fun _ => ⟨rfl, rfl⟩, fun h => absurd rfl h, ⟨fun h => absurd rfl h, nofun⟩, nofun⟩
  | fault hU => exact ⟨nofun, nofun, fun _ => ⟨rfl, rfl⟩, ⟨fun _ => rfl, fun _ => hU⟩, nofun⟩
  | illegal hi => exact ⟨nofun, nofun, fun _ => ⟨rfl, rfl⟩, ⟨fun h => absurd rfl h, nofun⟩, fun _ => hi⟩

theorem returnedData_ne_zero {i : Instr} {s : State} (h : returnedData i s ≠ 0) :
    i = .stsw ∨ i = .stcw ∨ ∃ n, i = .rdst n := by
  cases i with
  | stsw => exact .inl rfl
  | stcw => exact .inr (.inl rfl)
  | rdst n => exact .inr (.inr ⟨n, rfl⟩)
  | _ => exact absurd rfl h

/-- Settles O51: the fields of the three responses a command can give; STSW and STCW always complete. -/
theorem responseFields : Obligations.ResponseFields := by
  intro i s t h
  obtain ⟨r, hr, ha⟩ := exec_answers h
  obtain ⟨hcode, hdone, hnotDone, hfault, hillegal⟩ := ha.fields
  refine ⟨r, hr, hcode, fun h0 => (hdone h0).1, hnotDone, hfault, fun hdata => ?_, ?_, ?_, ?_, hillegal⟩
  · by_cases h0 : statusCode r.status = 0
    · exact returnedData_ne_zero ((hdone h0).2 ▸ hdata)
    · exact absurd (hnotDone h0).2 hdata
  · rintro rfl
    cases h
    cases hr
    rfl
  · rintro rfl
    cases h
    cases hr
    rfl
  · rintro n rfl h0
    exact (hdone h0).2

end Sys2Proof.Machine
end

section
/-! Which slots a command writes (spec/20_memory.md R78; spec/41_arith_common.md R172; spec/46_stack_mgmt_aux.md R290 to
R297): what a shared operation leaves of the slot `p`, and with it every command. -/

namespace Sys2Proof.Machine

/-! ### Shared operations -/

section SharedOperations

variable {s : State} {p : RegIdx}

/-- A signal writes no slot; what follows it starts from the same `top` and the same slots. -/
theorem slot_signal {K : KindSet} {k : State → State}
    (hk : ∀ u, u.top = s.top → u.slots = s.slots → (k u).slot p = s.slot p) : (signal K s k).slot p = s.slot p := by
  rcases signal_cases s K k with ⟨-, e⟩ | ⟨-, e⟩ <;> rw [e]
  · exact hk _ rfl rfl
  · rfl

theorem slot_stackUnderflow {k : State → State}
    (hk : ∀ u, u.top = s.top → u.slots = s.slots → (k u).slot p = s.slot p) : (stackUnderflow s k).slot p = s.slot p :=
  slot_signal fun u htop hslots => hk (setC1 true u) htop hslots

theorem slot_stackOverflow {k : State → State}
    (hk : ∀ u, u.top = s.top → u.slots = s.slots → (k u).slot p = s.slot p) : (stackOverflow s k).slot p = s.slot p :=
  slot_signal fun u htop hslots => hk (setC1 true u) htop hslots

/-- A push that completes writes the slot below `top` alone (R130). -/
theorem slot_done_pushRaw {u : State} (hp : p ≠ s.top - 1) (htop : u.top = s.top) (hslots : u.slots = s.slots)
    (v : FpuValue) : (done (pushRaw v u)).slot p = s.slot p :=
  (pushedFrom_done_pushRaw htop hslots v).slot p hp

theorem slot_push {v : FpuValue} {k : State → State} (hp : p ≠ s.top - 1)
    (hk : ∀ u, (k u).slot p = u.slot p) : (push v s k done).slot p = s.slot p := by
  rcases push_cases s v k done with ⟨-, e⟩ | ⟨-, e⟩ <;> rw [e]
  · exact (hk _).trans (slot_done_pushRaw hp rfl rfl v)
  · exact slot_stackOverflow fun u htop hslots => slot_done_pushRaw hp htop hslots indef

/-- The write-back of a computing command writes the destination, and in a pop variant the slot popped (R172, R176). -/
theorem slot_writeBack {u : State} {d : RegIdx} {pops : Bool} (hd : p ≠ s.top + d) (hpop : pops = true → p ≠ s.top)
    (htop : u.top = s.top) (hslots : u.slots = s.slots) (v : FpuValue) :
    (writeBack d v pops u).slot p = s.slot p := by
  have hset : (setSlot (u.phys d) v u).slot p = s.slot p := calc
    (setSlot (u.phys d) v u).slot p = u.slot p := slot_setSlot_ne u v (by rw [State.phys, htop]; exact hd)
    _ = s.slot p := slot_congr hslots p
  cases pops with
  | false => exact hset
  | true =>
    have hpopped : (popStack (setSlot (u.phys d) v u)).slot p = (setSlot (u.phys d) v u).slot p := by
      rw [slot_popStack, if_neg]
      exact htop ▸ hpop rfl
    exact hpopped.trans hset

theorem slot_finishComputed {c : Computed} {d : RegIdx} {pops : Bool} (hd : p ≠ s.top + d)
    (hpop : pops = true → p ≠ s.top) : (finishComputed c d pops s).slot p = s.slot p := by
  rcases finishComputed_cases s c d pops with ⟨-, -, e⟩ | ⟨-, e⟩ | ⟨-, -, e⟩ <;> rw [e]
  · exact slot_writeBack (u := setC1 c.roundup (setSticky c.second (setSticky c.first s))) hd hpop rfl rfl c.value
  · rfl
  · rfl

theorem slot_arith {op : ArithOp} {f : Form} (hd : p ≠ s.top + f.dest) (hpop : f.pops = true → p ≠ s.top) :
    (arith op f s).slot p = s.slot p := by
  rcases arith_cases s op f with ⟨-, e⟩ | ⟨-, e⟩ <;> rw [e]
  · exact slot_stackUnderflow fun u htop hslots => slot_writeBack hd hpop htop hslots indef
  · exact slot_finishComputed hd hpop

theorem slot_logCommand {screen : FpuValue → Screened} {engine : Rat → Rat} (hp : p ≠ s.top) :
    (logCommand screen engine s).slot p = s.slot p := by
  have hd : p ≠ s.top + 0 := by rwa [add_zero]
  have hpop : false = true → p ≠ s.top := fun h => absurd h Bool.false_ne_true
  by_cases he : (s.st 0).tag = .empty
  · rw [logCommand_of_empty he]
    exact slot_stackUnderflow fun u htop hslots => slot_writeBack hd hpop htop hslots indef
  · rw [logCommand_of_nonempty he]
    exact slot_finishComputed hd hpop

/-- A store writes its destination; what follows it starts from the same `top`. -/
theorem slot_store {n : RegIdx} {k : State → State} (hp : p ≠ s.top + n)
    (hk : ∀ u, u.top = s.top → (k u).slot p = u.slot p) : (store n s k).slot p = s.slot p := by
  have hset : ∀ v u, u.top = s.top → u.slots = s.slots → (k (setSlot (u.phys n) v u)).slot p = s.slot p :=
    fun v u htop hslots => calc
      (k (setSlot (u.phys n) v u)).slot p = (setSlot (u.phys n) v u).slot p := hk _ htop
      _ = u.slot p := slot_setSlot_ne u v (by rw [State.phys, htop]; exact hp)
      _ = s.slot p := slot_congr hslots p
  rcases store_cases s n k with ⟨-, e⟩ | ⟨-, e⟩ <;> rw [e]
  · exact hset _ s rfl rfl
  · exact slot_stackUnderflow fun u htop hslots => hset indef u htop hslots

/-- A POP writes the slot at `top` alone (R131). -/
theorem slot_popStack_ne {u : State} (hp : p ≠ s.top) (htop : u.top = s.top) : (popStack u).slot p = u.slot p := by
  rw [slot_popStack, if_neg (htop ▸ hp)]

end SharedOperations

/-! ### Every command -/

section Commands

variable {s t : State} {p : RegIdx}

theorem slot_execFldReg {n : RegIdx} (hp : p ≠ s.top - 1) (h : execFldReg n s = .next t) : t.slot p = s.slot p := by
  unfold execFldReg at h
  cases h
  split
  · exact slot_stackOverflow fun u htop hslots => slot_done_pushRaw hp htop hslots indef
  · split
    · exact slot_stackUnderflow fun u htop hslots => slot_done_pushRaw hp htop hslots indef
    · exact slot_done_pushRaw hp rfl rfl _

theorem slot_execFldc {c : ConstIdx} (hp : p ≠ s.top - 1) (h : execFldc c s = .next t) : t.slot p = s.slot p := by
  unfold execFldc at h
  cases h
  split
  · exact slot_push hp fun _ => rfl
  · rfl

theorem slot_execLdcw (h : execLdcw s = .next t) : t.slot p = s.slot p := by
  unfold execLdcw at h
  cases h
  split <;> rfl

theorem slot_execFxch {n : RegIdx} (hn : p ≠ s.top + n) (h0 : p ≠ s.top) (h : execFxch n s = .next t) :
    t.slot p = s.slot p := by
  have hswap : ∀ u, u.top = s.top → u.slots = s.slots →
      (done (swapSlots (u.phys 0) (u.phys n) u)).slot p = s.slot p := fun u htop hslots => calc
    (swapSlots (u.phys 0) (u.phys n) u).slot p = u.slot p := by
      rw [slot_swapSlots, State.phys, State.phys, htop, add_zero, if_neg hn, if_neg h0]
    _ = s.slot p := slot_congr hslots p
  unfold execFxch at h
  cases h
  split
  · exact slot_stackUnderflow hswap
  · exact hswap s rfl rfl

/-- An arithmetic command writes what its row names. -/
theorem slot_exec_arithRow {i : Instr} {row : ArithRow} (hr : arithRow i = some row) (hd : p ≠ s.top + row.dest)
    (hpop : row.pops = true → p ≠ s.top) (h : exec i s = .next t) : t.slot p = s.slot p := by
  obtain ⟨f, rfl, hf⟩ := exec_arithRow hr h
  exact slot_arith (hf.dest ▸ hd) (hf.pops ▸ hpop)

/-- No command writes a slot that it does not address. -/
theorem slot_exec_of_not_mayWriteSlot {i : Instr} (h : exec i s = .next t) (hp : ¬ mayWriteSlot i s p) :
    t.slot p = s.slot p := by
  cases i with
  | finit => exact absurd trivial hp
  | fclex | stsw | stcw => cases h; rfl
  | ldcw => exact slot_execLdcw h
  | fldReg n => exact slot_execFldReg hp h
  | fldImm =>
    obtain ⟨v, -, rfl⟩ := withImmediate_eq_next h
    exact slot_push hp fun _ => rfl
  | fldc c => exact slot_execFldc hp h
  | fst n => cases h; exact slot_store hp fun _ _ => rfl
  | fstp n =>
    obtain ⟨hn, h0⟩ := not_or.mp hp
    cases h
    exact slot_store hn fun u htop => slot_popStack_ne h0 htop
  | fxch n =>
    obtain ⟨hn, h0⟩ := not_or.mp hp
    exact slot_execFxch hn h0 h
  | ffree n => cases h; exact slot_setSlot_ne s _ hp
  | ffreep n =>
    obtain ⟨hn, h0⟩ := not_or.mp hp
    cases h
    exact (slot_popStack_ne (u := emptyTag (s.phys n) s) h0 rfl).trans (slot_setSlot_ne s _ hn)
  | pop => cases h; exact slot_popStack_ne hp rfl
  | rdst n =>
    cases h
    rcases readReg_cases s n (fun v s => doneData (packValue v) s) with ⟨-, e⟩ | ⟨-, e⟩ <;> rw [e]
    · rfl
    · exact slot_stackUnderflow fun u _ hslots => slot_congr hslots p
  | fl2x | fl2xp1 => cases h; exact slot_logCommand hp
  | _ =>
    exact slot_exec_arithRow rfl (fun hd => hp ⟨_, rfl, .inl hd⟩) (fun hpops h0 => hp ⟨_, rfl, .inr ⟨hpops, h0⟩⟩) h

end Commands

/-! ### Commands that write tags alone -/

/-- Emptying the tag of a slot keeps the payload of every slot. -/
theorem payload_emptyTag (s : State) (a p : RegIdx) :
    { (emptyTag a s).slot p with tag := (s.slot p).tag } = s.slot p := by
  rw [slot_emptyTag]
  split
  · subst_vars; rfl
  · rfl

/-- FINIT, POP, FFREE and FFREEP keep the payload of every slot (R290, R293, R294; 40_register_stack.md R131). -/
theorem payload_exec {i : Instr} {s t : State} (h : exec i s = .next t)
    (hi : i = .finit ∨ i = .pop ∨ ∃ n, i = .ffree n ∨ i = .ffreep n) (p : RegIdx) :
    { t.slot p with tag := (s.slot p).tag } = s.slot p := by
  rcases hi with rfl | rfl | ⟨n, rfl | rfl⟩ <;> cases h
  · exact congrArg (fun v : FpuValue => { v with tag := (s.slot p).tag }) (slot_emptyAllTags s p)
  · exact payload_emptyTag s s.top p
  · exact payload_emptyTag s (s.phys n) p
  · calc _ = { (emptyTag (s.phys n) s).slot p with tag := (s.slot p).tag } :=
          congrArg (fun v : FpuValue => { v with tag := (s.slot p).tag })
            (payload_emptyTag (emptyTag (s.phys n) s) s.top p)
      _ = s.slot p := payload_emptyTag s (s.phys n) p

/-- Settles O57, command by command, each from what the operations it is built of leave of a slot. -/
theorem slotFrame : Obligations.SlotFrame := fun _ _ _ h =>
  ⟨fun _ => slot_exec_of_not_mayWriteSlot h, payload_exec h⟩

end Sys2Proof.Machine
end

section
/-! Add and subtract (spec/42_add_sub.md R200 to R211): every command completes with the result of the table of R210,
and the laws of the sum, read off that table. -/

namespace Sys2Proof.Machine

/-! ### Completion (R210) -/

/-- An arithmetic command on operands that are there, with the kinds its rule raises masked, completes with the rule's
result. -/
theorem exec_eq_finishWith {i : Instr} {row : ArithRow} {s : State} {A B : FpuValue} (hr : arithRow i = some row)
    (h : ArithOperands row s A B)
    (hmasked : AllMasked s.cw ((ruleArith row.op s.cw A B).first ||| (ruleArith row.op s.cw A B).second)) :
    exec i s = .next (finishWith (ruleArith row.op s.cw A B) row.dest row.pops s) := by
  rw [exec_eq_finishComputed hr h, finishComputed_of_masked hmasked]

/-- Settles O28: what every arithmetic command does, for the rows of ADD and SUB. -/
theorem addAndSubtractComplete : Obligations.AddAndSubtractComplete := fun _ _ _ _ _ hr _ h hmasked =>
  exec_eq_finishWith hr h hmasked

/-! ### The laws of the sum (R211) -/

/-- A negated operand has the negated value. -/
theorem valOf_negated (v : FpuValue) : valOf { v with sign := !v.sign } = -valOf v := by
  rw [valOf_withSign, valOf_eq]
  cases v.sign <;> simp

/-- The table of R210 reads the right operand's sign in its last argument only. -/
theorem ruleSum_withSign (cw : ControlWord) (A B : FpuValue) (r s : Bool) :
    ruleSum cw A { B with sign := r } s = ruleSum cw A B s := rfl

theorem ruleExact_comm (A B v : FpuValue) : ruleExact A B v = ruleExact B A v := by
  simp only [ruleExact, ruleDE, or_comm]

theorem ruleRounded_comm (cw : ControlWord) (A B : FpuValue) (x : ℚ) :
    ruleRounded cw A B x = ruleRounded cw B A x := by
  simp only [ruleRounded, ruleDE, or_comm]

/-- The table of R210 is symmetric: two Infinities are one of equal signs or invalid, two Zeros of unequal signs give
the zero of the mode, and the exact sum does not depend on the order. -/
theorem ruleSum_comm (cw : ControlWord) (A B : FpuValue) : ruleSum cw A B B.sign = ruleSum cw B A A.sign := by
  have hvalue : valOf A + valOf { B with sign := B.sign } = valOf B + valOf { A with sign := A.sign } := add_comm _ _
  have hzeros : (if A.sign = B.sign then A.sign else decide (cw.rc = .down)) =
      if B.sign = A.sign then B.sign else decide (cw.rc = .down) := by
    by_cases h : A.sign = B.sign
    · rw [if_pos h, if_pos h.symm, h]
    · rw [if_neg h, if_neg (Ne.symm h)]
  simp only [ruleSum_eq, hvalue, hzeros, ruleExact_comm A B, ruleRounded_comm cw A B]
  by_cases hA : A.tag = .infinity
  · by_cases hB : B.tag = .infinity
    · by_cases hsign : A.sign = B.sign
      · simp only [hA, hB, hsign, ne_eq, not_true_eq_false, and_false, if_true, if_false]
      · simp only [hA, hB, hsign, Ne.symm hsign, ne_eq, not_false_eq_true, and_self, if_true]
    · simp only [hA, hB, false_and, and_false, if_true, if_false]
  · simp only [hA, false_and, and_false, if_false, and_comm (a := B.tag = .zero)]

/-- Opposite finite values that are not Zeros give the zero of R208. -/
theorem ruleSum_opposite (cw : ControlWord) {A : FpuValue} (h : A.tag = .valid ∨ A.tag = .denormal) :
    ruleSum cw A A (!A.sign) = ruleExact A A (zeroOf (decide (cw.rc = .down))) := by
  obtain ⟨hinf, hzero⟩ : A.tag ≠ .infinity ∧ A.tag ≠ .zero := by
    rcases h with h | h <;> rw [h] <;> exact ⟨nofun, nofun⟩
  have hx : valOf A + valOf { A with sign := !A.sign } = 0 := by rw [valOf_negated, add_neg_cancel]
  rw [ruleSum_eq, if_neg (fun e => hinf e.1), if_neg hinf, if_neg hinf, if_neg (fun e => hzero e.1), if_pos hx]

section WithoutNaN

variable {A B : FpuValue} (cw : ControlWord) (hA : A.tag ≠ .nan) (hB : B.tag ≠ .nan)
include hA hB

theorem compute_sub_eq_add_negated :
    compute .sub cw A B = compute .add cw A { B with sign := !B.sign } :=
  calc compute .sub cw A B = (ruleSum cw A B (!B.sign)).toComputed := compute_eq_ruleSum cw hA hB (.inr rfl)
    _ = (ruleSum cw A { B with sign := !B.sign } (!B.sign)).toComputed :=
      congrArg RuleResult.toComputed (ruleSum_withSign ..).symm
    _ = compute .add cw A { B with sign := !B.sign } :=
      (compute_eq_ruleSum (B := { B with sign := !B.sign }) cw hA hB (.inl rfl)).symm

theorem compute_add_comm : compute .add cw A B = compute .add cw B A :=
  calc compute .add cw A B = (ruleSum cw A B B.sign).toComputed := compute_eq_ruleSum cw hA hB (.inl rfl)
    _ = (ruleSum cw B A A.sign).toComputed := by rw [ruleSum_comm]
    _ = compute .add cw B A := (compute_eq_ruleSum cw hB hA (.inl rfl)).symm

end WithoutNaN

/-- A finite value that is no Zero, less itself. -/
theorem compute_sub_self (cw : ControlWord) {A : FpuValue} (h : A.tag = .valid ∨ A.tag = .denormal) :
    compute .sub cw A A = (ruleExact A A (zeroOf (decide (cw.rc = .down)))).toComputed := by
  have hnan : A.tag ≠ .nan := by rcases h with h | h <;> rw [h] <;> nofun
  exact (compute_eq_ruleSum cw hnan hnan (.inr rfl)).trans (congrArg RuleResult.toComputed (ruleSum_opposite cw h))

/-- The skeleton on the form `ST,ST(n)` of two registers that are not Empty, whose roles `reversed` exchanges (R95). -/
theorem arith_formStSti {s : State} {n : RegIdx} (h0 : (s.st 0).tag ≠ .empty) (hn : (s.st n).tag ≠ .empty)
    (op : ArithOp) (reversed : Bool) :
    arith op (formStSti reversed n) s =
      finishComputed (if reversed then compute op s.cw (s.st n) (s.st 0) else compute op s.cw (s.st 0) (s.st n))
        0 false s := by
  rcases arith_cases s op (formStSti reversed n) with ⟨he, -⟩ | ⟨-, e⟩
  · exact absurd ((anyEmpty_reg_iff s rfl).mp he) (not_or.mpr ⟨h0, hn⟩)
  · rw [e]
    cases reversed <;> rfl

/-- Settles O34: the first two clauses are laws of the table of R210, the last is the operand form of each command. -/
theorem addSubtractLaws : Obligations.AddSubtractLaws := by
  refine ⟨fun cw A B hA hB => ⟨compute_sub_eq_add_negated cw hA hB, compute_add_comm cw hA hB⟩,
    fun cw A h => ?_, fun n s h0 hn => ⟨?_, ?_⟩⟩
  · have hnan : A.tag ≠ .nan := by rcases h with h | h <;> rw [h] <;> nofun
    rw [← compute_sub_eq_add_negated cw hnan hnan, compute_sub_self cw h]
    exact ⟨rfl, rfl, rfl, rfl⟩
  · exact congrArg Host.Outcome.next (arith_formStSti h0 hn .sub true)
  · exact congrArg Host.Outcome.next (arith_formStSti h0 hn .sub false)

end Sys2Proof.Machine
end

section
/-! Multiply (spec/43_mul.md R220 to R227) and what products and quotients have in common: every multiply command
completes with the result of the table of R226, the sign of a product or a quotient (R223; spec/44_div.md R240), and
the laws of the product (R227). -/

namespace Sys2Proof.Machine

/-! ### Completion (R226) -/

/-- Settles O29: what every arithmetic command does, for the rows of MUL. -/
theorem multiplyCompletes : Obligations.MultiplyCompletes := fun _ _ _ _ _ hr _ h hmasked =>
  exec_eq_finishWith hr h hmasked

/-! ### The sign of a product or a quotient (R223, R240) -/

/-- Stage 5 rounds an exact result that is not zero, with its sign. -/
theorem computeFinite_of_num_ne_zero {op : ArithOp} {A B : FpuValue} (cw : ControlWord)
    (h : (exactOp op A B).2.num ≠ 0) :
    computeFinite op cw A B =
      { first := denormalKinds A B
        second := (round cw (exactOp op A B).1 (exactOp op A B).2).kinds
        value := (round cw (exactOp op A B).1 (exactOp op A B).2).value
        roundup := (round cw (exactOp op A B).1 (exactOp op A B).2).roundup } :=
  if_neg h

theorem nanResult_tag (A B : FpuValue) : (nanResult A B).value.tag = .nan := by
  unfold nanResult
  dsimp only
  split <;> rfl

section Sign

variable {op : ArithOp} {A B : FpuValue} (hop : op = .mul ∨ op = .div)
include hop

/-- Finite operands without a Zero have an exact product and quotient that is not zero (R225, R242). -/
theorem exactValue_ne_zero (hs : ¬ Settled op A B) (hvA : A.tag = .zero ∨ valOf A ≠ 0)
    (hvB : B.tag = .zero ∨ valOf B ≠ 0) : exactValue op A B ≠ 0 := by
  obtain ⟨hzA, hzB⟩ : A.tag ≠ .zero ∧ B.tag ≠ .zero := by
    rcases hop with rfl | rfl <;> exact not_or.mp (not_or.mp (not_or.mp hs).2).2
  have hA := hvA.resolve_left hzA
  have hB := hvB.resolve_left hzB
  rcases hop with rfl | rfl
  · exact mul_ne_zero hA hB
  · exact div_ne_zero hA hB

/-- The Infinities and Zeros of stage 4 have the exclusive or of the signs (R224, R241). -/
theorem specialOp_sign {cw : ControlWord} {K : KindSet} {v : FpuValue} (h : specialOp op cw A B = some (K, v)) :
    v.sign = xorSign A B := by
  rcases hop with rfl | rfl <;> simp only [specialOp] at h <;> split_ifs at h <;> cases h <;> rfl

/-- What stage 5 rounds has the exclusive or of the signs (R225, R242). -/
theorem computeFinite_sign (cw : ControlWord) (hnum : (exactOp op A B).2.num ≠ 0) :
    (computeFinite op cw A B).value.sign = xorSign A B := by
  have hexact : (exactOp op A B).1 = xorSign A B := by rcases hop with rfl | rfl <;> rfl
  rw [computeFinite_of_num_ne_zero cw hnum]
  exact (round_value_sign ..).trans hexact

/-- A primitive that reaches stage 5 has an exact result that is not zero to round. -/
theorem exactOp_num_ne_zero (hs : ¬ Settled op A B) (hvA : A.tag = .zero ∨ valOf A ≠ 0)
    (hvB : B.tag = .zero ∨ valOf B ≠ 0) : (exactOp op A B).2.num ≠ 0 :=
  mt (exactOp_is hs hvA hvB).num_eq_zero_iff.mp (exactValue_ne_zero hop hs hvA hvB)

/-- Stage by stage: the results of stages 1 and 2 are NaNs, those of stages 4 and 5 have the exclusive or of the
signs. -/
theorem compute_sign (cw : ControlWord) (huA : A.usable = true) (huB : B.usable = true) (heA : A.tag ≠ .empty)
    (heB : B.tag ≠ .empty) (hres : (compute op cw A B).value.tag ≠ .nan) :
    (compute op cw A B).value.sign = xorSign A B := by
  unfold compute at hres ⊢
  split at hres
  next => exact absurd (nanResult_tag A B) hres
  next hnan =>
    rw [if_neg hnan]
    split at hres
    next => exact absurd rfl hres
    next hinv =>
      rw [if_neg hinv]
      split
      next K v hspecial => exact specialOp_sign hop hspecial
      next hnone =>
        obtain ⟨hnA, hnB⟩ := not_or.mp hnan
        have hs : ¬ Settled op A B := (specialOp_eq_none_iff op cw A B).mp hnone
        have hiA : A.tag ≠ .infinity := fun e => hs (by rcases hop with rfl | rfl <;> exact .inl e)
        have hiB : B.tag ≠ .infinity := fun e => hs (by rcases hop with rfl | rfl <;> exact .inr (.inl e))
        exact computeFinite_sign hop cw (exactOp_num_ne_zero hop hs (zero_or_valOf_ne_zero huA hnA hiA heA)
          (zero_or_valOf_ne_zero huB hnB hiB heB))

end Sign

/-- Settles O35, by the sign of each stage's result. -/
theorem productAndQuotientSign : Obligations.ProductAndQuotientSign := fun _ cw _ _ hop huA huB heA heB hres =>
  compute_sign hop cw huA huB heA heB hres

/-! ### Commutativity (R227) -/

theorem xorSign_comm (A B : FpuValue) : xorSign A B = xorSign B A := Bool.xor_comm ..

theorem denormalKinds_comm (A B : FpuValue) : denormalKinds A B = denormalKinds B A := by
  simp only [denormalKinds, Bool.or_comm]

theorem invalidOp_mul_comm (A B : FpuValue) : invalidOp .mul A B = invalidOp .mul B A := by
  simp only [invalidOp, Bool.or_comm, Bool.and_comm]

theorem specialOp_mul_comm (cw : ControlWord) (A B : FpuValue) : specialOp .mul cw A B = specialOp .mul cw B A := by
  simp only [specialOp, xorSign_comm A B, or_comm]

/-- The product of the magnitudes is formed in full, so the order does not matter (R225). -/
theorem exactOp_mul_comm (A B : FpuValue) : exactOp .mul A B = exactOp .mul B A := by
  simp only [exactOp, xorSign_comm A B, Nat.mul_comm]

theorem computeFinite_mul_comm (cw : ControlWord) (A B : FpuValue) :
    computeFinite .mul cw A B = computeFinite .mul cw B A := by
  simp only [computeFinite, exactOp_mul_comm A B, denormalKinds_comm A B]

/-- Without NaN operands every stage is symmetric. -/
theorem compute_mul_comm (cw : ControlWord) {A B : FpuValue} (hA : A.tag ≠ .nan) (hB : B.tag ≠ .nan) :
    compute .mul cw A B = compute .mul cw B A := by
  unfold compute
  rw [if_neg (not_or.mpr ⟨hA, hB⟩), if_neg (not_or.mpr ⟨hB, hA⟩), invalidOp_mul_comm A B, specialOp_mul_comm cw A B,
    denormalKinds_comm A B, computeFinite_mul_comm cw A B]

/-! ### Products of Valid operands (R227) -/

/-- Rounding reaches `2^(EMAX + 1)` only from the topmost binade on (R165). -/
theorem le_log_of_overflows {cw : ControlWord} {s : Bool} {m : Frac} (hn : 0 < m.num) (hd : 0 < m.den)
    (h : (roundGrid cw s m).overflows = true) : 16383 ≤ Int.log 2 m.toRat := by
  have hmag : (2 : ℚ) ^ (16384 : ℤ) ≤ 2 ^ ((cw.pc.bits : ℤ) + ruleUlp cw m.toRat) := calc
    (2 : ℚ) ^ (16384 : ℤ) ≤ (ruleRounding cw s m.toRat).1 :=
      (roundGrid_follows cw s hn hd).magnitude ▸ (Grid.overflows_iff _).mp h
    _ ≤ 2 ^ cw.pc.bits * 2 ^ ruleUlp cw m.toRat := ruleRounding_le cw s m.toRat
    _ = 2 ^ ((cw.pc.bits : ℤ) + ruleUlp cw m.toRat) := by rw [zpow_add₀ two_ne_zero, zpow_natCast]
  have hexp := (zpow_le_zpow_iff_right₀ one_lt_two).mp hmag
  have hp : cw.pc.bits ≤ 64 := by cases cw.pc <;> decide
  unfold ruleUlp at hexp
  omega

/-- Valid operands reach stage 5. -/
theorem compute_mul_of_valid {A B : FpuValue} (htA : A.tag = .valid) (htB : B.tag = .valid) (cw : ControlWord) :
    compute .mul cw A B = computeFinite .mul cw A B :=
  compute_of_not_settled cw (by rw [htA]; nofun) (by rw [htB]; nofun) (by simp [Settled, htA, htB])

section Valid

variable {A B : FpuValue} (hA : A.wf = true) (hB : B.wf = true) (htA : A.tag = .valid) (htB : B.tag = .valid)
include hA hB htA htB

/-- The product of two Valid values lies in the binade of the sum of their exponents or in the next one. -/
theorem abs_product_bounds :
    (2 : ℚ) ^ (A.exp.toInt + B.exp.toInt) ≤ |valOf A * valOf B| ∧
      |valOf A * valOf B| < 2 ^ (A.exp.toInt + B.exp.toInt + 2) := by
  obtain ⟨hlowA, hhighA, -⟩ := valueRanges.1 A hA htA
  obtain ⟨hlowB, hhighB, -⟩ := valueRanges.1 B hB htB
  have hexp : A.exp.toInt + B.exp.toInt + 2 = (A.exp.toInt + 1) + (B.exp.toInt + 1) := by ring
  rw [abs_mul, hexp, zpow_add₀ two_ne_zero, zpow_add₀ two_ne_zero (A.exp.toInt + 1)]
  exact ⟨mul_le_mul hlowA hlowB (by positivity) (abs_nonneg _),
    mul_lt_mul'' hhighA hhighB (abs_nonneg _) (abs_nonneg _)⟩

/-- Valid operands have an exact product that is not zero to round. -/
theorem exactProduct_of_valid :
    ExactIs (exactOp .mul A B) (valOf A * valOf B) ∧ (exactOp .mul A B).2.num ≠ 0 := by
  have hvA := valOf_ne_zero (FpuValue.usable_of_wf hA) (.inl htA)
  have hvB := valOf_ne_zero (FpuValue.usable_of_wf hB) (.inl htB)
  have hexact : ExactIs (exactOp .mul A B) (valOf A * valOf B) := exactProduct_is hvA hvB
  exact ⟨hexact, mt hexact.num_eq_zero_iff.mp (mul_ne_zero hvA hvB)⟩

theorem compute_mul_sign_of_valid (cw : ControlWord) : (compute .mul cw A B).value.sign = xorSign A B := by
  rw [compute_mul_of_valid htA htB]
  exact computeFinite_sign (.inl rfl) cw (exactProduct_of_valid hA hB htA htB).2

/-- The second signal has OE only if the rounded product overflows. -/
theorem le_exp_add_exp_of_overflow {cw : ControlWord} (hOE : (compute .mul cw A B).second.getLsbD 3 = true) :
    16382 ≤ A.exp.toInt + B.exp.toInt := by
  obtain ⟨hexact, hnum⟩ := exactProduct_of_valid hA hB htA htB
  have hpos : 0 < |valOf A * valOf B| := hexact.toRat ▸ Frac.toRat_pos (Nat.pos_of_ne_zero hnum) hexact.den_pos
  rw [compute_mul_of_valid htA htB, computeFinite_of_num_ne_zero cw hnum, round_kinds_getLsbD_3] at hOE
  have hlog := le_log_of_overflows (Nat.pos_of_ne_zero hnum) hexact.den_pos hOE
  rw [hexact.toRat] at hlog
  have hlt := (Int.lt_zpow_iff_log_lt one_lt_two hpos).mp
    (by exact_mod_cast (abs_product_bounds hA hB htA htB).2)
  omega

theorem exp_add_exp_le_of_tiny (h : |valOf A * valOf B| < 2 ^ (-16382 : ℤ)) : A.exp.toInt + B.exp.toInt ≤ -16383 := by
  have := (zpow_lt_zpow_iff_right₀ one_lt_two).mp ((abs_product_bounds hA hB htA htB).1.trans_lt h)
  omega

end Valid

/-- Settles O36: the stages are symmetric, and the product of two Valid operands is within two binades. -/
theorem multiplyLaws : Obligations.MultiplyLaws :=
  ⟨fun cw _ _ hA hB => compute_mul_comm cw hA hB, fun cw _ _ hA hB htA htB =>
    ⟨compute_mul_sign_of_valid hA hB htA htB cw, le_exp_add_exp_of_overflow hA hB htA htB,
      exp_add_exp_le_of_tiny hA hB htA htB⟩⟩

end Sys2Proof.Machine
end

section
/-! Divide (spec/44_div.md R235 to R244): every divide command completes with the result of the table of R243, and the
laws of the quotient (R244), read off that table and the rounding rule. -/

namespace Sys2Proof.Machine

/-! ### Completion (R243) -/

/-- Settles O30: what every arithmetic command does, for the rows of DIV. -/
theorem divideCompletes : Obligations.DivideCompletes := fun _ _ _ _ _ hr _ h hmasked =>
  exec_eq_finishWith hr h hmasked

/-! ### Rounding a power of two -/

/-- A normal power of two is a Valid value with the leading bit alone in its significand (R170). -/
theorem ruleMake_zpow (s : Bool) {e : ℤ} (he : -16382 ≤ e) :
    ruleMake s (2 ^ e) = { sign := s, tag := .valid, exp := expField e, sig := 0x8000000000000000 } := by
  have hgrid : Config.gridExp ≤ e := le_trans (by decide) he
  have hlog : ((1 : ℕ).log2 : ℤ) + e = e := zero_add e
  have hnormal : ¬ e < Config.emin := not_lt.mpr he
  have hmake := makeValue_eq_ruleMake s 1 hgrid
  rw [Nat.cast_one, one_mul] at hmake
  rw [← hmake, makeValue, if_neg one_ne_zero]
  dsimp only
  rw [hlog, if_neg hnormal]
  rfl

/-- A power of two on the fixed grid is a multiple of its unit in the last place (R165). -/
theorem zpow_multiple_of_ruleUlp (cw : ControlWord) {e : ℤ} (he : -16445 ≤ e) :
    ∃ n : ℤ, (2 : ℚ) ^ e = n * 2 ^ ruleUlp cw (2 ^ e) := by
  have hlog : Int.log 2 ((2 : ℚ) ^ e) = e := Int.log_zpow one_lt_two e
  have hp : 1 ≤ cw.pc.bits := by cases cw.pc <;> decide
  have hulp : ruleUlp cw (2 ^ e) ≤ e := by
    rw [ruleUlp, hlog]
    omega
  refine ⟨2 ^ (e - ruleUlp cw (2 ^ e)).toNat, ?_⟩
  rw [Int.cast_pow, Int.cast_two, ← zpow_natCast, Int.toNat_of_nonneg (sub_nonneg.mpr hulp), ← zpow_add₀ two_ne_zero,
    sub_add_cancel]

/-- A normal power of two is delivered as it is, with no kind, in every mode and precision (R171). -/
theorem ruleRound_zpow (cw : ControlWord) (s : Bool) {e : ℤ} (hmin : -16382 ≤ e) (hmax : e ≤ 16383) :
    ruleRound false cw s (2 ^ e) =
      { kinds := 0
        value := { sign := s, tag := .valid, exp := expField e, sig := 0x8000000000000000 }
        roundup := false } := by
  have hfits : ¬ (2 : ℚ) ^ (16384 : ℤ) ≤ 2 ^ e := not_le.mpr (zpow_lt_zpow_right₀ one_lt_two (by omega))
  have hnormal : ¬ (2 : ℚ) ^ e < 2 ^ (-16382 : ℤ) := not_lt.mpr (zpow_le_zpow_right₀ one_le_two hmin)
  have hexact := ruleRounding_of_multiple s (zpow_multiple_of_ruleUlp cw (e := e) (by omega))
  simp only [ruleRound, hexact, if_neg hfits, decide_eq_false hnormal, ruleMake_zpow s hmin, Bool.false_and,
    Bool.false_or]
  rfl

/-! ### Quotients of Valid operands (R244) -/

/-- Equal significands cancel, and the quotient is the power of two of the exponents' difference. -/
theorem abs_quotient_of_sig_eq {A B : FpuValue} (hA : A.tag ≠ .zero) (hB : B.tag ≠ .zero) (hsig : A.sig = B.sig)
    (hne : B.sig.toNat ≠ 0) : |valOf A / valOf B| = 2 ^ (A.exp.toInt - B.exp.toInt) := by
  have hexp : A.exp.toInt - 63 - (B.exp.toInt - 63) = A.exp.toInt - B.exp.toInt := sub_sub_sub_cancel_right ..
  rw [abs_div, abs_valOf hA, abs_valOf hB, hsig, mul_div_mul_left _ _ (Nat.cast_ne_zero.mpr hne),
    ← zpow_sub₀ two_ne_zero, hexp]

/-- A difference of exponents that fits the field is the difference of the fields. -/
theorem expField_sub {a b : BitVec 16} (hmin : -32768 ≤ a.toInt - b.toInt) (hmax : a.toInt - b.toInt < 32768) :
    expField (a.toInt - b.toInt) = a - b :=
  BitVec.eq_of_toInt_eq (by
    rw [expField_toInt hmin hmax, BitVec.toInt_sub]
    exact (Int.bmod_eq_of_le hmin hmax).symm)

section Valid

variable {A B : FpuValue} (hA : A.wf = true) (hB : B.wf = true) (htA : A.tag = .valid) (htB : B.tag = .valid)
include hA hB htA htB

/-- Valid operands are divided exactly and the quotient is rounded (R242). -/
theorem compute_div_of_valid (cw : ControlWord) :
    compute .div cw A B = (ruleRounded cw A B (valOf A / valOf B)).toComputed := by
  have hvA := valOf_ne_zero (FpuValue.usable_of_wf hA) (.inl htA)
  have hvB := valOf_ne_zero (FpuValue.usable_of_wf hB) (.inl htB)
  rw [compute_of_not_settled cw (by rw [htA]; nofun) (by rw [htB]; nofun) (by simp [Settled, htA, htB])]
  exact computeFinite_of_exact_ne_zero cw (exactQuotient_is hvA hvB) (div_ne_zero hvA hvB)

/-- Operands of equal significand divide to a power of two without a kind, if it is in range. -/
theorem compute_div_of_sig_eq (cw : ControlWord) (hsig : A.sig = B.sig)
    (hmin : -16382 ≤ A.exp.toInt - B.exp.toInt) (hmax : A.exp.toInt - B.exp.toInt ≤ 16383) :
    compute .div cw A B =
      { first := 0, second := 0, roundup := false
        value := { sign := xorSign A B, tag := .valid, exp := A.exp - B.exp, sig := 0x8000000000000000 } } := by
  have hvA := valOf_ne_zero (FpuValue.usable_of_wf hA) (.inl htA)
  have hvB := valOf_ne_zero (FpuValue.usable_of_wf hB) (.inl htB)
  have hDE : ruleDE A B = 0 := by simp only [ruleDE, htA, htB, reduceCtorEq, or_self, if_false]
  have hsigB : B.sig.toNat ≠ 0 := by
    have := ((FpuValue.wf_valid_iff htB).mp hB).1
    omega
  have hquot := abs_quotient_of_sig_eq (by rw [htA]; nofun) (by rw [htB]; nofun) hsig hsigB
  rw [compute_div_of_valid hA hB htA htB, ruleRounded, ruleRoundSigned, hquot, ← (xorSign_eq hvA hvB).2,
    ruleRound_zpow cw _ hmin hmax, hDE, expField_sub (by omega) (by omega)]
  rfl

end Valid

theorem valOf_validOf (e : ℤ) (sig : BitVec 64) :
    valOf (validOf e sig) = 1 * sig.toNat * 2 ^ ((expField e).toInt - 63) := rfl

/-- The constant 1.0 (47_constants.md R320). -/
theorem valOf_one : valOf (validOf 0 0x8000000000000000) = 1 := by
  have hexp : (expField 0).toInt - 63 = -63 := by decide
  have hsig : (0x8000000000000000 : BitVec 64).toNat = 2 ^ 63 := by decide
  rw [valOf_validOf, hexp, hsig]
  norm_num

/-- Division by 1.0 rounds the dividend. -/
theorem compute_div_one (cw : ControlWord) {A : FpuValue} (hA : A.wf = true) (htA : A.tag = .valid) :
    compute .div cw A (validOf 0 0x8000000000000000) =
      (ruleRounded cw A (validOf 0 0x8000000000000000) (valOf A)).toComputed := by
  rw [compute_div_of_valid hA (by decide) htA rfl, valOf_one, div_one]

/-! ### Division by Zero (R244) -/

/-- The set of a second signal that has ZE is ZE alone (R178). -/
theorem compute_second_eq_kZE (op : ArithOp) (cw : ControlWord) (A B : FpuValue)
    (h : (compute op cw A B).second.getLsbD 2 = true) : (compute op cw A B).second = kZE := by
  have hsets : ∀ K ∈ [0, kZE, kOE ||| kPE, kUE ||| kPE, kUE, kPE], K.getLsbD 2 = true → K = kZE := by decide
  exact hsets _ (exceptionOrder op cw A B).2.1 h

/-- Settles O37: the quotients of Valid operands, the sets of R178 for ZE, and the operand form of each command. -/
theorem divideLaws : Obligations.DivideLaws := by
  refine ⟨fun cw A B hA hB htA htB => compute_div_of_sig_eq hA hB htA htB cw, fun cw A hA htA => ?_,
    compute_second_eq_kZE .div, fun n s h0 hn => ⟨?_, ?_⟩⟩
  · rw [compute_div_one cw hA htA]
    exact ⟨rfl, rfl⟩
  · exact congrArg Host.Outcome.next (arith_formStSti h0 hn .div true)
  · exact congrArg Host.Outcome.next (arith_formStSti h0 hn .div false)

end Sys2Proof.Machine
end

section
/-! The logarithm commands (spec/45_log2.md R262, R266, R272): what they compute from a usable argument, an Empty one
included, is what the numbered tests say, so both complete and fault as the rules' results do. -/

namespace Sys2Proof.Machine

/-! ### The screening of a Valid or Denormal argument -/

theorem denormalArg_eq_ruleDE (X : FpuValue) : denormalArg X = ruleDE X X := by
  rw [← denormalKinds_eq_ruleDE, denormalKinds, Bool.or_self]
  rfl

theorem valOf_pos_of_not_sign {X : FpuValue} (hx : valOf X ≠ 0) (hs : ¬ X.sign = true) : 0 < valOf X :=
  lt_of_le_of_ne (not_lt.mp (mt (valOf_neg_iff hx).mp hs)) hx.symm

section Finite

variable {X : FpuValue} (ht : X.tag = .valid ∨ X.tag = .denormal)
include ht

theorem ruleLog2_of_finite (cw : ControlWord) :
    ruleLog2 cw X = if X.sign then ruleInvalid
      else if valOf X = 1 then ruleExact X X (zeroOf false) else ruleEngine cw X (pL2 (valOf X)) := by
  rcases ht with ht | ht <;> simp only [ruleLog2, ht]

theorem ruleLog2p1_of_finite (cw : ControlWord) :
    ruleLog2p1 cw X = if valOf X < -1 then ruleInvalid
      else if valOf X = -1 then { first := ruleDE X X, second := kZE, value := infOf true, c1 := false }
      else ruleEngine cw X (pL2P1 (valOf X)) := by
  rcases ht with ht | ht <;> simp only [ruleLog2p1, ht]

variable (hx : valOf X ≠ 0)
include hx

/-- The screening's test for 1 is made on the magnitude; a negative argument has been sorted out before (R262). -/
theorem screenL2_of_finite :
    screenL2 X = if X.sign then .settled kIE 0 indef
      else if valOf X = 1 then .settled (ruleDE X X) 0 (zeroOf false)
      else .ordinary (ruleDE X X) (valOf X) := by
  have hscreen : screenL2 X = if X.sign then .settled kIE 0 indef
      else if (magOf X).isOne then .settled (denormalArg X) 0 (zeroOf false)
      else .ordinary (denormalArg X) (signedRat X) := by
    rcases ht with ht | ht <;> simp [screenL2, ht]
  rw [hscreen, signedRat_eq_valOf, denormalArg_eq_ruleDE]
  by_cases hs : X.sign = true
  · rw [if_pos hs, if_pos hs]
  · have hone : (magOf X).isOne = true ↔ valOf X = 1 := by
      rw [Frac.isOne_iff (magOf_den_pos X), ← abs_valOf_eq_magOf, abs_of_pos (valOf_pos_of_not_sign hx hs)]
    simp only [hone]

/-- The screening's tests against -1 are made on the sign and the magnitude (R272). -/
theorem screenL2P1_of_finite :
    screenL2P1 X = if valOf X < -1 then .settled kIE 0 indef
      else if valOf X = -1 then .settled (ruleDE X X) kZE (infOf true)
      else .ordinary (ruleDE X X) (valOf X) := by
  have hscreen : screenL2P1 X = if (X.sign && (magOf X).aboveOne) = true then .settled kIE 0 indef
      else if (X.sign && (magOf X).isOne) = true then .settled (denormalArg X) kZE (infOf true)
      else .ordinary (denormalArg X) (signedRat X) := by
    rcases ht with ht | ht <;> simp [screenL2P1, ht]
  have habove : (X.sign && (magOf X).aboveOne) = true ↔ valOf X < -1 := by
    rw [Bool.and_eq_true, ← valOf_neg_iff hx, Frac.aboveOne_iff (magOf_den_pos X), ← abs_valOf_eq_magOf, lt_abs]
    constructor
    · rintro ⟨hneg, h | h⟩ <;> linarith
    · exact fun h => ⟨by linarith, .inr (by linarith)⟩
  have hone : (X.sign && (magOf X).isOne) = true ↔ valOf X = -1 := by
    rw [Bool.and_eq_true, ← valOf_neg_iff hx, Frac.isOne_iff (magOf_den_pos X), ← abs_valOf_eq_magOf,
      abs_eq zero_le_one]
    constructor
    · rintro ⟨hneg, h | h⟩ <;> linarith
    · exact fun h => ⟨by linarith, .inr h⟩
  simp only [hscreen, habove, hone, signedRat_eq_valOf, denormalArg_eq_ruleDE]

end Finite

/-! ### What the commands compute from a non-Empty argument -/

/-- The engine's rounding of a value that is not zero is the rule's (R266). -/
theorem roundT_ratMag (cw : ControlWord) {y : ℚ} (hy : y ≠ 0) :
    roundT cw (decide (y < 0)) (ratMag y) = ruleRound true cw (decide (y < 0)) |y| := by
  rw [roundT_eq_rule cw _ (Int.natAbs_pos.mpr (Rat.num_ne_zero.mpr hy)) y.den_pos, ratMag_toRat]

theorem logComputed_of_ordinary {screen : FpuValue → Screened} {engine : Rat → Rat} {X : FpuValue}
    (h : screen X = .ordinary (ruleDE X X) (valOf X)) (cw : ControlWord) (hy : engine (valOf X) ≠ 0) :
    logComputed screen engine cw X = (ruleEngine cw X (engine (valOf X))).toComputed := by
  rw [logComputed_ordinary h, roundT_ratMag cw hy]
  rfl

/-- A NaN is delivered quiet by either screening (R262, R272). -/
theorem logComputed_of_nan {screen : FpuValue → Screened} {X : FpuValue} (ht : X.tag = .nan)
    (h : screen X = .settled (kindsIf X.signaling kIE) 0 X.quieted) (engine : Rat → Rat) (cw : ControlWord) :
    logComputed screen engine cw X = (ruleNaN X X).toComputed := by
  rw [logComputed_settled h, ← nanResult_eq_rule (.inl ht), nanResult, Bool.or_self, if_pos ht]

theorem logComputed_log2_of_finite (cw : ControlWord) {X : FpuValue} (ht : X.tag = .valid ∨ X.tag = .denormal)
    (hx : valOf X ≠ 0) : logComputed screenL2 pL2 cw X = (ruleLog2 cw X).toComputed := by
  have hrule := ruleLog2_of_finite ht cw
  have hscreen := screenL2_of_finite ht hx
  by_cases hs : X.sign = true
  · rw [if_pos hs] at hrule hscreen
    rw [hrule, logComputed_settled hscreen]
    rfl
  · rw [if_neg hs] at hrule hscreen
    by_cases h1 : valOf X = 1
    · rw [if_pos h1] at hrule hscreen
      rw [hrule, logComputed_settled hscreen]
      rfl
    · rw [if_neg h1] at hrule hscreen
      rw [hrule, logComputed_of_ordinary hscreen cw (pL2_ne_zero (valOf_pos_of_not_sign hx hs) h1)]

theorem logComputed_log2p1_of_finite (cw : ControlWord) {X : FpuValue} (ht : X.tag = .valid ∨ X.tag = .denormal)
    (hx : valOf X ≠ 0) : logComputed screenL2P1 pL2P1 cw X = (ruleLog2p1 cw X).toComputed := by
  have hrule := ruleLog2p1_of_finite ht cw
  have hscreen := screenL2P1_of_finite ht hx
  by_cases h1 : valOf X < -1
  · rw [if_pos h1] at hrule hscreen
    rw [hrule, logComputed_settled hscreen]
    rfl
  · rw [if_neg h1] at hrule hscreen
    by_cases h2 : valOf X = -1
    · rw [if_pos h2] at hrule hscreen
      rw [hrule, logComputed_settled hscreen]
      rfl
    · rw [if_neg h2] at hrule hscreen
      have hlt : -1 < valOf X := lt_of_le_of_ne (not_lt.mp h1) (Ne.symm h2)
      rw [hrule, logComputed_of_ordinary hscreen cw (pL2P1_ne_zero hlt hx)]

/-- FL2X computes what the numbered tests say of a usable argument (R262, tests 2 to 8). -/
theorem logComputed_log2_eq_rule (cw : ControlWord) {X : FpuValue} (hu : X.usable = true) (he : X.tag ≠ .empty) :
    logComputed screenL2 pL2 cw X = (ruleLog2 cw X).toComputed := by
  cases ht : X.tag with
  | valid => exact logComputed_log2_of_finite cw (.inl ht) (valOf_ne_zero hu (.inl ht))
  | denormal => exact logComputed_log2_of_finite cw (.inr ht) (valOf_ne_zero hu (.inr ht))
  | nan => simpa only [ruleLog2, ht] using logComputed_of_nan ht (by simp [screenL2, ht]) pL2 cw
  | zero => simp [logComputed, screenL2, ruleLog2, ht, RuleResult.toComputed]
  | infinity =>
    cases hs : X.sign <;>
      simp [logComputed, screenL2, ruleLog2, ht, hs, RuleResult.toComputed, ruleExact, ruleInvalid, ruleDE]
  | empty => exact absurd ht he

/-- FL2XP1 computes what the numbered tests say of a usable argument (R272, tests 2 to 8). -/
theorem logComputed_log2p1_eq_rule (cw : ControlWord) {X : FpuValue} (hu : X.usable = true) (he : X.tag ≠ .empty) :
    logComputed screenL2P1 pL2P1 cw X = (ruleLog2p1 cw X).toComputed := by
  cases ht : X.tag with
  | valid => exact logComputed_log2p1_of_finite cw (.inl ht) (valOf_ne_zero hu (.inl ht))
  | denormal => exact logComputed_log2p1_of_finite cw (.inr ht) (valOf_ne_zero hu (.inr ht))
  | nan => simpa only [ruleLog2p1, ht] using logComputed_of_nan ht (by simp [screenL2P1, ht]) pL2P1 cw
  | zero => simp [logComputed, screenL2P1, ruleLog2p1, ht, RuleResult.toComputed, ruleExact, ruleDE]
  | infinity =>
    cases hs : X.sign <;>
      simp [logComputed, screenL2P1, ruleLog2p1, ht, hs, RuleResult.toComputed, ruleExact, ruleInvalid, ruleDE]
  | empty => exact absurd ht he

/-! ### The commands -/

/-- A stack underflow that writes INDEF in place is a computed result with C1 set (R262 test 1; 60_exceptions.md
R349). -/
theorem stackUnderflow_eq_finishComputed (s : State) :
    stackUnderflow s (writeBack 0 indef false) =
      finishComputed { first := kSU ||| kIE, second := 0, value := indef, roundup := true } 0 false s := by
  simp only [stackUnderflow, finishComputed, signal_zero]

/-- A logarithm command delivers the result `R` that the rules give for its argument, Empty or not. -/
theorem logCommand_eq_finishComputed {screen : FpuValue → Screened} {engine : Rat → Rat} {s : State} {R : RuleResult}
    (hempty : (s.st 0).tag = .empty → R = { first := kSU ||| kIE, second := 0, value := indef, c1 := true })
    (hfull : (s.st 0).tag ≠ .empty → logComputed screen engine s.cw (s.st 0) = R.toComputed) :
    logCommand screen engine s = finishComputed R.toComputed 0 false s := by
  by_cases he : (s.st 0).tag = .empty
  · rw [logCommand_of_empty he, stackUnderflow_eq_finishComputed, hempty he]
    rfl
  · rw [logCommand_of_nonempty he, hfull he]

theorem exec_eq_finishComputed_of_ruleLog {i : Instr} {s : State} {R : RuleResult}
    (hR : ruleLog i s.cw (s.st 0) = some R) (hu : (s.st 0).usable = true) :
    exec i s = .next (finishComputed R.toComputed 0 false s) := by
  cases i with
  | fl2x =>
    cases hR
    refine congrArg Host.Outcome.next (logCommand_eq_finishComputed (fun he => ?_) (logComputed_log2_eq_rule s.cw hu))
    simp only [ruleLog2, he]
  | fl2xp1 =>
    cases hR
    refine congrArg Host.Outcome.next (logCommand_eq_finishComputed (fun he => ?_) (logComputed_log2p1_eq_rule s.cw hu))
    simp only [ruleLog2p1, he]
  | _ => cases hR

/-! ### The obligations -/

/-- A logarithm command completes with the rules' result where its kinds are masked. -/
theorem exec_eq_finishWith_of_ruleLog {i : Instr} {s : State} {R : RuleResult}
    (hR : ruleLog i s.cw (s.st 0) = some R) (hu : (s.st 0).usable = true)
    (hmasked : AllMasked s.cw (R.first ||| R.second)) : exec i s = .next (finishWith R 0 false s) := by
  rw [exec_eq_finishComputed_of_ruleLog hR hu, finishComputed_of_masked hmasked]

/-- Settles O46: the two words, and the result of the numbered tests delivered with its kinds masked. -/
theorem logarithmCompletes : Obligations.LogarithmCompletes :=
  ⟨by decide, by decide, fun _ _ _ => exec_eq_finishWith_of_ruleLog⟩

/-- Settles O47, by the two signals of the result of the numbered tests. -/
theorem logarithmFaults : Obligations.LogarithmFaults := fun i s R hR hu => by
  rw [exec_eq_finishComputed_of_ruleLog hR hu]
  exact ⟨fun hfirst => congrArg Host.Outcome.next (finishComputed_of_first_fault hfirst _ _),
    fun hfirst hsecond => congrArg Host.Outcome.next (finishComputed_of_second_fault hfirst hsecond _ _)⟩

end Sys2Proof.Machine
end

section
/-! The values of the logarithm engine over the reals (spec/45_log2.md R264, R270): whatever the free parameters are,
they have the sign of the logarithm and the accuracy that the spec states. -/

namespace Sys2Proof.Machine

/-! ### Approximating a logarithm -/

/-- `y` approximates `log2 z` with relative error at most `2^-k`, and has its sign (L2-SIGN, L2-ACC). -/
structure ApproximatesLog2 (k : ℕ) (z y : ℚ) : Prop where
  pos : 1 < z → 0 < y
  neg : z < 1 → y < 0
  accurate : |(y : ℝ) - Real.logb 2 z| ≤ 2 ^ (-k : ℤ) * |Real.logb 2 z|

/-- A value whose relative error is less than 1 has the sign of what it approximates. -/
theorem sign_of_abs_sub_le {y L ε : ℝ} (hε : ε < 1) (h : |y - L| ≤ ε * |L|) : (0 < L → 0 < y) ∧ (L < 0 → y < 0) := by
  rw [abs_le] at h
  refine ⟨fun hL => ?_, fun hL => ?_⟩
  · rw [abs_of_pos hL] at h
    nlinarith
  · rw [abs_of_neg hL] at h
    nlinarith

theorem closeToLog2_withinAccuracy {k : ℕ} (hk : 1 ≤ k) {z : ℚ} (hz : 0 < z) (h1 : z ≠ 1) (cand : ℚ) :
    closeToLog2 k z (withinAccuracy k hk z cand) = true := by
  rw [withinAccuracy, dif_pos ⟨hz, h1⟩]
  split
  · assumption
  · exact Encodable.choose_spec (exists_closeToLog2 k hk z hz h1)

/-- The value the model takes, the engine's candidate or another, approximates the logarithm. -/
theorem withinAccuracy_approximates {k : ℕ} (hk : 1 ≤ k) {z : ℚ} (hz : 0 < z) (h1 : z ≠ 1) (cand : ℚ) :
    ApproximatesLog2 k z (withinAccuracy k hk z cand) := by
  have haccurate := (closeToLog2_iff k hk z _ hz h1).mp (closeToLog2_withinAccuracy hk hz h1 cand)
  have hε : 1 / (2 : ℝ) ^ k < 1 := (div_lt_one (by positivity)).mpr (one_lt_pow₀ one_lt_two (by omega))
  obtain ⟨hpos, hneg⟩ := sign_of_abs_sub_le hε haccurate
  refine ⟨fun h => ?_, fun h => ?_, ?_⟩
  · exact_mod_cast hpos (Real.logb_pos one_lt_two (by exact_mod_cast h))
  · exact_mod_cast hneg (Real.logb_neg one_lt_two (by exact_mod_cast hz) (by exact_mod_cast h))
  · rwa [zpow_neg, zpow_natCast, ← one_div]

/-! ### `P_L2` and `P_L2P1` -/

theorem pL2_approximates {x : ℚ} (hx : 0 < x) (h1 : x ≠ 1) : ApproximatesLog2 63 x (pL2 x) :=
  withinAccuracy_approximates _ hx h1 _

/-- The model's exact comparison is the one with `3 - 2 sqrt 2` (R271). -/
theorem belowThreshold_iff (x : ℚ) : belowThreshold x = true ↔ |(x : ℝ)| < 3 - 2 * Real.sqrt 2 := by
  have hroot : 2 * Real.sqrt 2 = Real.sqrt 8 := by
    rw [show (8 : ℝ) = 2 ^ 2 * 2 by norm_num, Real.sqrt_mul (by norm_num), Real.sqrt_sq (by norm_num)]
  have hcast : (|x| < 3 ∧ 8 < (3 - |x|) * (3 - |x|)) ↔ |(x : ℝ)| < 3 ∧ 8 < (3 - |(x : ℝ)|) ^ 2 := by
    rw [sq]
    exact_mod_cast Iff.rfl
  rw [belowThreshold, Bool.and_eq_true, decide_eq_true_eq, decide_eq_true_eq, hcast, hroot, lt_sub_comm]
  constructor
  · rintro ⟨h3, h8⟩
    exact (Real.sqrt_lt' (by linarith)).mpr h8
  · intro h
    have h3 : 0 < 3 - |(x : ℝ)| := (Real.sqrt_nonneg 8).trans_lt h
    exact ⟨by linarith, (Real.sqrt_lt' h3).mp h⟩

theorem pL2P1_approximates {x : ℚ} (hx : -1 < x) (h0 : x ≠ 0) :
    ApproximatesLog2 (if belowThreshold x then 63 else 61) (1 + x) (pL2P1 x) := by
  have hpos : 0 < 1 + x := by linarith
  have hne : 1 + x ≠ 1 := fun h => h0 (by linarith)
  unfold pL2P1
  split
  · exact withinAccuracy_approximates _ hpos hne _
  · exact withinAccuracy_approximates _ hpos hne _

/-! ### The obligations -/

/-- Settles O43: `P_L2` is a value within the accuracy of 63 bits. -/
theorem polyL2Accuracy : Obligations.PolyL2Accuracy := fun _ hx h1 =>
  have h := pL2_approximates hx h1
  ⟨h.pos, h.neg, h.accurate⟩

/-- Settles O44, on each side of the threshold. -/
theorem polyL2P1Accuracy : Obligations.PolyL2P1Accuracy := fun x hx h0 => by
  have h := pL2P1_approximates hx h0
  have haccurate := h.accurate
  push_cast at haccurate
  refine ⟨fun hpos => h.pos (by linarith), fun hneg => h.neg (by linarith), fun hsmall => ?_, fun hlarge => ?_⟩
  · rwa [if_pos ((belowThreshold_iff x).mpr hsmall)] at haccurate
  · rwa [if_neg (mt (belowThreshold_iff x).mp (not_lt.mpr hlarge))] at haccurate

end Sys2Proof.Machine
end

section
/-! The first two steps of the logarithm engine (spec/45_log2.md R256, R257): range reduction about the square root of 2
and the substitution `(v - 1)/(v + 1)` on a grid of 64 significant bits. -/

namespace Sys2Proof.Machine

/-! ### Range reduction (R256) -/

theorem ratMag_ilog2 {x : ℚ} (hx : x ≠ 0) : (ratMag x).ilog2 = Int.log 2 |x| := by
  rw [Frac.ilog2_eq (Int.natAbs_pos.mpr (Rat.num_ne_zero.mpr hx)) x.den_pos, ratMag_toRat]

/-- A magnitude without its power of two lies in the first binade. -/
theorem div_zpow_log_bounds {m : ℚ} (hm : 0 < m) : 1 ≤ m / 2 ^ Int.log 2 m ∧ m / 2 ^ Int.log 2 m < 2 := by
  have hunit : (0 : ℚ) < 2 ^ Int.log 2 m := by positivity
  have hlow : (2 : ℚ) ^ Int.log 2 m ≤ m := by exact_mod_cast Int.zpow_log_le_self (b := 2) one_lt_two hm
  have hhigh : m < (2 : ℚ) ^ (Int.log 2 m + 1) := by exact_mod_cast Int.lt_zpow_succ_log_self (b := 2) one_lt_two m
  rw [one_le_div hunit, div_lt_iff₀ hunit, mul_comm]
  exact ⟨hlow, hhigh.trans_eq (zpow_add_one₀ two_ne_zero _)⟩

theorem log_eq_zero {m : ℚ} (hlow : 1 ≤ m) (hhigh : m < 2) : Int.log 2 m = 0 := by
  have hpos : 0 < m := by linarith
  have h0 := (Int.zpow_le_iff_le_log (b := 2) (x := 0) one_lt_two hpos).mp (by simpa using hlow)
  have h1 := (Int.lt_zpow_iff_log_lt (b := 2) (x := 1) one_lt_two hpos).mp (by simpa using hhigh)
  omega

/-- The two cases of step 1: the significand stands, or is halved because it exceeds the square root of 2. -/
structure Reduces (x : ℚ) (r : Reduced) : Prop where
  value : x = r.v * 2 ^ r.k
  interval : (r.k = Int.log 2 x ∧ 1 ≤ r.v ∧ (r.v : ℝ) ≤ Real.sqrt 2) ∨
    (r.k = Int.log 2 x + 1 ∧ Real.sqrt 2 / 2 < r.v ∧ r.v < 1)

/-- The model's comparison of squares is the comparison with the square root. -/
theorem two_lt_mul_self_iff {f : ℚ} (hf : 0 ≤ f) : 2 < f * f ↔ Real.sqrt 2 < f := by
  rw [Real.sqrt_lt (by norm_num) (by exact_mod_cast hf), sq]
  exact_mod_cast Iff.rfl

theorem rangeReduce_reduces {x : ℚ} (hx : 0 < x) : Reduces x (rangeReduce x) := by
  have hk : (ratMag x).ilog2 = Int.log 2 x := by rw [ratMag_ilog2 hx.ne', abs_of_pos hx]
  obtain ⟨hlow, hhigh⟩ := div_zpow_log_bounds hx
  have hunit : (2 : ℚ) ^ Int.log 2 x ≠ 0 := by positivity
  unfold rangeReduce
  rw [hk]
  dsimp only
  by_cases h : 2 < x / 2 ^ Int.log 2 x * (x / 2 ^ Int.log 2 x)
  · rw [if_pos h]
    have hroot := (two_lt_mul_self_iff (zero_le_one.trans hlow)).mp h
    refine ⟨?_, .inr ⟨rfl, ?_, by linarith⟩⟩
    · dsimp only
      rw [zpow_add_one₀ two_ne_zero]
      field_simp
    · push_cast at hroot ⊢
      linarith
  · rw [if_neg h]
    have hroot := mt (two_lt_mul_self_iff (zero_le_one.trans hlow)).mpr h
    exact ⟨(div_mul_cancel₀ x hunit).symm, .inl ⟨rfl, hlow, not_lt.mp hroot⟩⟩

theorem one_le_sqrt_two : 1 ≤ Real.sqrt 2 := Real.one_le_sqrt.mpr one_le_two

theorem sqrt_two_lt_two : Real.sqrt 2 < 2 := (Real.sqrt_lt' two_pos).mpr (by norm_num)

theorem logb_two_zpow (k : ℤ) : Real.logb 2 (2 ^ k) = k := by
  rw [← Real.rpow_intCast, Real.logb_rpow two_pos (by norm_num)]

section Reduces

variable {x : ℚ} {r : Reduced} (h : Reduces x r)
include h

/-- The working value lies about 1, within a factor of the square root of 2. -/
theorem Reduces.v_mem : (r.v : ℝ) ∈ Set.Icc (Real.sqrt 2 / 2) (Real.sqrt 2) := by
  have h1 := one_le_sqrt_two
  have h2 := sqrt_two_lt_two
  rcases h.interval with ⟨-, hlow, hhigh⟩ | ⟨-, hlow, hhigh⟩
  · have hlow' : (1 : ℝ) ≤ r.v := by exact_mod_cast hlow
    exact ⟨by linarith, hhigh⟩
  · have hhigh' : (r.v : ℝ) < 1 := by exact_mod_cast hhigh
    exact ⟨hlow.le, by linarith⟩

theorem Reduces.v_pos : 0 < r.v := by
  have hv : (0 : ℝ) < r.v := lt_of_lt_of_le (by positivity) h.v_mem.1
  exact_mod_cast hv

theorem Reduces.logb_eq : Real.logb 2 x = r.k + Real.logb 2 r.v := by
  have hv : (r.v : ℝ) ≠ 0 := by exact_mod_cast h.v_pos.ne'
  have hx : (x : ℝ) = r.v * 2 ^ r.k := by
    conv_lhs => rw [h.value]
    push_cast
    rfl
  rw [hx, Real.logb_mul hv (by positivity), logb_two_zpow, add_comm]

end Reduces

/-! ### The interval about 1 -/

theorem logb_two_sqrt_two : Real.logb 2 (Real.sqrt 2) = 1 / 2 := by
  rw [Real.sqrt_eq_rpow, Real.logb_rpow two_pos (by norm_num)]

section Interval

variable {v : ℝ} (h : v ∈ Set.Icc (Real.sqrt 2 / 2) (Real.sqrt 2))
include h

theorem abs_logb_le_half : |Real.logb 2 v| ≤ 1 / 2 := by
  have hroot : 0 < Real.sqrt 2 := by positivity
  have hv : 0 < v := lt_of_lt_of_le (by positivity) h.1
  have hhalf : Real.logb 2 (Real.sqrt 2 / 2) = -(1 / 2) := by
    rw [Real.logb_div hroot.ne' two_ne_zero, logb_two_sqrt_two, Real.logb_self_eq_one one_lt_two]
    norm_num
  rw [abs_le, ← hhalf, ← logb_two_sqrt_two]
  exact ⟨Real.logb_le_logb_of_le one_lt_two (by positivity) h.1, Real.logb_le_logb_of_le one_lt_two hv h.2⟩

theorem abs_substitution_le : |(v - 1) / (v + 1)| ≤ 3 - 2 * Real.sqrt 2 := by
  have hroot : Real.sqrt 2 * Real.sqrt 2 = 2 := Real.mul_self_sqrt zero_le_two
  have h1 := one_le_sqrt_two
  have h2 := sqrt_two_lt_two
  have hv : 0 < v + 1 := by linarith [h.1]
  rw [abs_le, le_div_iff₀ hv, div_le_iff₀ hv]
  constructor
  · nlinarith [h.1]
  · nlinarith [h.2]

end Interval

theorem substitution_inverse {v : ℚ} (hv : 0 < v) : (1 + (v - 1) / (v + 1)) / (1 - (v - 1) / (v + 1)) = v := by
  have hsum : v + 1 ≠ 0 := by linarith
  field_simp
  ring

/-! ### The engine's division (R257) -/

/-- Rounding in any mode errs by less than a unit in the last place. -/
theorem abs_ruleRounding_sub_lt (cw : ControlWord) (s : Bool) (m : ℚ) :
    |(ruleRounding cw s m).1 - m| < 2 ^ ruleUlp cw m := by
  have hunit : (0 : ℚ) < 2 ^ ruleUlp cw m := by positivity
  have hnonneg := gridRem_nonneg cw m
  have hlt := gridRem_lt_one cw m
  have hfactor : |(if (ruleRounding cw s m).2.2 then 1 else 0) - gridRem cw m| < 1 := by
    cases hup : (ruleRounding cw s m).2.2 with
    | false => simpa [abs_of_nonneg hnonneg] using hlt
    | true =>
      rw [ruleRounding_up, Bool.and_eq_true, decide_eq_true_eq] at hup
      have hpos : 0 < gridRem cw m := lt_of_le_of_ne hnonneg (Ne.symm hup.1)
      rw [if_pos rfl, abs_lt]
      constructor <;> linarith
  rw [ruleRounding_eq, add_sub_cancel_left, abs_mul, abs_of_pos hunit]
  exact (mul_lt_iff_lt_one_left hunit).mpr hfactor

/-- A quotient's significand, rounded to 64 bits as the engine's division does. -/
def engineSignificand (q : ℚ) : ℚ :=
  (ruleRounding engineControl (decide (q < 0)) (|q| / 2 ^ Int.log 2 |q|)).1

/-- The unit in the last place of a significand. -/
theorem ruleUlp_engineControl {q : ℚ} (h : q ≠ 0) : ruleUlp engineControl (|q| / 2 ^ Int.log 2 |q|) = -63 := by
  obtain ⟨hlow, hhigh⟩ := div_zpow_log_bounds (abs_pos.mpr h)
  rw [ruleUlp, log_eq_zero hlow hhigh]
  rfl

theorem engineSignificand_on_grid {q : ℚ} (h : q ≠ 0) : ∃ n : ℤ, engineSignificand q = n * 2 ^ (-63 : ℤ) := by
  rw [engineSignificand, ruleRounding_magnitude, ruleUlp_engineControl h]
  exact ⟨⌊|q| / 2 ^ Int.log 2 |q| / 2 ^ (-63 : ℤ)⌋ + if _ then 1 else 0, by push_cast; rfl⟩

theorem abs_engineSignificand_sub_lt {q : ℚ} (h : q ≠ 0) :
    |engineSignificand q - |q| / 2 ^ (Int.log 2 |q|)| < 2 ^ (-63 : ℤ) := by
  have herr := abs_ruleRounding_sub_lt engineControl (decide (q < 0)) (|q| / 2 ^ Int.log 2 |q|)
  rwa [ruleUlp_engineControl h] at herr

section FullDivide

variable {a b : ℚ} (h : a / b ≠ 0)
include h

/-- The division rounds the quotient's significand and puts sign and exponent back. -/
theorem fullDivide_eq :
    fullDivide a b = SignType.sign (a / b) * engineSignificand (a / b) * 2 ^ Int.log 2 |a / b| := by
  obtain ⟨hlow, hhigh⟩ := div_zpow_log_bounds (abs_pos.mpr h)
  have hmag : ((ratMag (a / b)).scale (Int.log 2 |a / b|)).toRat = |a / b| / 2 ^ Int.log 2 |a / b| := by
    rw [Frac.scale_toRat, ratMag_toRat]
  have hn : 0 < ((ratMag (a / b)).scale (Int.log 2 |a / b|)).num :=
    Frac.scale_num_pos (m := ratMag (a / b)) (Int.natAbs_pos.mpr (Rat.num_ne_zero.mpr h)) _
  have hd : 0 < ((ratMag (a / b)).scale (Int.log 2 |a / b|)).den :=
    Frac.scale_den_pos (m := ratMag (a / b)) (a / b).den_pos _
  have ho : (roundGrid engineControl (decide (a / b < 0))
      ((ratMag (a / b)).scale (Int.log 2 |a / b|))).overflows = false := by
    refine Bool.not_eq_true _ ▸ fun ho => ?_
    have hlog := le_log_of_overflows hn hd ho
    rw [hmag, log_eq_zero hlow hhigh] at hlog
    omega
  rw [fullDivide_of_ne_zero h, ratMag_ilog2 h, signedRat_eq_valOf, round, valOf_deliver _ _ hn hd ho, hmag,
    ← engineSignificand]
  rcases lt_or_gt_of_ne h with hneg | hpos
  · simp [hneg]
  · simp [hpos, hpos.not_gt]

/-- The quotient lies on the grid of 64 significant bits. -/
theorem fullDivide_on_grid : ∃ n : ℤ, fullDivide a b = n * 2 ^ (Int.log 2 |a / b| - 63) := by
  obtain ⟨n, hn⟩ := engineSignificand_on_grid h
  refine ⟨SignType.sign (a / b) * n, ?_⟩
  rw [fullDivide_eq h, hn, sub_eq_neg_add _ (63 : ℤ), zpow_add₀ two_ne_zero]
  push_cast
  ring

/-- The division errs by less than a unit in the last place. -/
theorem abs_fullDivide_sub_lt : |fullDivide a b - a / b| < 2 ^ (Int.log 2 |a / b| - 63) := by
  have hunit : (0 : ℚ) < 2 ^ Int.log 2 |a / b| := by positivity
  have hsign : |(SignType.sign (a / b) : ℚ)| = 1 := by
    rcases lt_or_gt_of_ne h with hneg | hpos
    · simp [hneg]
    · simp [hpos]
  have hexact : a / b = SignType.sign (a / b) * (|a / b| / 2 ^ Int.log 2 |a / b|) * 2 ^ Int.log 2 |a / b| := by
    rw [mul_assoc, div_mul_cancel₀ _ hunit.ne', sign_mul_abs]
  have herror : fullDivide a b - a / b = SignType.sign (a / b) *
      (engineSignificand (a / b) - |a / b| / 2 ^ Int.log 2 |a / b|) * 2 ^ Int.log 2 |a / b| := by
    rw [mul_sub, sub_mul, ← fullDivide_eq h, ← hexact]
  rw [herror, abs_mul, abs_mul, hsign, one_mul, abs_of_pos hunit, sub_eq_neg_add _ (63 : ℤ),
    zpow_add₀ two_ne_zero]
  exact mul_lt_mul_of_pos_right (abs_engineSignificand_sub_lt h) hunit

/-- The quotient is at least a unit, so the division keeps its sign. -/
theorem fullDivide_pos_iff : 0 < fullDivide a b ↔ 0 < a / b := by
  have herr := abs_lt.mp (abs_fullDivide_sub_lt h)
  have hunit : (2 : ℚ) ^ (Int.log 2 |a / b| - 63) ≤ |a / b| := calc
    (2 : ℚ) ^ (Int.log 2 |a / b| - 63) ≤ 2 ^ Int.log 2 |a / b| := zpow_le_zpow_right₀ one_le_two (by omega)
    _ ≤ |a / b| := by exact_mod_cast Int.zpow_log_le_self (b := 2) one_lt_two (abs_pos.mpr h)
  rcases lt_or_gt_of_ne h with hneg | hpos
  · rw [abs_of_neg hneg] at herr hunit
    constructor <;> intro <;> linarith
  · rw [abs_of_pos hpos] at herr hunit
    constructor <;> intro <;> linarith

end FullDivide

/-! ### The obligation -/

/-- The exponent contribution outweighs the rest of the logarithm, so it decides the sign (R260). -/
theorem pL2_sign_of_exponent {x : ℚ} (hx : 0 < x) {r : Reduced} (h : Reduces x r) :
    (0 < r.k → 0 < pL2 x) ∧ (r.k < 0 → pL2 x < 0) := by
  have hx' : (0 : ℝ) < x := by exact_mod_cast hx
  obtain ⟨hlow, hhigh⟩ := abs_le.mp (abs_logb_le_half h.v_mem)
  refine ⟨fun hk => ?_, fun hk => ?_⟩
  · have hk' : (1 : ℝ) ≤ r.k := by exact_mod_cast hk
    have hlog : 0 < Real.logb 2 x := by rw [h.logb_eq]; linarith
    have h1 : 1 < x := by exact_mod_cast (Real.logb_pos_iff one_lt_two hx').mp hlog
    exact (pL2_approximates hx h1.ne').pos h1
  · have hk' : (r.k : ℝ) ≤ -1 := by exact_mod_cast Int.le_sub_one_of_lt hk
    have hlog : Real.logb 2 x < 0 := by rw [h.logb_eq]; linarith
    have h1 : x < 1 := by exact_mod_cast (Real.logb_neg_iff one_lt_two hx').mp hlog
    exact (pL2_approximates hx h1.ne).neg h1

/-- Settles O45: the reduced argument lies about 1, and the engine's division rounds the exact quotient. -/
theorem rangeReduction : Obligations.RangeReduction := fun x hx => by
  have h := rangeReduce_reduces hx
  obtain ⟨hpos, hneg⟩ := pL2_sign_of_exponent hx h
  refine ⟨h.value, abs_logb_le_half h.v_mem, h.interval, h.logb_eq, ?_, substitution_inverse h.v_pos, fun hq => ?_,
    fun hq => ⟨fullDivide_pos_iff hq, fullDivide_on_grid hq, abs_fullDivide_sub_lt hq⟩, hpos, hneg⟩
  · push_cast
    exact abs_substitution_le h.v_mem
  · exact if_pos hq

end Sys2Proof.Machine
end

section
/-! What holds of FL2X and FL2XP1 whatever the engine's values are (spec/45_log2.md R275). -/

namespace Sys2Proof.Machine

/-! ### The logarithm of a representable argument -/

section NearOne

variable {X : FpuValue} (hwf : X.wf = true) (ht : X.tag = .valid ∨ X.tag = .denormal) (hpos : 0 < valOf X)
include ht hpos

theorem valOf_of_pos : valOf X = X.sig.toNat * 2 ^ (X.exp.toInt - 63) := by
  rw [← abs_valOf (by rcases ht with ht | ht <;> rw [ht] <;> nofun), abs_of_pos hpos]

/-- Below 1 the significand has at most 64 bits. -/
theorem valOf_le_of_exp_neg (he : X.exp.toInt < 0) : valOf X ≤ 1 - 2 ^ (-64 : ℤ) := by
  have hsig : (X.sig.toNat : ℚ) ≤ 2 ^ 64 - 1 := by
    rw [le_sub_iff_add_le]
    exact_mod_cast X.sig.isLt
  have hunit : (2 : ℚ) ^ (X.exp.toInt - 63) ≤ 2 ^ (-64 : ℤ) := zpow_le_zpow_right₀ one_le_two (by omega)
  calc valOf X = X.sig.toNat * 2 ^ (X.exp.toInt - 63) := valOf_of_pos ht hpos
    _ ≤ (2 ^ 64 - 1) * 2 ^ (-64 : ℤ) := mul_le_mul hsig hunit (by positivity) (by norm_num)
    _ = 1 - 2 ^ (-64 : ℤ) := by norm_num

include hwf

/-- From 1 on a value is Valid, and the first one after 1 is a unit above it. -/
theorem le_valOf_of_exp_nonneg (he : 0 ≤ X.exp.toInt) (h1 : valOf X ≠ 1) : 1 + 2 ^ (-63 : ℤ) ≤ valOf X := by
  have hval := valOf_of_pos ht hpos
  have hvalid : X.tag = .valid := ht.resolve_right fun hd => by
    have := ((FpuValue.wf_denormal_iff hd).mp hwf).1
    omega
  have hsig : 2 ^ 63 ≤ X.sig.toNat := ((FpuValue.wf_valid_iff hvalid).mp hwf).1
  rcases he.eq_or_lt with he | he
  · rw [hval, ← he] at h1 ⊢
    have hne : X.sig.toNat ≠ 2 ^ 63 := fun e => h1 (by rw [e]; norm_num)
    have hnext : (2 : ℚ) ^ 63 + 1 ≤ X.sig.toNat := by exact_mod_cast lt_of_le_of_ne hsig hne.symm
    calc (1 : ℚ) + 2 ^ (-63 : ℤ) = (2 ^ 63 + 1) * 2 ^ (0 - 63 : ℤ) := by norm_num
      _ ≤ _ := mul_le_mul_of_nonneg_right hnext (by positivity)
  · have hunit : (2 : ℚ) ^ (-62 : ℤ) ≤ 2 ^ (X.exp.toInt - 63) := zpow_le_zpow_right₀ one_le_two (by omega)
    calc (1 : ℚ) + 2 ^ (-63 : ℤ) ≤ 2 ^ 63 * 2 ^ (-62 : ℤ) := by norm_num
      _ ≤ valOf X := hval ▸ mul_le_mul (by exact_mod_cast hsig) hunit (by positivity) (by positivity)

/-- No representable value other than 1 is closer to 1 than the unit below it. -/
theorem abs_valOf_sub_one_ge (h1 : valOf X ≠ 1) : (2 : ℚ) ^ (-64 : ℤ) ≤ |valOf X - 1| := by
  rcases lt_or_ge X.exp.toInt 0 with hneg | hnonneg
  · have hbelow := valOf_le_of_exp_neg ht hpos hneg
    exact le_abs.mpr (.inr (by linarith))
  · have habove := le_valOf_of_exp_nonneg hwf ht hpos hnonneg h1
    have hunit : (2 : ℚ) ^ (-64 : ℤ) ≤ 2 ^ (-63 : ℤ) := by norm_num
    exact le_abs.mpr (.inl (by linarith))

end NearOne

/-- The range of the magnitudes of Valid and Denormal values (10_state.md R35). -/
theorem abs_valOf_range {X : FpuValue} (hwf : X.wf = true) (ht : X.tag = .valid ∨ X.tag = .denormal) :
    (2 : ℚ) ^ (-16445 : ℤ) ≤ |valOf X| ∧ |valOf X| ≤ 2 ^ (16384 : ℤ) := by
  rcases ht with ht | ht
  · obtain ⟨-, -, hlow, hhigh⟩ := valueRanges.1 X hwf ht
    refine ⟨le_trans (zpow_le_zpow_right₀ one_le_two (by norm_num)) hlow, hhigh.trans ?_⟩
    have hsplit : (2 : ℚ) ^ (16384 : ℤ) = 2 * 2 ^ (16383 : ℤ) := (zpow_one_add₀ two_ne_zero 16383)
    rw [hsplit]
    exact mul_le_mul_of_nonneg_right (by norm_num) (by positivity)
  · obtain ⟨k, hk1, hk63, hval⟩ := valueRanges.2.2 X hwf ht
    have hlow : (1 : ℚ) ≤ k := by exact_mod_cast hk1
    have hhigh : (k : ℚ) ≤ 2 ^ (63 : ℤ) := by exact_mod_cast hk63.le
    rw [hval]
    refine ⟨le_mul_of_one_le_left (by positivity) hlow, ?_⟩
    calc (k : ℚ) * 2 ^ (-16445 : ℤ) ≤ 2 ^ (63 : ℤ) * 2 ^ (-16445 : ℤ) :=
          mul_le_mul_of_nonneg_right hhigh (by positivity)
      _ = 2 ^ (63 + -16445 : ℤ) := (zpow_add₀ two_ne_zero _ _).symm
      _ ≤ 2 ^ (16384 : ℤ) := zpow_le_zpow_right₀ one_le_two (by norm_num)

theorem two_zpow_le_cast_iff (k : ℤ) (x : ℚ) : (2 : ℝ) ^ k ≤ (x : ℝ) ↔ (2 : ℚ) ^ k ≤ x := by
  rw [← Rat.cast_le (K := ℝ), Rat.cast_zpow, Rat.cast_ofNat]

/-- A number away from 1 has a logarithm away from 0. -/
theorem abs_logb_ge {x : ℝ} (hx : 0 < x) (h : 2 ^ (-64 : ℤ) ≤ |x - 1|) : 2 ^ (-65 : ℤ) ≤ |Real.logb 2 x| := by
  have hln : Real.log 2 < 1 := by linarith [Real.log_two_lt_d9]
  have hln0 : 0 < Real.log 2 := Real.log_pos one_lt_two
  have hnatural : |Real.log x| ≤ |Real.logb 2 x| := by
    rw [Real.logb, abs_div, abs_of_pos hln0]
    exact le_div_self (abs_nonneg _) hln0 hln.le
  refine le_trans ?_ hnatural
  rcases le_abs.mp h with habove | hbelow
  · have hinv : x⁻¹ ≤ 1 - 2 ^ (-65 : ℤ) := by
      rw [inv_le_iff_one_le_mul₀ hx]
      norm_num at habove ⊢
      linarith
    have hlog := Real.one_sub_inv_le_log_of_pos hx
    exact le_trans (by linarith) (hlog.trans (le_abs_self _))
  · have hlog := Real.log_le_sub_one_of_pos hx
    have hhalf : (2 : ℝ) ^ (-65 : ℤ) ≤ 2 ^ (-64 : ℤ) := by norm_num
    exact le_trans (by linarith) (neg_le_abs _)

theorem abs_logb_le {x : ℝ} (hlow : 2 ^ (-16445 : ℤ) ≤ x) (hhigh : x ≤ 2 ^ (16384 : ℤ)) :
    |Real.logb 2 x| ≤ 16445 := by
  have hx : 0 < x := lt_of_lt_of_le (by positivity) hlow
  have h1 := Real.logb_le_logb_of_le one_lt_two (by positivity) hlow
  have h2 := Real.logb_le_logb_of_le one_lt_two hx hhigh
  rw [logb_two_zpow] at h1 h2
  push_cast at h1 h2
  exact abs_le.mpr ⟨h1, by linarith⟩

/-- The magnitude of an approximated logarithm. -/
theorem ApproximatesLog2.abs_bounds {z y : ℚ} (h : ApproximatesLog2 63 z y)
    (hlow : 2 ^ (-65 : ℤ) ≤ |Real.logb 2 z|) (hhigh : |Real.logb 2 z| ≤ 16445) :
    2 ^ (-66 : ℤ) ≤ |y| ∧ |y| ≤ 16445 + 1 / 2 := by
  have hdiff := (abs_abs_sub_abs_le (y : ℝ) (Real.logb 2 z)).trans h.accurate
  rw [abs_le] at hdiff
  norm_num at hlow hdiff
  constructor
  · rw [← two_zpow_le_cast_iff, Rat.cast_abs]
    norm_num
    linarith
  · rw [← Rat.cast_le (K := ℝ), Rat.cast_abs]
    push_cast
    linarith

/-! ### Rounding a value of that size (R266) -/

/-- A unit in the last place of a normal magnitude, relative to it. -/
theorem two_zpow_ruleUlp_le (cw : ControlWord) {m : ℚ} (h : 2 ^ (-16382 : ℤ) ≤ m) :
    (2 : ℚ) ^ ruleUlp cw m ≤ m * 2 ^ (-23 : ℤ) := by
  have hm : 0 < m := lt_of_lt_of_le (by positivity) h
  have hlog : -16382 ≤ Int.log 2 m := (Int.zpow_le_iff_le_log one_lt_two hm).mp (by exact_mod_cast h)
  have hp : 24 ≤ cw.pc.bits := by cases cw.pc <;> decide
  have hself : (2 : ℚ) ^ Int.log 2 m ≤ m := by exact_mod_cast Int.zpow_log_le_self (b := 2) one_lt_two hm
  calc (2 : ℚ) ^ ruleUlp cw m ≤ 2 ^ (Int.log 2 m + -23) :=
        zpow_le_zpow_right₀ one_le_two (by unfold ruleUlp; omega)
    _ = 2 ^ Int.log 2 m * 2 ^ (-23 : ℤ) := zpow_add₀ two_ne_zero _ _
    _ ≤ m * 2 ^ (-23 : ℤ) := mul_le_mul_of_nonneg_right hself (by positivity)

theorem ruleRounding_bounds (cw : ControlWord) (s : Bool) {m : ℚ} (hlow : 2 ^ (-66 : ℤ) ≤ m)
    (hhigh : m ≤ 16445 + 1 / 2) :
    2 ^ (-67 : ℤ) ≤ (ruleRounding cw s m).1 ∧ (ruleRounding cw s m).1 < 16446 := by
  have herr := abs_lt.mp (abs_ruleRounding_sub_lt cw s m)
  have hulp := two_zpow_ruleUlp_le cw ((zpow_le_zpow_right₀ one_le_two (by norm_num)).trans hlow)
  norm_num at hlow hulp ⊢
  constructor <;> linarith

/-- `make` of a normal magnitude is Valid (R170). -/
theorem ruleMake_of_normal (s : Bool) {r : ℚ} (h : 2 ^ (-16382 : ℤ) ≤ r) :
    (ruleMake s r).tag = .valid ∧ (ruleMake s r).sign = s := by
  have hr : r ≠ 0 := (lt_of_lt_of_le (by positivity) h).ne'
  rw [ruleMake, if_neg hr, if_neg (not_lt.mpr h)]
  exact ⟨rfl, rfl⟩

/-- What `RoundT` makes of a value as large as a logarithm can be. -/
theorem ruleRound_of_bounds (cw : ControlWord) {y : ℚ} (hlow : 2 ^ (-66 : ℤ) ≤ |y|) (hhigh : |y| ≤ 16445 + 1 / 2) :
    (ruleRound true cw (decide (y < 0)) |y|).value.tag = .valid ∧
      (ruleRound true cw (decide (y < 0)) |y|).value.wf = true ∧
      ((ruleRound true cw (decide (y < 0)) |y|).value.sign = true ↔ y < 0) ∧
      |valOf (ruleRound true cw (decide (y < 0)) |y|).value| < 16446 := by
  have hy : y ≠ 0 := abs_pos.mp (lt_of_lt_of_le (by positivity) hlow)
  obtain ⟨hmin, hmax⟩ := ruleRounding_bounds cw (decide (y < 0)) hlow hhigh
  have hfits : (ruleRounding cw (decide (y < 0)) |y|).1 < 2 ^ (16384 : ℤ) :=
    hmax.trans (lt_of_lt_of_le (by norm_num) (zpow_le_zpow_right₀ one_le_two (by norm_num : (15 : ℤ) ≤ 16384)))
  have hnormal : (2 : ℚ) ^ (-16382 : ℤ) ≤ (ruleRounding cw (decide (y < 0)) |y|).1 :=
    le_trans (zpow_le_zpow_right₀ one_le_two (by norm_num)) hmin
  have hvalue : (ruleRound true cw (decide (y < 0)) |y|).value =
      ruleMake (decide (y < 0)) (ruleRounding cw (decide (y < 0)) |y|).1 := by
    simp only [ruleRound, if_neg (not_le.mpr hfits)]
  obtain ⟨htag, hsign⟩ := ruleMake_of_normal (decide (y < 0)) hnormal
  refine ⟨hvalue ▸ htag, ?_, by rw [hvalue, hsign, decide_eq_true_iff], ?_⟩
  · rw [← roundT_ratMag cw hy]
    exact roundT_value_wf _ _ _
  · have hn : 0 < (ratMag y).num := Int.natAbs_pos.mpr (Rat.num_ne_zero.mpr hy)
    have ho : (roundGrid cw (decide (y < 0)) (ratMag y)).overflows = false := by
      rw [← Bool.not_eq_true, Grid.overflows_iff, (roundGrid_follows cw _ hn y.den_pos).magnitude, ratMag_toRat]
      exact not_le.mpr hfits
    rw [← roundT_ratMag cw hy, roundT, valOf_deliver cw _ hn y.den_pos ho, ratMag_toRat, apply_ite abs, abs_neg,
      ite_self, abs_of_pos (lt_of_lt_of_le (by positivity) hmin)]
    exact hmax

/-- `RoundT` always raises PE (R266). -/
theorem ruleRound_always_inexact (cw : ControlWord) (s : Bool) (m : ℚ) :
    (ruleRound true cw s m).kinds.getLsbD 5 = true := by
  have hPE : ∀ b, (kindsIf b kUE ||| kindsIf true kPE).getLsbD 5 = true := by decide
  have hOE : (kOE ||| kPE).getLsbD 5 = true := by decide
  unfold ruleRound
  dsimp only
  split
  · exact hOE
  · exact hPE _

/-! ### FL2X of a positive finite argument -/

/-- A positive finite argument other than 1, which FL2X hands to the engine (R262, test 8). -/
structure EngineArgument (X : FpuValue) : Prop where
  wf : X.wf = true
  tag : X.tag = .valid ∨ X.tag = .denormal
  pos : 0 < valOf X
  ne_one : valOf X ≠ 1

theorem engineArgument_of_finite {X : FpuValue} (hwf : X.wf = true) (ht : FiniteTag X.tag) (hpos : 0 < valOf X)
    (h1 : valOf X ≠ 1) : EngineArgument X := by
  refine ⟨hwf, ?_, hpos, h1⟩
  rcases ht with hv | hd | hz
  · exact .inl hv
  · exact .inr hd
  · exact absurd (valOf_zero hz) hpos.ne'

namespace EngineArgument

variable {X : FpuValue} (h : EngineArgument X)
include h

theorem ruleLog_eq (cw : ControlWord) : ruleLog .fl2x cw X = some (ruleEngine cw X (pL2 (valOf X))) := by
  rw [ruleLog, ruleLog2_of_finite h.tag, if_neg (mt (valOf_neg_iff h.pos.ne').mpr h.pos.not_gt), if_neg h.ne_one]

theorem abs_pL2_bounds : 2 ^ (-66 : ℤ) ≤ |pL2 (valOf X)| ∧ |pL2 (valOf X)| ≤ 16445 + 1 / 2 := by
  obtain ⟨hlow, hhigh⟩ := abs_valOf_range h.wf h.tag
  rw [abs_of_pos h.pos] at hlow hhigh
  refine (pL2_approximates h.pos h.ne_one).abs_bounds (abs_logb_ge (by exact_mod_cast h.pos) ?_)
    (abs_logb_le ((two_zpow_le_cast_iff _ _).mpr hlow) (by exact_mod_cast hhigh))
  have hdistance := (two_zpow_le_cast_iff _ _).mpr (abs_valOf_sub_one_ge h.wf h.tag h.pos h.ne_one)
  push_cast at hdistance
  exact hdistance

theorem pL2_neg_iff : pL2 (valOf X) < 0 ↔ valOf X < 1 := by
  have happrox := pL2_approximates h.pos h.ne_one
  refine ⟨fun hneg => not_le.mp fun hle => ?_, happrox.neg⟩
  exact (happrox.pos (lt_of_le_of_ne hle h.ne_one.symm)).not_gt hneg

end EngineArgument

/-! ### How the commands end -/

/-- All that a logarithm command can do with a usable argument. -/
theorem exec_cases_of_ruleLog {i : Instr} {s t : State} {R : RuleResult} (hR : ruleLog i s.cw (s.st 0) = some R)
    (hu : (s.st 0).usable = true) (h : exec i s = .next t) :
    (¬ AllMasked s.cw R.first ∧ t = faulted R.first s) ∨
      t = faulted R.second { s with sticky := s.sticky ||| R.first } ∨ t = finishWith R 0 false s := by
  rw [exec_eq_finishComputed_of_ruleLog hR hu] at h
  cases h
  by_cases hfirst : AllMasked s.cw R.first
  · by_cases hsecond : AllMasked s.cw R.second
    · exact .inr (.inr (finishComputed_of_masked ((unmasked_or_eq_zero_iff _ _ _).mpr ⟨hfirst, hsecond⟩) 0 false))
    · exact .inr (.inl (finishComputed_of_second_fault hfirst hsecond 0 false))
  · exact .inl ⟨hfirst, finishComputed_of_first_fault hfirst 0 false⟩

theorem st_zero_finishWith (R : RuleResult) (s : State) : (finishWith R 0 false s).st 0 = R.value :=
  slot_setSlot_self _ _ _

/-- An exact result without a kind is written in place, and C1 cleared. -/
theorem exec_of_silent_ruleLog {i : Instr} {s : State} {v : FpuValue}
    (hR : ruleLog i s.cw (s.st 0) = some { first := 0, second := 0, value := v, c1 := false })
    (hu : (s.st 0).usable = true) :
    exec i s = .next (setSlot s.top v { s with c1 := false, resp := some (doneResponse 0) }) := by
  rw [exec_eq_finishWith_of_ruleLog hR hu (by simp [AllMasked])]
  simp [finishWith]

/-- Only an unmasked DE for a Denormal can end FL2X before the engine (R262, test 6). -/
theorem denormal_of_first_unmasked {cw : ControlWord} {X : FpuValue} (h : ¬ AllMasked cw (ruleDE X X)) :
    X.tag = .denormal ∧ cw.mask.getLsbD 1 = false := by
  have hmask : ∀ m : KindSet, ¬ kDE &&& ~~~m = 0 → m.getLsbD 1 = false := by decide
  by_cases ht : X.tag = .denormal
  · rw [ruleDE, if_pos (.inl ht)] at h
    exact ⟨ht, hmask _ h⟩
  · rw [ruleDE, if_neg (not_or.mpr ⟨ht, ht⟩)] at h
    exact absurd (unmasked_zero cw) h

/-- What the logarithm commands leave of the state (R275). -/
theorem logarithm_frame {i : Instr} {s t : State} {r : Response} (hi : i = .fl2x ∨ i = .fl2xp1)
    (h : exec i s = .next t) (hr : t.resp = some r) :
    t.top = s.top ∧ (∀ p, p ≠ s.top → t.slot p = s.slot p) ∧ t.cw = s.cw ∧ t.c0 = s.c0 ∧ t.c2 = s.c2 ∧ t.c3 = s.c3 ∧
      (r.status ≠ .done → t = { s with sticky := t.sticky, resp := t.resp }) := by
  have hends := exec_ends h
  have hframe := hends.frame_of_not_done hr
  have hfinit : i ≠ .finit := by rcases hi with rfl | rfl <;> nofun
  have hldcw : i ≠ .ldcw := by rcases hi with rfl | rfl <;> nofun
  have htop : topAfter i s.top = s.top := by rcases hi with rfl | rfl <;> rfl
  have hslot : ∀ p, mayWriteSlot i s p → p = s.top := by rcases hi with rfl | rfl <;> exact fun _ hp => hp
  obtain ⟨hc0, hc2, hc3⟩ := hends.c0_c2_c3_eq hfinit
  refine ⟨?_, fun p hp => slot_exec_of_not_mayWriteSlot h (mt (hslot p) hp), hends.cw_eq hfinit hldcw, hc0, hc2, hc3,
    hframe⟩
  by_cases hd : r.status = .done
  · rw [hends.top_eq_of_done hr hd, htop]
  · exact (congrArg State.top (hframe hd) :)

/-! ### The obligation -/

theorem fl2x_sets_PE {s t : State} (hX : EngineArgument (s.st 0)) (h : exec .fl2x s = .next t) :
    t.sticky.getLsbD 5 = true ∨ (s.st 0).tag = .denormal ∧ s.cw.mask.getLsbD 1 = false := by
  have hPE : (ruleEngine s.cw (s.st 0) (pL2 (valOf (s.st 0)))).second.getLsbD 5 = true :=
    ruleRound_always_inexact s.cw _ _
  rcases exec_cases_of_ruleLog (hX.ruleLog_eq s.cw) (FpuValue.usable_of_wf hX.wf) h with ⟨hfirst, -⟩ | rfl | rfl
  · exact .inr (denormal_of_first_unmasked hfirst)
  · exact .inl (by rw [faulted, BitVec.getLsbD_or, hPE, Bool.or_true])
  · refine .inl (?_ : (s.sticky ||| _ ||| _ : KindSet).getLsbD 5 = true)
    rw [BitVec.getLsbD_or, hPE, Bool.or_true]

theorem fl2x_result {s t : State} (hX : EngineArgument (s.st 0)) (h : exec .fl2x s = .next t)
    (hdone : t.resp = some (doneResponse 0)) :
    (t.st 0).tag = .valid ∧ (t.st 0).wf = true ∧ ((t.st 0).sign = true ↔ valOf (s.st 0) < 1) ∧
      |valOf (t.st 0)| < 16446 := by
  rcases exec_cases_of_ruleLog (hX.ruleLog_eq s.cw) (FpuValue.usable_of_wf hX.wf) h with ⟨-, rfl⟩ | rfl | rfl
  · cases hdone
  · cases hdone
  · obtain ⟨hlow, hhigh⟩ := hX.abs_pL2_bounds
    rw [st_zero_finishWith, ← hX.pL2_neg_iff]
    exact ruleRound_of_bounds s.cw hlow hhigh

/-- FL2X of the constant 1.0 is exact (R262, test 7). -/
theorem fl2x_one {s : State} (h : s.st 0 = validOf 0 0x8000000000000000) :
    exec .fl2x s = .next (setSlot s.top (zeroOf false) { s with c1 := false, resp := some (doneResponse 0) }) := by
  have hR : ruleLog .fl2x s.cw (s.st 0) = some { first := 0, second := 0, value := zeroOf false, c1 := false } := by
    rw [ruleLog, h, ruleLog2_of_finite (.inl rfl), if_neg (by decide), if_pos valOf_one]
    rfl
  exact exec_of_silent_ruleLog hR (by rw [h]; decide)

/-- FL2XP1 of a Zero is that Zero (R272, test 3). -/
theorem fl2xp1_zero {s : State} (h : (s.st 0).tag = .zero) :
    exec .fl2xp1 s =
      .next (setSlot s.top (zeroOf (s.st 0).sign) { s with c1 := false, resp := some (doneResponse 0) }) := by
  have hR : ruleLog .fl2xp1 s.cw (s.st 0) =
      some { first := 0, second := 0, value := zeroOf (s.st 0).sign, c1 := false } := by
    simp only [ruleLog, ruleLog2p1, h, ruleExact, ruleDE, reduceCtorEq, or_self, if_false]
  have hu : (s.st 0).usable = true := FpuValue.usable_of_wf (by simp only [FpuValue.wf, h])
  exact exec_of_silent_ruleLog hR hu

/-- Settles O48: the frame of both commands, the two results that need no engine, and the engine's results by the sign
and the accuracy of `P_L2`. -/
theorem logarithmProperties : Obligations.LogarithmProperties :=
  ⟨fun _ _ _ _ => logarithm_frame, fun _ _ hwf ht hpos h1 => fl2x_sets_PE (engineArgument_of_finite hwf ht hpos h1),
    fun _ _ hwf ht hpos h1 => fl2x_result (engineArgument_of_finite hwf ht hpos h1), fun _ => fl2x_one,
    fun _ => fl2xp1_zero⟩

end Sys2Proof.Machine
end

section
/-! Stack management, status and control (spec/46_stack_mgmt_aux.md): the exchange and the freeing of slots as rules
about the state, the status word and the control word bit by bit, and from them the next state of each command. -/

namespace Sys2Proof.Machine

/-! ### Rules about the slots -/

/-- Two states are the same when their slots read the same and the other fields agree. -/
theorem State.ext_slot {s t : State} (hslot : ∀ p, s.slot p = t.slot p) (hframe : { s with slots := t.slots } = t) :
    s = t := by
  rw [← hframe, ← slots_ext hslot]

theorem st_zero (s : State) : s.st 0 = s.slot s.top := by rw [st_eq, add_zero]

theorem phys_zero (s : State) : s.phys 0 = s.top := by rw [State.phys, add_zero]

/-- Emptying every tag of a stack that is Empty already changes nothing (R290). -/
theorem emptyAllTags_of_empty {s : State} (h : ∀ p, (s.slot p).tag = .empty) : emptyAllTags s = s :=
  State.ext_slot (fun p => by rw [slot_emptyAllTags, ← h p]) rfl

/-- What freeing a slot and a POP leave in each slot (R294). -/
theorem slot_popStack_emptyTag (a p : RegIdx) (s : State) :
    (popStack (emptyTag a s)).slot p = if p = a ∨ p = s.top then { s.slot p with tag := .empty } else s.slot p := by
  rw [slot_popStack, emptyTag_top, slot_emptyTag, slot_emptyTag]
  by_cases htop : p = s.top
  · subst htop
    by_cases ha : s.top = a
    · subst ha
      simp
    · simp [ha]
  · by_cases ha : p = a
    · subst ha
      simp [htop]
    · simp [ha, htop]

/-- Freeing the slot that a POP empties adds nothing (R294). -/
theorem popStack_emptyTag_top (s : State) : popStack (emptyTag s.top s) = popStack s := by
  refine State.ext_slot (fun p => ?_) rfl
  rw [slot_popStack_emptyTag, slot_popStack]
  by_cases hp : p = s.top
  · rw [if_pos (.inl hp), if_pos hp, hp]
  · rw [if_neg (not_or.mpr ⟨hp, hp⟩), if_neg hp]

section Exchange

variable (a b : RegIdx) (s : State)

theorem slot_swapSlots_left : (swapSlots a b s).slot a = s.slot b := by
  rw [slot_swapSlots]
  by_cases h : a = b
  · rw [if_pos h, h]
  · rw [if_neg h, if_pos rfl]

theorem slot_swapSlots_right : (swapSlots a b s).slot b = s.slot a := by rw [slot_swapSlots, if_pos rfl]

/-- The literal exchange is its own inverse (R292). -/
theorem swapSlots_swapSlots : swapSlots a b (swapSlots a b s) = s := by
  refine State.ext_slot (fun p => ?_) rfl
  rw [slot_swapSlots, slot_swapSlots_left, slot_swapSlots_right]
  by_cases hb : p = b
  · rw [if_pos hb, hb]
  · by_cases ha : p = a
    · rw [if_neg hb, if_pos ha, ha]
    · rw [if_neg hb, if_neg ha, slot_swapSlots, if_neg hb, if_neg ha]

end Exchange

/-! ### The status word and the control word -/

/-- ES is the OR of the sticky bits whose kind is unmasked (10_state.md R50). -/
theorem es_iff (s : State) : s.es = true ↔ ∃ k < 8, s.sticky.getLsbD k = true ∧ s.cw.mask.getLsbD k = false := by
  rw [State.es, decide_eq_true_iff, Ne, unmasked_eq_zero_iff]
  simp only [not_forall, exists_prop, Bool.not_eq_true]

/-- Where each bit of the status word comes from (10_state.md R48). -/
theorem statusWord_getLsbD (s : State) {k : Nat} (hk : k < 16) :
    s.statusWord.getLsbD k =
      if k < 7 then s.sticky.getLsbD k
      else if k = 7 then s.es
      else if k = 8 then s.c0
      else if k = 9 then s.c1
      else if k = 10 then s.c2
      else if k < 14 then s.top.getLsbD (k - 11)
      else if k = 14 then s.c3
      else s.sticky.getLsbD 7 := by
  change BitVec.getLsbD (w := 1 + 1 + 3 + 1 + 1 + 1 + 1 + 7) (BitVec.ofBool (s.sticky.getLsbD 7) ++
    BitVec.ofBool s.c3 ++ s.top ++ BitVec.ofBool s.c2 ++ BitVec.ofBool s.c1 ++ BitVec.ofBool s.c0 ++
    BitVec.ofBool s.es ++ s.sticky.extractLsb' 0 7) k = _
  simp only [BitVec.getLsbD_append, BitVec.getLsbD_ofBool, BitVec.getLsbD_extractLsb']
  interval_cases k <;> simp

theorem statusWord_top (s : State) : s.statusWord.extractLsb' 11 3 = s.top := by
  refine BitVec.eq_of_getLsbD_eq fun k hk => ?_
  rw [BitVec.getLsbD_extractLsb', statusWord_getLsbD s (by omega)]
  interval_cases k <;> rfl

theorem precCode_of_precOfCode {c : BitVec 2} {pc : Precision} (h : precOfCode c = some pc) : precCode pc = c := by
  have key : ∀ c : BitVec 2, ∀ pc ∈ precOfCode c, precCode pc = c := by decide
  exact key c pc h

theorem roundCode_roundOfCode : ∀ c : BitVec 2, roundCode (roundOfCode c) = c := by decide

/-- Where each bit of the control word comes from (10_state.md R42, R47). -/
theorem toWord_getLsbD (cw : ControlWord) {k : Nat} (hk : k < 16) :
    cw.toWord.getLsbD k =
      if k < 8 then cw.mask.getLsbD k
      else if k < 10 then (precCode cw.pc).getLsbD (k - 8)
      else if k < 12 then (roundCode cw.rc).getLsbD (k - 10)
      else false := by
  change BitVec.getLsbD (w := 4 + 2 + 2 + 8) ((0 : BitVec 4) ++ roundCode cw.rc ++ precCode cw.pc ++ cw.mask) k = _
  simp only [BitVec.getLsbD_append]
  interval_cases k <;> rfl

/-- The fields of the control word stand where 10_state.md R42 places them, and nothing stands above them (R47). -/
theorem toWord_fields (cw : ControlWord) :
    cw.toWord.extractLsb' 0 8 = cw.mask ∧ cw.toWord.extractLsb' 8 2 = precCode cw.pc ∧
      cw.toWord.extractLsb' 10 2 = roundCode cw.rc ∧ cw.toWord.extractLsb' 12 4 = 0 := by
  refine ⟨?_, ?_, ?_, ?_⟩ <;>
  · refine BitVec.eq_of_getLsbD_eq fun k hk => ?_
    rw [BitVec.getLsbD_extractLsb', toWord_getLsbD cw (by omega)]
    interval_cases k <;> rfl

/-- A control word loaded from `w` reads back as `w` without bits 15:12 (R47). -/
theorem toWord_of_ofWord {w : BitVec 16} {cw : ControlWord} (h : ControlWord.ofWord w = some cw) :
    cw.toWord = w &&& 0x0FFF := by
  unfold ControlWord.ofWord at h
  split at h
  next pc hpc =>
    cases h
    refine BitVec.eq_of_getLsbD_eq fun k hk => ?_
    rw [toWord_getLsbD _ hk, precCode_of_precOfCode hpc, roundCode_roundOfCode]
    interval_cases k <;> simp
  next => cases h

/-! ### STSW, STCW and FINIT -/

theorem exec_stsw (s : State) : exec .stsw s = .next (doneData (s.statusWord.setWidth 84) s) := rfl

theorem exec_stcw (s : State) : exec .stcw s = .next (doneData (s.cw.toWord.setWidth 84) s) := rfl

theorem exec_finit (s : State) :
    exec .finit s = .next (done { emptyAllTags s with
      top := 0, cw := ControlWord.default, sticky := 0, c0 := false, c1 := false, c2 := false, c3 := false }) := rfl

/-- FINIT has nothing to do where its values stand already (R290). -/
theorem exec_finit_of_resetValues {s : State} (h : ResetValues s) :
    exec .finit s = .next { s with resp := some (doneResponse 0) } := by
  obtain ⟨htags, htop, hcw, -, hsticky, -, h0, h1, h2, h3, -⟩ := h
  rw [exec_finit, emptyAllTags_of_empty htags]
  simp only [done, respond, doneResponse, ControlWord.default, htop, hcw, hsticky, h0, h1, h2, h3]

theorem exec_stsw_of_resetValues {s : State} (h : ResetValues s) :
    exec .stsw s = .next { s with resp := some (doneResponse 0) } := by
  obtain ⟨-, -, -, -, -, -, -, -, -, -, hsw⟩ := h
  rw [exec_stsw, hsw]
  rfl

theorem exec_stcw_of_resetValues {s : State} (h : ResetValues s) :
    exec .stcw s = .next { s with resp := some (doneResponse 0x03FF) } := by
  obtain ⟨-, -, -, hcw, -⟩ := h
  rw [exec_stcw, hcw]
  rfl

/-- Settles O8: FINIT leaves the reset values, and each of the three commands after it is that command at such a
state. -/
theorem finitEffect : Obligations.FinitEffect := by
  refine ⟨rfl, fun s => ?_⟩
  obtain ⟨-, -, hfinit⟩ := resetAndFinitValues
  obtain ⟨t, ht, hreset⟩ := hfinit s
  cases ht
  exact ⟨_, rfl, fun p => slot_emptyAllTags s p, rfl, exec_finit_of_resetValues hreset,
    exec_stsw_of_resetValues hreset, exec_stcw_of_resetValues hreset⟩

/-- Settles O10, the bits of the status word one by one. -/
theorem stswReturnsStatusWord : Obligations.StswReturnsStatusWord := by
  refine ⟨rfl, fun s => ⟨s.statusWord, exec_stsw s, fun k hk => ?_, ?_, ?_⟩⟩
  · rw [statusWord_getLsbD s (by omega), if_pos hk]
  · rw [← es_iff, statusWord_getLsbD s (by decide)]
    rfl
  · have bit : ∀ k < 16, _ := fun k hk => statusWord_getLsbD s (k := k) hk
    exact ⟨bit 8 (by decide), bit 9 (by decide), bit 10 (by decide), statusWord_top s, bit 14 (by decide),
      bit 15 (by decide)⟩

/-- Settles O11: the fields of the control word, which STCW returns as it is. -/
theorem stcwReturnsControlWord : Obligations.StcwReturnsControlWord :=
  ⟨rfl, fun s => ⟨s.cw.toWord, exec_stcw s, toWord_fields s.cw⟩⟩

/-! ### LDCW and FCLEX -/

/-- LDCW by what its operand loads. -/
theorem exec_ldcw_of_some {s : State} {cw : ControlWord} (h : ControlWord.ofWord (s.opnd.extractLsb' 0 16) = some cw) :
    exec .ldcw s = .next { s with cw := cw, resp := some (doneResponse 0) } := by
  change execLdcw s = _
  rw [execLdcw, h]
  rfl

theorem exec_ldcw_of_none {s : State} (h : ControlWord.ofWord (s.opnd.extractLsb' 0 16) = none) :
    exec .ldcw s = .next { s with resp := some illegalResponse } := by
  change execLdcw s = _
  rw [execLdcw, h]
  rfl

/-- Settles O12: the operand loads a control word exactly when its precision code is not the reserved one. -/
theorem ldcwLoadsControlWord : Obligations.LdcwLoadsControlWord := by
  refine ⟨rfl, fun s w hw => ⟨fun hres => ?_, fun hres => ?_⟩⟩ <;> subst hw
  · exact exec_ldcw_of_none ((ofWord_eq_none_iff _).mpr hres)
  · obtain ⟨cw, hcw⟩ := Option.ne_none_iff_exists'.mp (mt (ofWord_eq_none_iff _).mp hres)
    exact ⟨cw, toWord_of_ofWord hcw, exec_ldcw_of_some hcw⟩

/-- Settles O13: ES is the OR over sticky bits that are all 0. -/
theorem fclexClearsStickyBits : Obligations.FclexClearsStickyBits := by
  refine ⟨rfl, fun s => ⟨_, rfl, rfl, ?_⟩⟩
  rw [State.es]
  exact decide_eq_false (not_not.mpr (unmasked_zero s.cw))

/-! ### FST and FSTP -/

section Store

variable {s : State} {n : RegIdx}

theorem store_of_nonempty (h : (s.slot s.top).tag ≠ .empty) (k : State → State) :
    store n s k = k (setSlot (s.top + n) (s.slot s.top) s) := by
  rw [← st_zero] at h ⊢
  exact if_neg (mt (isEmpty_iff s 0).mp h)

theorem store_of_empty (h : (s.slot s.top).tag = .empty) (k : State → State) :
    store n s k = if s.cw.mask.getLsbD 6 && s.cw.mask.getLsbD 0 then
      k (setSlot (s.top + n) indef (setC1 true (setSticky 0x41 s))) else faulted 0x41 s := by
  rw [← st_zero] at h
  exact (if_pos ((isEmpty_iff s 0).mpr h)).trans (stackUnderflow_eq s _)

theorem exec_fst : exec (.fst n) s = .next (store n s done) := rfl

theorem exec_fstp : exec (.fstp n) s = .next (store n s fun u => done (popStack u)) := rfl

end Store

/-- Settles O25: the three paths of the store, each followed by nothing and by a POP. -/
theorem fstAndFstpStore : Obligations.FstAndFstpStore := by
  refine ⟨by decide, fun n s => ⟨fun hfull => ?_, fun hempty hSU hIE => ?_, fun hempty hmask => ?_⟩⟩
  · rw [exec_fst, exec_fstp, store_of_nonempty hfull, store_of_nonempty hfull]
    exact ⟨rfl, rfl⟩
  · rw [exec_fst, exec_fstp, store_of_empty hempty, store_of_empty hempty, hSU, hIE]
    exact ⟨rfl, rfl⟩
  · have hfault : ¬ (s.cw.mask.getLsbD 6 && s.cw.mask.getLsbD 0) = true := by
      rwa [Bool.and_eq_true, not_and_or, Bool.not_eq_true, Bool.not_eq_true]
    rw [exec_fst, exec_fstp, store_of_empty hempty, store_of_empty hempty, if_neg hfault, if_neg hfault]
    exact ⟨rfl, rfl⟩

/-! ### FXCH -/

section Fxch

variable {s : State} {n : RegIdx}

theorem fxch_underflows_iff : (s.isEmpty 0 || s.isEmpty n) = true ↔
    (s.slot s.top).tag = .empty ∨ (s.slot (s.top + n)).tag = .empty := by
  rw [Bool.or_eq_true, isEmpty_iff, isEmpty_iff, st_zero, st_eq]

theorem exec_fxch_of_empty (h : (s.slot s.top).tag = .empty ∨ (s.slot (s.top + n)).tag = .empty) :
    exec (.fxch n) s = .next (stackUnderflow s fun u => done (swapSlots (u.phys 0) (u.phys n) u)) :=
  congrArg Host.Outcome.next (if_pos (fxch_underflows_iff.mpr h))

section Full

variable (h0 : (s.slot s.top).tag ≠ .empty) (hn : (s.slot (s.top + n)).tag ≠ .empty)
include h0 hn

theorem exec_fxch_of_full : exec (.fxch n) s = .next (done (swapSlots s.top (s.top + n) s)) := calc
  exec (.fxch n) s = .next (done (swapSlots (s.phys 0) (s.phys n) s)) :=
    congrArg Host.Outcome.next (if_neg (mt fxch_underflows_iff.mp (not_or.mpr ⟨h0, hn⟩)))
  _ = .next (done (swapSlots s.top (s.top + n) s)) := by rw [phys_zero, State.phys]

/-- Two full registers that have been exchanged are still full, and the second FXCH exchanges them back. -/
theorem runCommands_fxch_fxch : runCommands [.fxch n, .fxch n] s = .next { s with resp := some (doneResponse 0) } := by
  have h0' : ((done (swapSlots s.top (s.top + n) s)).slot s.top).tag ≠ .empty :=
    (congrArg FpuValue.tag (slot_swapSlots_left s.top (s.top + n) s)).trans_ne hn
  have hn' : ((done (swapSlots s.top (s.top + n) s)).slot (s.top + n)).tag ≠ .empty :=
    (congrArg FpuValue.tag (slot_swapSlots_right s.top (s.top + n) s)).trans_ne h0
  calc
    runCommands [.fxch n, .fxch n] s
      = .next (done (swapSlots s.top (s.top + n) (swapSlots s.top (s.top + n) s))) := by
        rw [runCommands_cons (exec_fxch_of_full h0 hn), runCommands_cons (exec_fxch_of_full h0' hn')]
        rfl
    _ = .next { s with resp := some (doneResponse 0) } := by
        rw [swapSlots_swapSlots]
        rfl

end Full

end Fxch

/-- Settles O26, full registers and an Empty one apart. -/
theorem fxchExchanges : Obligations.FxchExchanges := by
  refine ⟨by decide, fun n s => ⟨fun h0 hn => exec_fxch_of_full h0 hn, fun h => ?_⟩,
    fun n s h0 hn => runCommands_fxch_fxch h0 hn⟩
  rw [exec_fxch_of_empty h, stackUnderflow_eq]
  simp only [phys_zero]
  rfl

/-! ### FFREE and FFREEP -/

/-- Settles O27: the slots by what a freed tag and a POP write, and FFREEP ST(0) frees the slot that it pops. -/
theorem ffreeAndFfreepEffect : Obligations.FfreeAndFfreepEffect := by
  refine ⟨by decide, fun n s => ⟨rfl, _, rfl, rfl, fun p => ?_⟩, fun s => ?_⟩
  · exact slot_popStack_emptyTag (s.top + n) p s
  · change Host.Outcome.next (done (popStack (emptyTag (s.phys 0) s))) = .next (done (popStack s))
    rw [phys_zero, popStack_emptyTag_top]

end Sys2Proof.Machine
end

section
/-! The constant table (spec/47_constants.md): its patterns, how close its irrational entries are to the constants they
stand for, and FLDC. -/

namespace Sys2Proof.Machine

/-! ### Bounds of the constants (R324) -/

/-- The series of `artanh (1/3)` to 26 terms. -/
theorem log_two_bounds : 0.69314718055994530941723 < Real.log 2 ∧ Real.log 2 < 0.69314718055994530941724 := by
  have hlow := Real.sum_range_le_log_div (x := 1 / 3) (by norm_num) (by norm_num) 26
  have hhigh := Real.log_div_le_sum_range_add (x := 1 / 3) (by norm_num) (by norm_num) 26
  norm_num [Finset.sum_range_succ] at hlow hhigh
  constructor <;> linarith

/-- The series of `artanh (1/9)` to 14 terms, with `10 = 2^3 * 5/4`. -/
theorem log_ten_bounds : 2.30258509299404568401798 < Real.log 10 ∧ Real.log 10 < 2.30258509299404568401802 := by
  have hten : Real.log 10 = 3 * Real.log 2 + Real.log (5 / 4) := by
    rw [show (10 : ℝ) = 2 ^ 3 * (5 / 4) by norm_num, Real.log_mul (by norm_num) (by norm_num), Real.log_pow]
    norm_num
  obtain ⟨htwoLow, htwoHigh⟩ := log_two_bounds
  have hlow := Real.sum_range_le_log_div (x := 1 / 9) (by norm_num) (by norm_num) 14
  have hhigh := Real.log_div_le_sum_range_add (x := 1 / 9) (by norm_num) (by norm_num) 14
  norm_num [Finset.sum_range_succ] at hlow hhigh
  constructor <;> linarith

/-- `n` is the integer nearest to `c` in units of `2^(e - 63)`, the last place of a significand of exponent `e`. -/
def NearestSig (e : ℤ) (n : ℕ) (c : ℝ) : Prop :=
  (2 * (n : ℝ) - 1) * 2 ^ (e - 64) ≤ c ∧ c ≤ (2 * (n : ℝ) + 1) * 2 ^ (e - 64)

theorem nearestSig_logb_two_ten : NearestSig 1 0xD49A784BCD1B8AFE (Real.logb 2 10) := by
  obtain ⟨htwoLow, htwoHigh⟩ := log_two_bounds
  obtain ⟨htenLow, htenHigh⟩ := log_ten_bounds
  have htwo : 0 < Real.log 2 := by linarith
  rw [NearestSig, Real.logb, le_div_iff₀ htwo, div_le_iff₀ htwo]
  norm_num
  constructor <;> linarith

theorem nearestSig_logb_two_exp : NearestSig 0 0xB8AA3B295C17F0BC (Real.logb 2 (Real.exp 1)) := by
  obtain ⟨htwoLow, htwoHigh⟩ := log_two_bounds
  have htwo : 0 < Real.log 2 := by linarith
  rw [NearestSig, Real.logb, Real.log_exp, le_div_iff₀ htwo, div_le_iff₀ htwo]
  norm_num
  constructor <;> linarith

theorem nearestSig_pi : NearestSig 1 0xC90FDAA22168C235 Real.pi := by
  have hlow := Real.pi_gt_d20
  have hhigh := Real.pi_lt_d20
  rw [NearestSig]
  norm_num
  constructor <;> linarith

theorem nearestSig_logb_ten_two : NearestSig (-2) 0x9A209A84FBCFF799 (Real.logb 10 2) := by
  obtain ⟨htwoLow, htwoHigh⟩ := log_two_bounds
  obtain ⟨htenLow, htenHigh⟩ := log_ten_bounds
  have hten : 0 < Real.log 10 := by linarith
  rw [NearestSig, Real.logb, le_div_iff₀ hten, div_le_iff₀ hten]
  norm_num
  constructor <;> linarith

theorem nearestSig_log_two : NearestSig (-1) 0xB17217F7D1CF79AC (Real.log 2) := by
  obtain ⟨hlow, hhigh⟩ := log_two_bounds
  rw [NearestSig]
  norm_num
  constructor <;> linarith

/-- Halving a constant lowers the exponent and keeps the significand. -/
theorem NearestSig.half {e : ℤ} {n : ℕ} {c : ℝ} (h : NearestSig e n c) : NearestSig (e - 1) n (c / 2) := by
  obtain ⟨hlow, hhigh⟩ := h
  have hunit : (2 : ℝ) ^ (e - 1 - 64) = 2 ^ (e - 64) / 2 := by
    rw [show e - 1 - 64 = e - 64 - 1 by ring, zpow_sub_one₀ two_ne_zero, div_eq_mul_inv]
  rw [NearestSig, hunit]
  constructor <;> linarith

/-! ### The accuracy of an entry (R324) -/

/-- The nearest significand, if it is above `2^63`, makes a value wrong by at most half a unit in the last place and
by at most `2^-64` relative. -/
theorem NearestSig.accuracy {e : ℤ} {sig : BitVec 64} {c : ℝ} (h : NearestSig e sig.toNat c)
    (hsig : 2 ^ 63 < sig.toNat) (h1 : -32768 ≤ e) (h2 : e < 32768) :
    |(valOf (validOf e sig) : ℝ) - c| ≤ 2 ^ ((validOf e sig).exp.toInt - 64) ∧
      |(valOf (validOf e sig) : ℝ) - c| ≤ 1 / 2 ^ 64 * c := by
  obtain ⟨hlow, hhigh⟩ := h
  have hunit : (2 : ℝ) ^ (e - 63) = 2 * 2 ^ (e - 64) := by
    rw [show e - 63 = 1 + (e - 64) by ring, zpow_one_add₀ two_ne_zero]
  have hexp : (validOf e sig).exp.toInt = e := expField_toInt h1 h2
  have hpos : (0 : ℝ) < 2 ^ (e - 64) := by positivity
  have hhalf : |(valOf (validOf e sig) : ℝ) - c| ≤ 2 ^ (e - 64) := by
    rw [valOf_validOf, expField_toInt h1 h2]
    push_cast
    rw [one_mul, hunit, abs_le]
    constructor <;> linarith
  have hn : (2 : ℝ) ^ 63 + 1 ≤ sig.toNat := by exact_mod_cast hsig
  have hc : 2 ^ 64 * 2 ^ (e - 64) ≤ c := by
    refine le_trans (mul_le_mul_of_nonneg_right ?_ hpos.le) hlow
    linarith
  refine ⟨by rwa [hexp], hhalf.trans ?_⟩
  rw [one_div, inv_mul_eq_div, le_div_iff₀ (by positivity), mul_comm]
  exact hc

/-- An entry of the table whose significand is the nearest to its constant. -/
theorem constTable_accuracy {k : ConstIdx} {e : ℤ} {sig : BitVec 64} {c : ℝ}
    (hk : constTable k = some (validOf e sig)) (h : NearestSig e sig.toNat c) (hsig : 2 ^ 63 < sig.toNat)
    (h1 : -32768 ≤ e) (h2 : e < 32768) :
    ∃ v, constTable k = some v ∧ v.tag = .valid ∧
      |(valOf v : ℝ) - c| ≤ 2 ^ (v.exp.toInt - 64) ∧ |(valOf v : ℝ) - c| ≤ 1 / 2 ^ 64 * c :=
  ⟨_, hk, rfl, h.accuracy hsig h1 h2⟩

/-- Settles O20: every significand is the nearest to its constant, by the bounds of `ln 2`, `ln 10` and `pi`. -/
theorem constantTableAccuracy : Obligations.ConstantTableAccuracy := by
  have hquarter : NearestSig (-1) 0xC90FDAA22168C235 (Real.pi / 4) := by
    have h := nearestSig_pi.half.half
    rwa [div_div, show (2 : ℝ) * 2 = 4 by norm_num] at h
  refine ⟨rfl, rfl, ?_⟩
  simp only [List.forall_mem_cons, List.not_mem_nil, false_imp_iff, implies_true, and_true]
  exact ⟨constTable_accuracy (e := 1) rfl nearestSig_logb_two_ten (by decide) (by decide) (by decide),
    constTable_accuracy (e := 0) rfl nearestSig_logb_two_exp (by decide) (by decide) (by decide),
    constTable_accuracy (e := 1) rfl nearestSig_pi (by decide) (by decide) (by decide),
    constTable_accuracy (e := 0) rfl nearestSig_pi.half (by decide) (by decide) (by decide),
    constTable_accuracy (e := -1) rfl hquarter (by decide) (by decide) (by decide),
    constTable_accuracy (e := -2) rfl nearestSig_logb_ten_two (by decide) (by decide) (by decide),
    constTable_accuracy (e := -1) rfl nearestSig_log_two (by decide) (by decide) (by decide)⟩

/-! ### The entries and FLDC (R320, R321, R325) -/

/-- Settles O19, entry by entry. -/
theorem constantTablePatterns : Obligations.ConstantTablePatterns := by
  unfold Obligations.ConstantTablePatterns
  decide

theorem constTable_eq_none_iff (c : ConstIdx) : constTable c = none ↔ 11 < c.toNat := by
  revert c
  decide

theorem exec_fldc_of_some {c : ConstIdx} {v : FpuValue} (h : constTable c = some v) (s : State) :
    exec (.fldc c) s = .next (push v s (fun u => done (setC1 false u)) done) := by
  change execFldc c s = _
  rw [execFldc, h]

theorem exec_fldc_of_none {c : ConstIdx} (h : constTable c = none) (s : State) :
    exec (.fldc c) s = .next { s with resp := some illegalResponse } := by
  change execFldc c s = _
  rw [execFldc, h]
  rfl

/-- Settles O21: the two paths of the push of an entry, and no entry. -/
theorem fldcPushesConstant : Obligations.FldcPushesConstant := by
  have hentry : ∀ c : ConstIdx, c.toNat ≤ 11 → ∃ v, constTable c = some v := fun c hc =>
    Option.ne_none_iff_exists'.mp (mt (constTable_eq_none_iff c).mp (not_lt.mpr hc))
  refine ⟨by decide, fun c s => ⟨fun hc => ?_, fun hc hfull => ?_, fun hc hroom => ?_⟩⟩
  · exact exec_fldc_of_none ((constTable_eq_none_iff c).mpr hc) s
  · obtain ⟨v, hv⟩ := hentry c hc
    rw [exec_fldc_of_some hv, push_of_full hfull, stackOverflow_eq]
    rfl
  · obtain ⟨v, hv⟩ := hentry c hc
    refine ⟨v, hv, ?_⟩
    rw [exec_fldc_of_some hv, push_of_room hroom]
    rfl

end Sys2Proof.Machine
end

section
/-! Illegal words and exceptions (spec/60_exceptions.md R345 to R350): what an illegal word, a stack fault and a FAULT
response leave of the state; and the reads of the state after reset (spec/70_reset_and_hazards.md R382). -/

namespace Sys2Proof.Machine

/-! ### Illegal words (R348) -/

/-- A word of no row of the table is illegal. -/
theorem decode_error_of_no_row {w : CmdWord} (h : ∀ r ∈ commandTable, ¬ r.has w) : ∃ e, decode w = .error e := by
  cases hw : decode w with
  | error e => exact ⟨e, rfl⟩
  | ok i =>
    obtain ⟨r, hr, hhas, -⟩ := (exists_row_iff w i).mpr (decode_eq_ok_iff.mp hw)
    exact absurd hhas (h r hr)

/-- The precision field of LDCW's operand. -/
theorem extractLsb'_low16_precision (o : PortWord) : (o.extractLsb' 0 16).extractLsb' 8 2 = o.extractLsb' 8 2 := by
  rw [BitVec.extractLsb'_extractLsb'_of_le (by decide)]

/-- Settles O6: the decoder rejects a word of no row, and the reserved precision code loads no control word. -/
theorem illegalWordChangesNothing : Obligations.IllegalWordChangesNothing := by
  rintro s w o rest hp (hrow | ⟨rfl, ho⟩)
  · obtain ⟨e, hw⟩ := decode_error_of_no_row hrow
    exact step_illegal hp hw
  · have hnone : ControlWord.ofWord (o.extractLsb' 0 16) = none := by
      rw [ofWord_eq_none_iff, extractLsb'_low16_precision, ho]
    rw [step_command hp (decode_encode (i := .ldcw) rfl)]
    exact exec_ldcw_of_none hnone

/-! ### Reads after reset -/

/-- Settles O9: with every slot Empty and every kind masked each RDST is a masked stack underflow. -/
theorem afterResetEveryReadUnderflows : Obligations.AfterResetEveryReadUnderflows := by
  refine fun s h => ⟨exec_stcw_of_resetValues h, exec_stsw_of_resetValues h, fun n => ?_⟩
  obtain ⟨htags, -, hcw, -, hsticky, -⟩ := h
  have hmasked : (s.cw.mask.getLsbD 6 && s.cw.mask.getLsbD 0) = true := by rw [hcw]; rfl
  rw [exec_rdst_of_empty (htags (s.top + n)), stackUnderflow_eq, if_pos hmasked, packValue_indef, setSticky, hsticky]
  rfl

/-! ### Stack faults (R349, R350) -/

/-- A command that meets a stack underflow is one `stack_underflow()` and then the rest of the command. -/
theorem exec_of_stackUnderflows {i : Instr} {s : State} (hu : stackUnderflows i s)
    (himm : usesImmediate i = true → ∃ v, s.immediate = some v) :
    ∃ k, exec i s = .next (stackUnderflow s k) ∧ ∀ u, Completes i u (k u) := by
  cases i with
  | finit | fclex | stsw | stcw | ldcw | fldImm | fldc | ffree | ffreep | pop => exact hu.elim
  | fldReg n => exact ⟨_, exec_fldReg_of_empty hu.1 hu.2, fun u => ⟨rfl, rfl, _, rfl⟩⟩
  | fst n | fstp n =>
    exact ⟨_, congrArg Host.Outcome.next (if_pos ((isEmpty_iff s 0).mpr hu)), fun u => ⟨rfl, rfl, _, rfl⟩⟩
  | fxch n =>
    have hempty : (s.slot s.top).tag = .empty ∨ (s.slot (s.top + n)).tag = .empty := by
      rwa [stackUnderflows, st_zero, st_eq] at hu
    exact ⟨_, exec_fxch_of_empty hempty, fun u => ⟨rfl, rfl, _, rfl⟩⟩
  | rdst n => exact ⟨_, exec_rdst_of_empty hu, fun u => ⟨rfl, rfl, _, rfl⟩⟩
  | fl2x | fl2xp1 =>
    exact ⟨_, congrArg Host.Outcome.next (logCommand_of_empty hu _ _), completes_writeBack (fun _ => rfl) 0 indef⟩
  | _ => exact ⟨_, exec_eq_stackUnderflow rfl himm hu, completes_writeBack (topAfter_arithRow rfl) _ indef⟩

/-- A command that meets a stack overflow is one `stack_overflow()` and then the push of INDEF. -/
theorem exec_of_stackOverflows {i : Instr} {s : State} (ho : stackOverflows i s)
    (himm : usesImmediate i = true → ∃ v, s.immediate = some v) :
    exec i s = .next (stackOverflow s fun u => done (pushRaw indef u)) ∧ pushesStack i = true := by
  obtain ⟨hwf, hpush, hfull⟩ := ho
  refine ⟨?_, hpush⟩
  cases i with
  | fldReg n => exact exec_fldReg_of_full hfull
  | fldImm =>
    obtain ⟨v, hv⟩ := himm rfl
    rw [exec_fldImm hv, push_of_full hfull]
  | fldc c =>
    obtain ⟨v, hv⟩ := Option.isSome_iff_exists.mp (constTable_legal.mpr hwf)
    rw [exec_fldc_of_some hv, push_of_full hfull]
  | _ => cases hpush

theorem completes_done_pushRaw {i : Instr} (h : pushesStack i = true) (v : FpuValue) (u : State) :
    Completes i u (done (pushRaw v u)) := by
  cases i with
  | fldReg | fldImm | fldc => exact ⟨rfl, rfl, _, rfl⟩
  | _ => cases h

/-- What a stack fault of kinds `K` leaves: the faulted state, or the sticky bits of `K` and C1 in a command that
completes. -/
theorem stackFault_paths {i : Instr} {s : State} {K : KindSet} {k : State → State}
    (e : exec i s = .next (signal K s fun u => k (setC1 true u))) (hk : ∀ u, Completes i u (k u)) :
    (¬ AllMasked s.cw K → exec i s = .next (faulted K s)) ∧
      (AllMasked s.cw K → ∃ t d, exec i s = .next t ∧ t.resp = some (doneResponse d) ∧
        t.sticky = s.sticky ||| K ∧ t.c1 = true) := by
  refine ⟨fun hK => by rw [e, signal_of_not_allMasked hK], fun hK => ?_⟩
  have ht := hk (setC1 true (setSticky K s))
  obtain ⟨d, hd⟩ := ht.resp
  rw [signal_of_masked s hK] at e
  exact ⟨_, d, e, hd, ht.sticky_eq, ht.c1_eq⟩

/-- Settles O49: either stack fault is one signal of its two kinds before anything else. -/
theorem stackFaultPaths : Obligations.StackFaultPaths := by
  rintro i s himm K (⟨ho, rfl⟩ | ⟨hu, rfl⟩)
  · obtain ⟨e, hpush⟩ := exec_of_stackOverflows ho himm
    exact stackFault_paths (k := fun u => done (pushRaw indef u)) e (completes_done_pushRaw hpush indef)
  · obtain ⟨k, e, hk⟩ := exec_of_stackUnderflows hu himm
    exact stackFault_paths e hk

/-! ### FAULT responses (R346, R347) -/

/-- A command that answers FAULT has ended at a signal of `K`, those of `J` having gone before it. -/
theorem eq_raiseFault_of_fault {i : Instr} {s t : State} {r : Response} (h : exec i s = .next t)
    (hr : t.resp = some r) (hf : r.status = .fault) :
    ∃ J K, unmasked s.cw K ≠ 0 ∧ t = raiseFault (unmasked s.cw K) (setSticky K (setSticky J s)) := by
  cases exec_ends h with
  | finit | fclex | ldcw | illegal => cases hr; cases hf
  | fault hi hJ hK => exact ⟨_, _, hK, rfl⟩
  | maskedStackFault _ ht => exact nomatch (ht.status_eq hr).symm.trans hf
  | completes hu ho ht => exact nomatch (ht.status_eq hr).symm.trans hf

/-- Every kind of `K` is one of `L`. -/
abbrev Within (K L : KindSet) : Prop := K &&& ~~~L = 0

theorem within_iff {K L : KindSet} : Within K L ↔ ∀ k, K.getLsbD k = true → L.getLsbD k = true :=
  (unmasked_eq_zero_iff { mask := L, pc := .p64, rc := .nearest } K).trans
    ⟨fun h k hk => h k (BitVec.lt_of_getLsbD hk) hk, fun h k _ => h k⟩

theorem Within.trans {K L M : KindSet} (h : Within K L) (h' : Within L M) : Within K M :=
  within_iff.mpr fun k hk => within_iff.mp h' k (within_iff.mp h k hk)

theorem within_or_left (K L : KindSet) : Within K (K ||| L) :=
  within_iff.mpr fun k hk => by rw [BitVec.getLsbD_or, hk, Bool.true_or]

theorem within_or_right (K L : KindSet) : Within L (K ||| L) := BitVec.or_comm K L ▸ within_or_left L K

/-- Settles O50: the fault vector is what is unmasked of the kinds last signalled. -/
theorem faultChangesOnlyStickyBits : Obligations.FaultChangesOnlyStickyBits := by
  intro i s t r h hr hf
  obtain ⟨J, K, hK, rfl⟩ := eq_raiseFault_of_fault h hr hf
  cases hr
  have hes : unmasked s.cw (s.sticky ||| J ||| K) ≠ 0 := fun hz => hK ((unmasked_or_eq_zero_iff _ _ _).mp hz).2
  exact ⟨rfl, (within_or_left s.sticky J).trans (within_or_left _ K), decide_eq_true hes, rfl, hK,
    unmasked_and_mask s.cw K, Within.trans (unmasked_le s.cw K) (within_or_right _ K)⟩

end Sys2Proof.Machine
end

section
/-! The kinds each command can raise (spec/60_exceptions.md R341): every signal of a command is of kinds listed for it,
and in the logarithm commands the size of the engine's value excludes the others. -/

namespace Sys2Proof.Machine

/-! ### Sets of kinds -/

theorem within_zero (L : KindSet) : Within 0 L := within_iff.mpr fun k hk => by simp at hk

theorem Within.or {K K' L : KindSet} (h : Within K L) (h' : Within K' L) : Within (K ||| K') L :=
  within_iff.mpr fun k hk => by
    rw [BitVec.getLsbD_or, Bool.or_eq_true] at hk
    exact hk.elim (within_iff.mp h k) (within_iff.mp h' k)

/-! ### Shared operations -/

/-- The kinds whose sticky bits are set are among `L`. -/
def State.StickyWithin (L : KindSet) (s : State) : Prop := Within s.sticky L

namespace State.StickyWithin

variable {L : KindSet} {s : State} (h : s.StickyWithin L)
include h

theorem setSticky {K : KindSet} (hK : Within K L) : (setSticky K s).StickyWithin L := Within.or h hK

/-- A signal of listed kinds sets no other sticky bit, be they masked or not. -/
theorem signal {K : KindSet} (hK : Within K L) {k : State → State}
    (hk : ∀ {u}, u.StickyWithin L → (k u).StickyWithin L) : (signal K s k).StickyWithin L := by
  rcases signal_cases s K k with ⟨-, e⟩ | ⟨-, e⟩ <;> rw [e]
  · exact hk (h.setSticky hK)
  · exact h.setSticky hK

theorem stackUnderflow (hK : Within (kSU ||| kIE) L) {k : State → State}
    (hk : ∀ {u}, u.StickyWithin L → (k u).StickyWithin L) : (stackUnderflow s k).StickyWithin L :=
  h.signal hK fun {u} hu => hk (u := setC1 true u) hu

theorem stackOverflow (hK : Within (kSO ||| kIE) L) {k : State → State}
    (hk : ∀ {u}, u.StickyWithin L → (k u).StickyWithin L) : (stackOverflow s k).StickyWithin L :=
  h.signal hK fun {u} hu => hk (u := setC1 true u) hu

theorem push (hK : Within (kSO ||| kIE) L) (v : FpuValue) {k kOver : State → State}
    (hk : ∀ {u}, u.StickyWithin L → (k u).StickyWithin L)
    (hOver : ∀ {u}, u.StickyWithin L → (kOver u).StickyWithin L) : (push v s k kOver).StickyWithin L := by
  rcases push_cases s v k kOver with ⟨-, e⟩ | ⟨-, e⟩ <;> rw [e]
  · exact hk (u := pushRaw v s) h
  · exact h.stackOverflow hK fun {u} hu => hOver (u := pushRaw indef u) hu

theorem store (hK : Within (kSU ||| kIE) L) (n : RegIdx) {k : State → State}
    (hk : ∀ {u}, u.StickyWithin L → (k u).StickyWithin L) : (store n s k).StickyWithin L := by
  rcases store_cases s n k with ⟨-, e⟩ | ⟨-, e⟩ <;> rw [e]
  · exact hk (u := setSlot (s.phys n) (s.st 0) s) h
  · exact h.stackUnderflow hK fun {u} hu => hk (u := setSlot (u.phys n) indef u) hu

theorem writeBack (d : RegIdx) (v : FpuValue) (pops : Bool) : (writeBack d v pops s).StickyWithin L := by
  cases pops
  · exact h
  · exact h

theorem finishComputed {c : Computed} (hfirst : Within c.first L) (hsecond : Within c.second L) (d : RegIdx)
    (pops : Bool) : (finishComputed c d pops s).StickyWithin L :=
  h.signal hfirst fun hu => hu.signal hsecond fun {u} hu =>
    State.StickyWithin.writeBack (s := setC1 c.roundup u) hu d c.value pops

end State.StickyWithin

/-! ### Arithmetic commands -/

/-- The kinds that an arithmetic command can raise: ZE in a division alone (R341). -/
def arithKinds : ArithOp → KindSet
  | .div => kSU ||| kIE ||| kDE ||| kZE ||| kOE ||| kUE ||| kPE
  | _ => kSU ||| kIE ||| kDE ||| kOE ||| kUE ||| kPE

theorem compute_kinds_within (op : ArithOp) (cw : ControlWord) (A B : FpuValue) :
    Within (compute op cw A B).first (arithKinds op) ∧ Within (compute op cw A B).second (arithKinds op) := by
  have hround : ∀ op, ∀ K ∈ [kOE ||| kPE, kUE ||| kPE, kUE, kPE, 0], Within K (arithKinds op) := by
    rintro (_ | _ | _ | _) <;> decide
  have hfixed : ∀ op, Within kIE (arithKinds op) ∧ Within kDE (arithKinds op) := by
    rintro (_ | _ | _ | _) <;> decide
  obtain ⟨hIE, hDE⟩ := hfixed op
  rcases compute_kinds op cw A B with ⟨hfirst, hsecond⟩ | ⟨hfirst, hsecond⟩
  · rw [hfirst, hsecond]
    exact ⟨hIE, within_zero _⟩
  · constructor
    · rcases hfirst with h | h <;> rw [h]
      · exact within_zero _
      · exact hDE
    · rcases hsecond with ⟨h, rfl⟩ | h
      · rw [h]
        decide
      · exact hround op _ h

theorem raisable_arithRow {i : Instr} {row : ArithRow} (hr : arithRow i = some row) :
    raisable i = arithKinds row.op := by
  cases i <;> cases hr <;> rfl

theorem stickyWithin_arithRow {i : Instr} {row : ArithRow} {s t : State} {L : KindSet} (hr : arithRow i = some row)
    (h : exec i s = .next t) (hs : s.StickyWithin L) (hL : Within (raisable i) L) : t.StickyWithin L := by
  obtain ⟨f, rfl, -⟩ := exec_arithRow hr h
  rw [raisable_arithRow hr] at hL
  obtain ⟨hfirst, hsecond⟩ := compute_kinds_within row.op s.cw (f.operands s).1 (f.operands s).2
  have hSU : ∀ op, Within (kSU ||| kIE) (arithKinds op) := by rintro (_ | _ | _ | _) <;> decide
  rcases arith_cases s row.op f with ⟨-, e⟩ | ⟨-, e⟩ <;> rw [e]
  · exact hs.stackUnderflow ((hSU _).trans hL) fun hu => hu.writeBack _ _ _
  · exact hs.finishComputed (hfirst.trans hL) (hsecond.trans hL) _ _

/-! ### The rounding of the engine's value (R266) -/

/-- A unit in the last place of a magnitude up to `2^k` is at most `2^k`. -/
theorem two_zpow_ruleUlp_le_of_le (cw : ControlWord) {m : ℚ} {k : ℤ} (hm : 0 < m) (h : m ≤ 2 ^ k) (hk : -16445 ≤ k) :
    (2 : ℚ) ^ ruleUlp cw m ≤ 2 ^ k := by
  have hself : (2 : ℚ) ^ Int.log 2 m ≤ m := by exact_mod_cast Int.zpow_log_le_self (b := 2) one_lt_two hm
  have hlog : Int.log 2 m ≤ k := (zpow_le_zpow_iff_right₀ one_lt_two).mp (hself.trans h)
  have hp : 24 ≤ cw.pc.bits := by cases cw.pc <;> decide
  exact zpow_le_zpow_right₀ one_le_two (by unfold ruleUlp; omega)

/-- `RoundT` of a magnitude far from the largest raises UE for a tiny one and PE, but not OE. -/
theorem ruleRound_always_kinds (cw : ControlWord) (s : Bool) {m : ℚ} (hm : 0 < m) (h : m ≤ 2 ^ (16 : ℤ)) :
    (ruleRound true cw s m).kinds = kindsIf (decide (m < 2 ^ (-16382 : ℤ))) kUE ||| kPE := by
  have herr := abs_lt.mp (abs_ruleRounding_sub_lt cw s m)
  have hulp := two_zpow_ruleUlp_le_of_le cw hm h (by norm_num)
  have hfits : (ruleRounding cw s m).1 < 2 ^ (16384 : ℤ) := calc
    (ruleRounding cw s m).1 < 2 ^ (16 : ℤ) + 2 ^ (16 : ℤ) := by linarith
    _ = 2 ^ (17 : ℤ) := by norm_num
    _ ≤ 2 ^ (16384 : ℤ) := zpow_le_zpow_right₀ one_le_two (by norm_num)
  simp only [ruleRound, if_neg (not_le.mpr hfits), Bool.true_or, Bool.and_true]
  rfl

/-! ### The size of `P_L2P1` (R270) -/

/-- No representable value above -1 is closer to it than the unit in the last place below 1. -/
theorem one_add_valOf_ge {X : FpuValue} (hwf : X.wf = true) (ht : X.tag = .valid ∨ X.tag = .denormal)
    (h0 : valOf X ≠ 0) (h1 : -1 < valOf X) : 2 ^ (-64 : ℤ) ≤ 1 + valOf X := by
  rcases lt_or_gt_of_ne h0 with hneg | hpos
  · have hmag : valOf { X with sign := false } = |valOf X| := by
      rw [abs_valOf (by rcases ht with ht | ht <;> rw [ht] <;> nofun)]
      rcases ht with ht | ht <;> simp [valOf, ht]
    have hdistance := abs_valOf_sub_one_ge (X := { X with sign := false }) hwf ht
      (by rw [hmag]; exact abs_pos.mpr h0) (by rw [hmag, abs_of_neg hneg]; linarith)
    rw [hmag, abs_of_neg hneg, abs_of_neg (by linarith)] at hdistance
    linarith
  · have hunit : (2 : ℚ) ^ (-64 : ℤ) ≤ 1 := by norm_num
    linarith

/-- The exponent range bounds the logarithm of every argument of FL2XP1. -/
theorem abs_logb_one_add_le {X : FpuValue} (hwf : X.wf = true) (ht : X.tag = .valid ∨ X.tag = .denormal)
    (h0 : valOf X ≠ 0) (h1 : -1 < valOf X) : |Real.logb 2 ((1 + valOf X : ℚ) : ℝ)| ≤ 16446 := by
  have hlow : (2 : ℝ) ^ (-64 : ℤ) ≤ ((1 + valOf X : ℚ) : ℝ) :=
    (two_zpow_le_cast_iff _ _).mpr (one_add_valOf_ge hwf ht h0 h1)
  have hhigh : ((1 + valOf X : ℚ) : ℝ) ≤ 2 ^ (16385 : ℤ) := by
    have hone : (1 : ℚ) ≤ 2 ^ (16384 : ℤ) := one_le_zpow₀ one_le_two (by norm_num)
    have hrat : 1 + valOf X ≤ (2 : ℚ) ^ (16385 : ℤ) := calc
      1 + valOf X ≤ 2 ^ (16384 : ℤ) + 2 ^ (16384 : ℤ) :=
        add_le_add hone ((le_abs_self _).trans (abs_valOf_range hwf ht).2)
      _ = 2 ^ (16385 : ℤ) := (two_mul _).symm.trans (zpow_one_add₀ two_ne_zero 16384).symm
    exact_mod_cast hrat
  have hpos : (0 : ℝ) < ((1 + valOf X : ℚ) : ℝ) := lt_of_lt_of_le (by positivity) hlow
  have hlogLow := Real.logb_le_logb_of_le one_lt_two (by positivity) hlow
  have hlogHigh := Real.logb_le_logb_of_le one_lt_two hpos hhigh
  rw [logb_two_zpow] at hlogLow hlogHigh
  push_cast at hlogLow hlogHigh ⊢
  exact abs_le.mpr ⟨by linarith, by linarith⟩

/-- A value within a relative error of 1 is at most twice as large. -/
theorem ApproximatesLog2.abs_le_two_mul {k : ℕ} {z y : ℚ} (h : ApproximatesLog2 k z y) :
    |(y : ℝ)| ≤ 2 * |Real.logb 2 z| := by
  have hk : (2 : ℝ) ^ (-k : ℤ) ≤ 1 := zpow_le_one_of_nonpos₀ one_le_two (by omega)
  have hdiff := (abs_sub_abs_le_abs_sub (y : ℝ) (Real.logb 2 z)).trans h.accurate
  have hle := mul_le_mul_of_nonneg_right hk (abs_nonneg (Real.logb 2 z))
  linarith

theorem abs_pL2P1_le {X : FpuValue} (hwf : X.wf = true) (ht : X.tag = .valid ∨ X.tag = .denormal)
    (h0 : valOf X ≠ 0) (h1 : -1 < valOf X) : |pL2P1 (valOf X)| ≤ 2 ^ (16 : ℤ) := by
  have htwice := (pL2P1_approximates h1 h0).abs_le_two_mul
  have hlog := abs_logb_one_add_le hwf ht h0 h1
  rw [← Rat.cast_le (K := ℝ), Rat.cast_abs]
  push_cast
  linarith

/-! ### The logarithm commands -/

/-- Both signals of the result are of kinds in `L`. -/
structure RuleResult.KindsWithin (R : RuleResult) (L : KindSet) : Prop where
  first : Within R.first L
  second : Within R.second L

section RuleKinds

variable {L : KindSet} (X v : FpuValue)

theorem ruleNaN_kindsWithin (hIE : Within kIE L) : (ruleNaN X X).KindsWithin L := by
  refine ⟨?_, within_zero L⟩
  unfold ruleNaN
  dsimp only
  split
  · exact hIE
  · exact within_zero L

theorem ruleInvalid_kindsWithin (hIE : Within kIE L) : ruleInvalid.KindsWithin L := ⟨hIE, within_zero L⟩

theorem ruleDE_within (hDE : Within kDE L) : Within (ruleDE X X) L := by
  unfold ruleDE
  split
  · exact hDE
  · exact within_zero L

theorem ruleExact_kindsWithin (hDE : Within kDE L) : (ruleExact X X v).KindsWithin L :=
  ⟨ruleDE_within X hDE, within_zero L⟩

/-- The engine's value raises DE for its argument and then PE, with UE where it is tiny. -/
theorem ruleEngine_kindsWithin (cw : ControlWord) {y : ℚ} (hDE : Within kDE L) (hPE : Within kPE L) (hy : y ≠ 0)
    (hhigh : |y| ≤ 2 ^ (16 : ℤ)) (hUE : |y| < 2 ^ (-16382 : ℤ) → Within kUE L) :
    (ruleEngine cw X y).KindsWithin L := by
  refine ⟨ruleDE_within X hDE, ?_⟩
  have hkinds := ruleRound_always_kinds cw (decide (y < 0)) (abs_pos.mpr hy) hhigh
  rw [ruleEngine]
  dsimp only
  rw [hkinds]
  refine Within.or ?_ hPE
  by_cases htiny : |y| < 2 ^ (-16382 : ℤ)
  · rw [decide_eq_true htiny]
    exact hUE htiny
  · rw [decide_eq_false htiny]
    exact within_zero L

end RuleKinds

/-- A usable Valid or Denormal value is well-formed. -/
theorem wf_of_usable_finite {v : FpuValue} (hu : v.usable = true) (ht : v.tag = .valid ∨ v.tag = .denormal) :
    v.wf = true :=
  FpuValue.usable_eq_wf (v := v) (by rcases ht with ht | ht <;> rw [ht] <;> nofun) ▸ hu

/-- An Infinity settles both screenings: invalid if negative, else the positive Infinity (R262, R272). -/
theorem ruleInfinity_kindsWithin {L : KindSet} (X : FpuValue) (hIE : Within kIE L) (hDE : Within kDE L) :
    (if X.sign then ruleInvalid else ruleExact X X (infOf false)).KindsWithin L := by
  split
  · exact ruleInvalid_kindsWithin hIE
  · exact ruleExact_kindsWithin X _ hDE

/-- FL2X raises IE, DE, ZE and PE; never OE or UE, its results being neither large nor tiny (R262). -/
theorem ruleLog2_kindsWithin (cw : ControlWord) {X : FpuValue} (hu : X.usable = true) :
    (ruleLog2 cw X).KindsWithin (raisable .fl2x) := by
  have hfinite : X.tag = .valid ∨ X.tag = .denormal → (ruleLog2 cw X).KindsWithin (raisable .fl2x) := fun ht => by
    have hwf := wf_of_usable_finite hu ht
    have h0 := valOf_ne_zero hu ht
    rw [ruleLog2_of_finite ht]
    split_ifs with hs h1
    · exact ruleInvalid_kindsWithin (by decide)
    · exact ruleExact_kindsWithin X _ (by decide)
    · have harg : EngineArgument X := ⟨hwf, ht, valOf_pos_of_not_sign h0 hs, h1⟩
      obtain ⟨hlow, hhigh⟩ := harg.abs_pL2_bounds
      refine ruleEngine_kindsWithin X cw (by decide) (by decide) (pL2_ne_zero harg.pos h1)
        (hhigh.trans (by norm_num)) fun htiny => absurd (hlow.trans_lt htiny) (not_lt.mpr ?_)
      exact zpow_le_zpow_right₀ one_le_two (by norm_num)
  cases ht : X.tag with
  | valid => exact hfinite (.inl ht)
  | denormal => exact hfinite (.inr ht)
  | nan => simpa only [ruleLog2, ht] using ruleNaN_kindsWithin X (by decide)
  | empty => simp only [ruleLog2, ht]; exact ⟨by decide, by decide⟩
  | zero => simp only [ruleLog2, ht]; exact ⟨by decide, by decide⟩
  | infinity => simp only [ruleLog2, ht]; exact ruleInfinity_kindsWithin X (by decide) (by decide)

/-- FL2XP1 raises IE, DE, ZE, UE and PE; never OE (R272). -/
theorem ruleLog2p1_kindsWithin (cw : ControlWord) {X : FpuValue} (hu : X.usable = true) :
    (ruleLog2p1 cw X).KindsWithin (raisable .fl2xp1) := by
  have hfinite : X.tag = .valid ∨ X.tag = .denormal → (ruleLog2p1 cw X).KindsWithin (raisable .fl2xp1) := fun ht => by
    have hwf := wf_of_usable_finite hu ht
    have h0 := valOf_ne_zero hu ht
    rw [ruleLog2p1_of_finite ht]
    split_ifs with hbelow h1
    · exact ruleInvalid_kindsWithin (by decide)
    · exact ⟨ruleDE_within X (by decide), (by decide : Within kZE (raisable .fl2xp1))⟩
    · have hlt : -1 < valOf X := lt_of_le_of_ne (not_lt.mp hbelow) (Ne.symm h1)
      exact ruleEngine_kindsWithin X cw (by decide) (by decide) (pL2P1_ne_zero hlt h0) (abs_pL2P1_le hwf ht h0 hlt)
        fun _ => by decide
  cases ht : X.tag with
  | valid => exact hfinite (.inl ht)
  | denormal => exact hfinite (.inr ht)
  | nan => simpa only [ruleLog2p1, ht] using ruleNaN_kindsWithin X (by decide)
  | empty => simp only [ruleLog2p1, ht]; exact ⟨by decide, by decide⟩
  | zero => simp only [ruleLog2p1, ht]; exact ruleExact_kindsWithin X _ (by decide)
  | infinity => simp only [ruleLog2p1, ht]; exact ruleInfinity_kindsWithin X (by decide) (by decide)

theorem stickyWithin_ruleLog {i : Instr} {s t : State} {R : RuleResult} {L : KindSet}
    (hR : ruleLog i s.cw (s.st 0) = some R) (hu : (s.st 0).usable = true) (h : exec i s = .next t)
    (hs : s.StickyWithin L) (hK : R.KindsWithin (raisable i)) (hL : Within (raisable i) L) : t.StickyWithin L := by
  cases (exec_eq_finishComputed_of_ruleLog hR hu).symm.trans h
  exact hs.finishComputed (c := R.toComputed) (hK.first.trans hL) (hK.second.trans hL) 0 false

/-! ### Every command -/

/-- A command sets no sticky bit of a kind that is not listed for it. -/
theorem exec_stickyWithin {i : Instr} {s t : State} {L : KindSet} (husable : s.SlotsUsable) (h : exec i s = .next t)
    (hs : s.StickyWithin L) (hL : Within (raisable i) L) : t.StickyWithin L := by
  cases i with
  | finit | fclex => cases h; exact within_zero L
  | stsw | stcw | ffree | ffreep | pop => cases h; exact hs
  | ldcw =>
    unfold exec execLdcw at h
    cases h
    split <;> exact hs
  | fldReg n =>
    have hSO : Within (kSO ||| kIE) L := Within.trans (L := kSO ||| kSU ||| kIE) (by decide) hL
    have hSU : Within (kSU ||| kIE) L := Within.trans (L := kSO ||| kSU ||| kIE) (by decide) hL
    unfold exec execFldReg at h
    cases h
    split
    · exact hs.stackOverflow hSO fun hu => hu
    · split
      · exact hs.stackUnderflow hSU fun hu => hu
      · exact hs
  | fldImm =>
    obtain ⟨v, -, rfl⟩ := withImmediate_eq_next h
    exact hs.push hL v (fun hu => hu) fun hu => hu
  | fldc c =>
    unfold exec execFldc at h
    cases h
    split
    · exact hs.push hL _ (fun hu => hu) fun hu => hu
    · exact hs
  | fst n | fstp n => cases h; exact hs.store hL n fun hu => hu
  | fxch n =>
    unfold exec execFxch at h
    cases h
    split
    · exact hs.stackUnderflow hL fun hu => hu
    · exact hs
  | rdst n =>
    cases h
    rcases readReg_cases s n (fun v s => doneData (packValue v) s) with ⟨-, e⟩ | ⟨-, e⟩ <;> rw [e]
    · exact hs
    · exact hs.stackUnderflow hL fun hu => hu
  | fl2x => exact stickyWithin_ruleLog rfl (husable _) h hs (ruleLog2_kindsWithin s.cw (husable _)) hL
  | fl2xp1 => exact stickyWithin_ruleLog rfl (husable _) h hs (ruleLog2p1_kindsWithin s.cw (husable _)) hL
  | _ => exact stickyWithin_arithRow rfl h hs hL

/-- The commands that raise nothing complete, or are illegal. -/
theorem exec_of_raisesNothing {i : Instr} (hi : raisesNothing i = true) (s : State) :
    ∃ t r, exec i s = .next t ∧ t.resp = some r ∧ r.status ≠ .fault := by
  cases i with
  | finit | fclex | stsw | stcw | ffree | ffreep | pop => exact ⟨_, _, rfl, rfl, nofun⟩
  | ldcw =>
    cases hcw : ControlWord.ofWord (s.opnd.extractLsb' 0 16) with
    | some cw => exact ⟨_, _, exec_ldcw_of_some hcw, rfl, nofun⟩
    | none => exact ⟨_, _, exec_ldcw_of_none hcw, rfl, nofun⟩
  | _ => cases hi

/-- Settles O52: every signal is of listed kinds, and the commands without one answer DONE or ILLEGAL. -/
theorem raisedKindsByCommand : Obligations.RaisedKindsByCommand :=
  ⟨fun i s _ husable h => exec_stickyWithin husable h (within_or_left s.sticky (raisable i)) (within_or_right _ _),
    fun _ s hi => exec_of_raisesNothing hi s⟩

end Sys2Proof.Machine
end

section
/-! The sticky bits do not change what a command does (spec/60_exceptions.md R362): but for STSW, FINIT and FCLEX every
command is an update that adds the same kinds to whatever sticky bits it finds. -/

namespace Sys2Proof.Machine

/-- The state with other sticky bits. -/
def State.withSticky (s : State) (K : KindSet) : State := { s with sticky := K }

/-- An update that adds kinds to the sticky bits and does not read them otherwise. -/
def AddsSticky (f : State → State) : Prop :=
  ∀ s : State, ∃ N : KindSet, (f s).sticky = s.sticky ||| N ∧
    ∀ K : KindSet, f (s.withSticky K) = (f s).withSticky (K ||| N)

namespace AddsSticky

/-! ### How such updates are put together -/

/-- An update that neither reads nor writes the sticky bits. -/
theorem of_ignores {f : State → State} (h : ∀ s K, f (s.withSticky K) = (f s).withSticky K) : AddsSticky f := fun s =>
  have hor : ∀ K : KindSet, K ||| 0 = K := fun _ => BitVec.or_zero
  ⟨0, (congrArg State.sticky (h s s.sticky)).trans (hor s.sticky).symm, fun K => (h s K).trans (by rw [hor])⟩

theorem comp {f g : State → State} (hg : AddsSticky g) (hf : AddsSticky f) : AddsSticky fun s => g (f s) := by
  intro s
  obtain ⟨M, hM, hfK⟩ := hf s
  obtain ⟨N, hN, hgK⟩ := hg (f s)
  refine ⟨M ||| N, by rw [hN, hM, BitVec.or_assoc], fun K => ?_⟩
  calc
    g (f (s.withSticky K)) = g ((f s).withSticky (K ||| M)) := by rw [hfK]
    _ = (g (f s)).withSticky (K ||| (M ||| N)) := by rw [hgK, BitVec.or_assoc]

/-- A choice by a condition that does not read the sticky bits. -/
theorem ite {c : State → Prop} [DecidablePred c] {f g : State → State} (hc : ∀ s K, c (s.withSticky K) ↔ c s)
    (hf : AddsSticky f) (hg : AddsSticky g) : AddsSticky fun s => if c s then f s else g s := by
  intro s
  by_cases h : c s
  · simpa only [if_pos h, if_pos ((hc s _).mpr h)] using hf s
  · simpa only [if_neg h, if_neg (mt (hc s _).mp h)] using hg s

/-! ### Updates -/

theorem respond (r : Response) : AddsSticky (respond r) := of_ignores fun _ _ => rfl

theorem done : AddsSticky done := respond _

theorem setSticky (K : KindSet) : AddsSticky (setSticky K) := fun _ => ⟨K, rfl, fun _ => rfl⟩

theorem setC1 (b : Bool) : AddsSticky (setC1 b) := of_ignores fun _ _ => rfl

theorem pushRaw (v : FpuValue) : AddsSticky (pushRaw v) := of_ignores fun _ _ => rfl

theorem popStack : AddsSticky popStack := of_ignores fun _ _ => rfl

theorem setSlot_phys (i : RegIdx) (v : FpuValue) : AddsSticky fun s => setSlot (s.phys i) v s :=
  of_ignores fun _ _ => rfl

theorem popIf (pops : Bool) : AddsSticky (popIf pops) := by
  cases pops
  · exact of_ignores fun _ _ => rfl
  · exact popStack

theorem writeBack (d : RegIdx) (v : FpuValue) (pops : Bool) : AddsSticky (writeBack d v pops) :=
  done.comp ((popIf pops).comp (setSlot_phys d v))

/-! ### Shared operations -/

/-- A signal tests the masks, not the sticky bits that are set already (R345). -/
theorem signal (K : KindSet) {k : State → State} (hk : AddsSticky k) : AddsSticky fun s => signal K s k :=
  ite (fun _ _ => Iff.rfl) (hk.comp (setSticky K)) fun _ => ⟨K, rfl, fun _ => rfl⟩

theorem stackUnderflow {k : State → State} (hk : AddsSticky k) : AddsSticky fun s => stackUnderflow s k :=
  signal _ (hk.comp (setC1 true))

theorem stackOverflow {k : State → State} (hk : AddsSticky k) : AddsSticky fun s => stackOverflow s k :=
  signal _ (hk.comp (setC1 true))

theorem readReg (i : RegIdx) {k : FpuValue → State → State} (hk : ∀ v, AddsSticky (k v)) :
    AddsSticky fun s => readReg i s k :=
  ite (fun _ _ => Iff.rfl) (stackUnderflow (hk indef)) fun s => hk (s.st i) s

theorem push (v : FpuValue) {k kOver : State → State} (hk : AddsSticky k) (hOver : AddsSticky kOver) :
    AddsSticky fun s => push v s k kOver :=
  ite (fun _ _ => Iff.rfl) (stackOverflow (hOver.comp (pushRaw indef))) (hk.comp (pushRaw v))

theorem store (i : RegIdx) {k : State → State} (hk : AddsSticky k) : AddsSticky fun s => store i s k :=
  readReg 0 fun v => hk.comp (setSlot_phys i v)

theorem finishComputed (c : Computed) (d : RegIdx) (pops : Bool) : AddsSticky (finishComputed c d pops) :=
  signal _ (signal _ ((writeBack d c.value pops).comp (setC1 c.roundup)))

/-! ### Commands -/

theorem arith (op : ArithOp) (f : Form) : AddsSticky (arith op f) :=
  ite (fun _ _ => Iff.rfl) (stackUnderflow (writeBack _ _ _)) fun s =>
    finishComputed (compute op s.cw (f.operands s).1 (f.operands s).2) _ _ s

theorem logCommand (screen : FpuValue → Screened) (engine : Rat → Rat) : AddsSticky (logCommand screen engine) := by
  intro s
  by_cases he : (s.st 0).tag = .empty
  · have hempty : ∀ K, Machine.logCommand screen engine (s.withSticky K) =
        Machine.stackUnderflow (s.withSticky K) (Machine.writeBack 0 indef false) :=
      fun K => logCommand_of_empty (s := s.withSticky K) he screen engine
    simpa only [hempty, logCommand_of_empty he] using stackUnderflow (writeBack 0 indef false) s
  · have hfull : ∀ K, Machine.logCommand screen engine (s.withSticky K) =
        Machine.finishComputed (logComputed screen engine s.cw (s.st 0)) 0 false (s.withSticky K) :=
      fun K => logCommand_of_nonempty (s := s.withSticky K) he screen engine
    simpa only [hfull, logCommand_of_nonempty he] using
      finishComputed (logComputed screen engine s.cw (s.st 0)) 0 false s

end AddsSticky

/-! ### Every command -/

/-- With the operand `o` on the operand port command `i` does what `f` does. -/
def RunsAs (i : Instr) (o : PortWord) (f : State → State) : Prop :=
  ∀ u : State, u.opnd = o → exec i u = .next (f u)

theorem immediate_of_opnd_eq {s u : State} (h : u.opnd = s.opnd) : u.immediate = s.immediate := by
  rw [State.immediate, State.immediate, h]

/-- An immediate form runs on the immediate that the port holds. -/
theorem runsAs_withImmediate {i : Instr} {s t : State} {k : FpuValue → State → State}
    (hi : ∀ u, exec i u = withImmediate u fun v => k v u) (h : exec i s = .next t) :
    ∃ v, RunsAs i s.opnd (k v) := by
  rw [hi] at h
  obtain ⟨v, hv, -⟩ := withImmediate_eq_next h
  exact ⟨v, fun u hu => (hi u).trans (withImmediate_some u ((immediate_of_opnd_eq hu).trans hv) _)⟩

/-- But for STSW, FINIT and FCLEX a command adds to the sticky bits without reading them. -/
theorem exec_runsAs_addsSticky {i : Instr} {s t : State} (hstsw : i ≠ .stsw) (hfinit : i ≠ .finit)
    (hfclex : i ≠ .fclex) (h : exec i s = .next t) : ∃ f, AddsSticky f ∧ RunsAs i s.opnd f := by
  cases i with
  | stsw => exact absurd rfl hstsw
  | finit => exact absurd rfl hfinit
  | fclex => exact absurd rfl hfclex
  | stcw | ffree | ffreep | pop => exact ⟨_, .of_ignores fun _ _ => rfl, fun _ _ => rfl⟩
  | ldcw =>
    cases hcw : ControlWord.ofWord (s.opnd.extractLsb' 0 16) with
    | some cw =>
      exact ⟨fun u => { u with cw := cw, resp := some (doneResponse 0) }, .of_ignores fun _ _ => rfl,
        fun u hu => exec_ldcw_of_some (by rw [hu, hcw])⟩
    | none => exact ⟨_, .respond illegalResponse, fun u hu => exec_ldcw_of_none (by rw [hu, hcw])⟩
  | fldReg n =>
    refine ⟨_, ?_, fun _ _ => rfl⟩
    have pushIndef : AddsSticky fun s => done (pushRaw indef s) := .comp .done (.pushRaw indef)
    exact .ite (fun _ _ => Iff.rfl) (.stackOverflow pushIndef)
      (.ite (fun _ _ => Iff.rfl) (.stackUnderflow pushIndef) fun s => (AddsSticky.done.comp (.pushRaw (s.st n))) s)
  | fldImm =>
    obtain ⟨v, hv⟩ := runsAs_withImmediate (k := fun v u => push v u done done) (fun _ => rfl) h
    exact ⟨_, .push v .done .done, hv⟩
  | fldc c =>
    refine ⟨_, ?_, fun _ _ => rfl⟩
    cases constTable c with
    | some v => exact .push v (.comp .done (.setC1 false)) .done
    | none => exact .respond _
  | fst n => exact ⟨_, .store n .done, fun _ _ => rfl⟩
  | fstp n => exact ⟨_, .store n (.comp .done .popStack), fun _ _ => rfl⟩
  | fxch n =>
    refine ⟨_, ?_, fun _ _ => rfl⟩
    have swap : AddsSticky fun s => done (swapSlots (s.phys 0) (s.phys n) s) := .of_ignores fun _ _ => rfl
    exact .ite (fun _ _ => Iff.rfl) (.stackUnderflow swap) swap
  | rdst n => exact ⟨_, .readReg n fun _ => .respond _, fun _ _ => rfl⟩
  | faddImm | fsubImm | fsubrImm | fmulImm | fdivImm | fdivrImm =>
    obtain ⟨v, hv⟩ := runsAs_withImmediate (k := fun v => arith _ (formImm _ v)) (fun _ => rfl) h
    exact ⟨_, .arith _ _, hv⟩
  | fl2x | fl2xp1 => exact ⟨_, .logCommand _ _, fun _ _ => rfl⟩
  | _ => exact ⟨_, .arith _ _, fun _ _ => rfl⟩

/-- Settles O54: FINIT and FCLEX overwrite the sticky bits, and every other command adds to them. -/
theorem esDoesNotGateExecution : Obligations.EsDoesNotGateExecution := by
  intro i s t K hstsw h
  by_cases hfinit : i = .finit
  · subst hfinit
    exact ⟨0, .inr ⟨.inr rfl, h⟩⟩
  by_cases hfclex : i = .fclex
  · subst hfclex
    exact ⟨0, .inr ⟨.inl rfl, h⟩⟩
  obtain ⟨f, hf, hrun⟩ := exec_runsAs_addsSticky hstsw hfinit hfclex h
  obtain ⟨N, hN, hK⟩ := hf s
  cases (hrun s rfl).symm.trans h
  exact ⟨N, .inl ⟨hN, (hrun (s.withSticky K) rfl).trans (congrArg Host.Outcome.next (hK K))⟩⟩

end Sys2Proof.Machine
end
